-- ==== Sys2Proof/Word.lean ====
section
/-! DEFINITION. The word types of the machine (00_scope.md R7): a byte is 8 bits, and every register value,
operand payload and arena offset is a 64-bit word. Numbers that a rule calls "unsigned" are `Nat`. -/

namespace Sys2Proof

/-- One byte of the arena, of an instruction record or of an image (R7). -/
abbrev Byte := BitVec 8

/-- A register value, an operand payload or an arena offset: 64 bits (R6 `XLEN`, R7, R21). -/
abbrev Word := BitVec 64

end Sys2Proof
end

