-- ==== Sys2Proof/Syntax.lean ====
section
/-! DEFINITION. The decoded instruction: registers, operand sizes, the six operand forms of 30_encoding.md R87 and one
constructor of `Instr` for each of the 22 rows of spec/opcode_table.json. A value of `Instr` is the decoded record of
R93: the opcode is the constructor, the arity and the length follow from it, and the tag of each present slot is the
operand's constructor. -/

namespace Sys2Proof

/-- The ten registers (10_state.md R21). -/
inductive Reg where
  | r0 | r1 | r2 | r3 | r4 | r5
  /-- `RIP`, the program counter (R23). -/
  | rip
  /-- `RSP`, the stack pointer (R24). -/
  | rsp
  /-- `RFLAG`, the result of the most recent `cmp` (R25). -/
  | rflag
  /-- `RMEM`, the first aligned offset past the loaded image (R26). -/
  | rmem
deriving DecidableEq, Repr

/-- The legal operand sizes (R83): one, two, four or eight bytes. -/
inductive Size where
  | b1 | b2 | b4 | b8
deriving DecidableEq, Repr

/-- The operand size in bytes, the `n` of every rule (R8). -/
def Size.bytes : Size → Nat
  | .b1 => 1
  | .b2 => 2
  | .b4 => 4
  | .b8 => 8

/-- The second register of an indexed operand, from the `reg2` and `sign2` bytes (R91). A record without a second
register carries no `reg2`: that byte is ignored (R99), so two records that differ there decode to one instruction. -/
inductive Second where
  /-- `sign2 = 0`: no second register. -/
  | none
  /-- `sign2 = 1`: add register number `reg`. -/
  | add (reg : Byte)
  /-- `sign2 = 2`: subtract register number `reg`. -/
  | sub (reg : Byte)
  /-- `sign2` is 3 or more: it decodes (R90), and the operand resolver faults on it (R149). -/
  | illegal (sign reg : Byte)
deriving DecidableEq, Repr

/-- The indexed-addressing sub-record (R91). Register numbers are as encoded: the resolver checks them (R145). -/
structure Indexed where
  /-- Register number of the base register. -/
  base : Byte
  /-- Multiplier of the base register, unsigned. -/
  mult : Byte
  /-- The optional second register with its sign. -/
  second : Second
  /-- Constant offset, signed 32-bit. -/
  offset : BitVec 32
deriving DecidableEq, Repr

/-- The six operand forms, one for each legal type tag (R87; the tags stay distinct, DEDUCED, log entry 9). A register number is the whole 64-bit payload (R89) and
may be out of range: decoding never fails on a payload (R90), the resolver does (R145). -/
inductive Operand where
  /-- Tag `0x05`, `IMMEDIATE|LITERAL`: an immediate value. -/
  | imm (v : Word)
  /-- Tag `0x09`, `IMMEDIATE|ADDRESS`: the memory cell at an absolute arena offset. -/
  | abs (addr : Word)
  /-- Tag `0x06`, `REGISTER|LITERAL`: a register. -/
  | reg (id : Word)
  /-- Tag `0x0A`, `REGISTER|ADDRESS`: the memory cell a register points to. -/
  | regInd (id : Word)
  /-- Tag `0x1A`, `REGISTER|ADDRESS|COMPLEX`: an indexed memory cell. -/
  | indexed (x : Indexed)
  /-- Tag `0x16`, `REGISTER|LITERAL|COMPLEX`: the same indexed memory cell, written without brackets (C5). -/
  | indexedBare (x : Indexed)
deriving DecidableEq, Repr

/-- The 22 instructions (R95), in the order of their opcode bytes. Every record has a size, `exit` and `ret` too (R83).
Operand 0 is the first written in assembly: the destination `d` of a two-operand instruction (R82). -/
inductive Instr where
  | push (n : Size) (s : Operand)
  | pop (n : Size) (d : Operand)
  | jmp (n : Size) (t : Operand)
  | exit (n : Size)
  | mov (n : Size) (d s : Operand)
  | call (n : Size) (t : Operand)
  | ret (n : Size)
  | add (n : Size) (d s : Operand)
  | sub (n : Size) (d s : Operand)
  | mul (n : Size) (d s : Operand)
  | div (n : Size) (d s : Operand)
  | mod (n : Size) (d s : Operand)
  | inc (n : Size) (d : Operand)
  | dec (n : Size) (d : Operand)
  | cmp (n : Size) (a b : Operand)
  | je (n : Size) (t : Operand)
  | jne (n : Size) (t : Operand)
  | jl (n : Size) (t : Operand)
  | jg (n : Size) (t : Operand)
  | jle (n : Size) (t : Operand)
  | jge (n : Size) (t : Operand)
  | print (n : Size) (s : Operand)
deriving DecidableEq, Repr

/-- The 22 opcodes (R95), each the operation of one constructor of `Instr`. -/
inductive Opcode where
  | push | pop | jmp | exit | mov | call | ret | add | sub | mul | div | mod | inc | dec | cmp
  | je | jne | jl | jg | jle | jge | print
deriving DecidableEq, Repr

/-- The opcode of an instruction (R93). -/
def Instr.opcode : Instr → Opcode
  | .push _ _ => .push
  | .pop _ _ => .pop
  | .jmp _ _ => .jmp
  | .exit _ => .exit
  | .mov _ _ _ => .mov
  | .call _ _ => .call
  | .ret _ => .ret
  | .add _ _ _ => .add
  | .sub _ _ _ => .sub
  | .mul _ _ _ => .mul
  | .div _ _ _ => .div
  | .mod _ _ _ => .mod
  | .inc _ _ => .inc
  | .dec _ _ => .dec
  | .cmp _ _ _ => .cmp
  | .je _ _ => .je
  | .jne _ _ => .jne
  | .jl _ _ => .jl
  | .jg _ _ => .jg
  | .jle _ _ => .jle
  | .jge _ _ => .jge
  | .print _ _ => .print

/-- The operand size of an instruction (R83). -/
def Instr.size : Instr → Size
  | .push n _ | .pop n _ | .jmp n _ | .exit n | .mov n _ _ | .call n _ | .ret n => n
  | .add n _ _ | .sub n _ _ | .mul n _ _ | .div n _ _ | .mod n _ _ => n
  | .inc n _ | .dec n _ | .cmp n _ _ => n
  | .je n _ | .jne n _ | .jl n _ | .jg n _ | .jle n _ | .jge n _ | .print n _ => n

/-- The operands of an instruction, slot 0 first (R82). -/
def Instr.operands : Instr → List Operand
  | .exit _ | .ret _ => []
  | .push _ o | .pop _ o | .jmp _ o | .call _ o | .inc _ o | .dec _ o => [o]
  | .je _ o | .jne _ o | .jl _ o | .jg _ o | .jle _ o | .jge _ o | .print _ o => [o]
  | .mov _ d s | .add _ d s | .sub _ d s | .mul _ d s | .div _ d s | .mod _ d s | .cmp _ d s => [d, s]

/-- The fixed arity of an instruction: 0, 1 or 2 (R94). -/
def Instr.arity (i : Instr) : Nat := i.operands.length

end Sys2Proof
end

