-- ==== Sys2Proof/Config.lean ====
section
/-! DEFINITION. The configuration record asked for by 00_scope.md R6: every parameter of the machine and every numbering
table in one place. The one value of it, `config`, stands at the front of Sys2Proof/Decode.lean. -/

namespace Sys2Proof

/-- The order of the bytes of a number in the arena, in a record and in an image (R6, 20_memory.md R50). -/
inductive ByteOrder where
  /-- The byte at the lowest offset is the low-order byte. -/
  | little
  /-- The byte at the lowest offset is the high-order byte. -/
  | big
deriving DecidableEq, Repr

/-- The bits of a type tag (30_encoding.md R86, D5). -/
structure TagBits where
  immediate : Byte
  register : Byte
  literal : Byte
  address : Byte
  complex : Byte
deriving DecidableEq, Repr

/-- The layout of the indexed-addressing sub-record (30_encoding.md R91, D7, D8): the payload byte at which each field
starts, and the `sign2` bytes. -/
structure SubRecordLayout where
  base : Nat
  mult : Nat
  reg2 : Nat
  sign2 : Nat
  /-- The first of the four bytes of the offset. -/
  offset : Nat
  /-- `sign2` of no second register. -/
  signNone : Byte
  /-- `sign2` of an added second register. -/
  signAdd : Byte
  /-- `sign2` of a subtracted second register. -/
  signSub : Byte
deriving DecidableEq, Repr

/-- The parameters of R6. -/
structure Config where
  /-- `XLEN`: register and value width in bits, the width of the type `Word`. -/
  xlen : Nat
  /-- The registers; their count is `NREGS`. -/
  registers : List Reg
  /-- The register numbers (10_state.md R21, D6). -/
  registerNumber : Reg → Nat
  /-- The opcodes; their count is `NOPCODES` (C1: 22, not 21). -/
  opcodes : List Opcode
  /-- The opcode bytes (30_encoding.md R95, D2). -/
  opcodeByte : Opcode → Byte
  /-- `REC_HEADER_LEN`: bytes of an instruction record's header. -/
  recHeaderLen : Nat
  /-- `PAYLOAD_LEN`: bytes of one operand payload. -/
  payloadLen : Nat
  /-- `IMAGE_HEADER_LEN`: bytes of a binary image's header; also what a jump adds to a code offset (C6). -/
  imageHeaderLen : Nat
  /-- `CODE_BASE`: arena offset of code-section byte 0 (D10, C2). -/
  codeBase : Nat
  /-- The legal operand sizes (30_encoding.md R83). -/
  sizes : List Size
  /-- The size byte of a size (R83, D4). -/
  sizeByte : Size → Byte
  /-- The size that the assembler gives every instruction (R121). -/
  defaultSize : Size
  /-- The size R31 suggests where a concrete `ARENA_SIZE` is needed. `ARENA_SIZE` itself is an OPEN parameter (R31, D9),
  carried by every machine state, so that a statement about every state is about every size. DESIGN CHOICE, log entry 1. -/
  arenaSize : Nat
  /-- The bits of a type tag (R86). -/
  tagBits : TagBits
  /-- The layout of the sub-record (R91). -/
  subRecord : SubRecordLayout
  /-- The byte order (R50, D11). -/
  byteOrder : ByteOrder
  /-- The signedness of `div` and `mod`, the parameter `DIV_SIGNED` of U10, in the form that 43_arithmetic.md R213 asks for:
  the quotient of two `n`-byte operands given as unsigned numbers. -/
  quotient : Nat → Nat → Nat

/-- `NREGS` (R6). -/
def Config.nregs (c : Config) : Nat := c.registers.length

/-- `NOPCODES` (R6). -/
def Config.nopcodes (c : Config) : Nat := c.opcodes.length

end Sys2Proof
end

