-- ==== Sys2Proof/Decode.lean ====
section
/-! DEFINITION. The configuration's value (00_scope.md R6) and the instruction codec (30_encoding.md R80 to R101): byte order,
sizes, registers, tags and payloads, opcodes, the decoder of 40_execution_cycle.md R141 and R142 on the bytes found at
`RIP`, and the encoder. The decoder is total: it answers an instruction with the bytes after its record, or rejects by
name. -/

namespace Sys2Proof

/-! ### The configuration (R6) -/

/-- The values this hardware takes (R6). The numbering tables are the spec's own decisions D2 to D8 (UNVERIFIED, log entry
5); the unsigned quotient is D17, `DIV_SIGNED = false` (UNVERIFIED, log entry 6). -/
def config : Config where
  xlen := 64
  registers := [.r0, .r1, .r2, .r3, .r4, .r5, .rip, .rsp, .rflag, .rmem]
  registerNumber
    | .r0 => 0
    | .r1 => 1
    | .r2 => 2
    | .r3 => 3
    | .r4 => 4
    | .r5 => 5
    | .rip => 6
    | .rsp => 7
    | .rflag => 8
    | .rmem => 9
  opcodes :=
    [.push, .pop, .jmp, .exit, .mov, .call, .ret, .add, .sub, .mul, .div, .mod, .inc, .dec, .cmp, .je, .jne, .jl, .jg, .jle,
      .jge, .print]
  opcodeByte
    | .push => 0x00
    | .pop => 0x01
    | .jmp => 0x02
    | .exit => 0x03
    | .mov => 0x04
    | .call => 0x05
    | .ret => 0x06
    | .add => 0x07
    | .sub => 0x08
    | .mul => 0x09
    | .div => 0x0A
    | .mod => 0x0B
    | .inc => 0x0C
    | .dec => 0x0D
    | .cmp => 0x0E
    | .je => 0x0F
    | .jne => 0x10
    | .jl => 0x11
    | .jg => 0x12
    | .jle => 0x13
    | .jge => 0x14
    | .print => 0x15
  recHeaderLen := 8
  payloadLen := 8
  imageHeaderLen := 16
  codeBase := 16
  sizes := [.b1, .b2, .b4, .b8]
  sizeByte n := BitVec.ofNat 8 n.bytes
  defaultSize := .b8
  arenaSize := 33554432
  tagBits := { immediate := 0x01, register := 0x02, literal := 0x04, address := 0x08, complex := 0x10 }
  subRecord :=
    { base := 0, mult := 1, reg2 := 2, sign2 := 3, offset := 4
      signNone := 0, signAdd := 1, signSub := 2 }
  byteOrder := .little
  quotient a b := a / b

/-! ### Byte order (20_memory.md R50, R51) -/

/-- The unsigned number that bytes spell little-endian: the first byte is the low-order one (R50). -/
def leNat : List Byte → Nat
  | [] => 0
  | b :: bs => b.toNat + 256 * leNat bs

/-- The low `k` bytes of a number, low-order byte first (R50). -/
def leBytes : Nat → Nat → List Byte
  | 0, _ => []
  | k + 1, v => BitVec.ofNat 8 v :: leBytes k (v / 256)

/-- The unsigned number that bytes spell in the machine's byte order (R50, R51). -/
def natOfBytes (bs : List Byte) : Nat :=
  match config.byteOrder with
  | .little => leNat bs
  | .big => leNat bs.reverse

/-- The low `k` bytes of a number in the machine's byte order (R50). -/
def bytesOfNat (k v : Nat) : List Byte :=
  match config.byteOrder with
  | .little => leBytes k v
  | .big => (leBytes k v).reverse

/-- Byte `k` of a word, `w[8k+7:8k]` (R7). -/
def wordByte (w : Word) (k : Nat) : Byte := BitVec.ofNat 8 (w.toNat / 256 ^ k)

/-! ### Sizes (R83, D4) -/

/-- The size of a size byte; a byte that is no size's byte is illegal (R97). -/
def sizeOfByte (b : Byte) : Option Size := config.sizes.find? (fun n => config.sizeByte n == b)

/-- The size byte of an operand size (R83). -/
def byteOfSize (n : Size) : Byte := config.sizeByte n

/-! ### Register numbers (10_state.md R21, D6) -/

/-- The number of a register (R21). -/
def numberOfReg (r : Reg) : Nat := config.registerNumber r

/-- The register a number names; 10 and above name none (R21, R89: the whole number counts). -/
def regOfNumber (i : Nat) : Option Reg := config.registers.find? (fun r => numberOfReg r == i)

/-! ### Type tags and payloads (R86 to R92) -/

/-- Tag bit of `IMMEDIATE` (R86). -/
def tagImmediate : Byte := config.tagBits.immediate
/-- Tag bit of `REGISTER` (R86). -/
def tagRegister : Byte := config.tagBits.register
/-- Tag bit of `LITERAL` (R86). -/
def tagLiteral : Byte := config.tagBits.literal
/-- Tag bit of `ADDRESS` (R86). -/
def tagAddress : Byte := config.tagBits.address
/-- Tag bit of `COMPLEX` (R86). -/
def tagComplex : Byte := config.tagBits.complex

/-- The type tag of each operand form (R87). -/
def tagOf : Operand → Byte
  | .imm _ => tagImmediate ||| tagLiteral
  | .abs _ => tagImmediate ||| tagAddress
  | .reg _ => tagRegister ||| tagLiteral
  | .regInd _ => tagRegister ||| tagAddress
  | .indexed _ => tagRegister ||| tagAddress ||| tagComplex
  | .indexedBare _ => tagRegister ||| tagLiteral ||| tagComplex

/-- The second register spelled by the `sign2` and `reg2` bytes (R91, D8). -/
def secondOf (sign reg : Byte) : Second :=
  if sign = config.subRecord.signNone then .none
  else if sign = config.subRecord.signAdd then .add reg
  else if sign = config.subRecord.signSub then .sub reg
  else .illegal sign reg

/-- The `sign2` byte of a second register (R91). -/
def signByte : Second → Byte
  | .none => config.subRecord.signNone
  | .add _ => config.subRecord.signAdd
  | .sub _ => config.subRecord.signSub
  | .illegal sign _ => sign

/-- The `reg2` byte of a second register, written 0 when there is none (R91). -/
def reg2Byte : Second → Byte
  | .none => 0
  | .add reg | .sub reg | .illegal _ reg => reg

/-- The indexed-addressing sub-record of a payload (R91, D7). -/
def indexedOf (p : Word) : Indexed where
  base := wordByte p config.subRecord.base
  mult := wordByte p config.subRecord.mult
  second := secondOf (wordByte p config.subRecord.sign2) (wordByte p config.subRecord.reg2)
  offset := BitVec.ofNat 32 (p.toNat / 256 ^ config.subRecord.offset)

/-- The payload of an indexed-addressing sub-record (R91). -/
def payloadOfIndexed (x : Indexed) : Word :=
  BitVec.ofNat 64 (256 ^ config.subRecord.base * x.base.toNat + 256 ^ config.subRecord.mult * x.mult.toNat
    + 256 ^ config.subRecord.reg2 * (reg2Byte x.second).toNat + 256 ^ config.subRecord.sign2 * (signByte x.second).toNat
    + 256 ^ config.subRecord.offset * x.offset.toNat)

/-- The payload of an operand (R88, R89, R91). -/
def payloadOf : Operand → Word
  | .imm v => v
  | .abs a => a
  | .reg id | .regInd id => id
  | .indexed x | .indexedBare x => payloadOfIndexed x

/-- The operand of a tag and a payload: six legal tags, every other value is none (R87). No payload fails (R90). -/
def operandOf (tag : Byte) (p : Word) : Option Operand :=
  if tag = tagImmediate ||| tagLiteral then some (.imm p)
  else if tag = tagImmediate ||| tagAddress then some (.abs p)
  else if tag = tagRegister ||| tagLiteral then some (.reg p)
  else if tag = tagRegister ||| tagAddress then some (.regInd p)
  else if tag = tagRegister ||| tagAddress ||| tagComplex then some (.indexed (indexedOf p))
  else if tag = tagRegister ||| tagLiteral ||| tagComplex then some (.indexedBare (indexedOf p))
  else none

/-! ### Opcodes (R94, R95, D2) -/

/-- What an opcode selects: an instruction without, with one or with two operands (R94). -/
inductive Shape where
  | zero (mk : Size → Instr)
  | one (mk : Size → Operand → Instr)
  | two (mk : Size → Operand → Operand → Instr)

/-- The shape of each opcode (R94). -/
def shapeOfOpcode : Opcode → Shape
  | .push => .one .push
  | .pop => .one .pop
  | .jmp => .one .jmp
  | .exit => .zero .exit
  | .mov => .two .mov
  | .call => .one .call
  | .ret => .zero .ret
  | .add => .two .add
  | .sub => .two .sub
  | .mul => .two .mul
  | .div => .two .div
  | .mod => .two .mod
  | .inc => .one .inc
  | .dec => .one .dec
  | .cmp => .two .cmp
  | .je => .one .je
  | .jne => .one .jne
  | .jl => .one .jl
  | .jg => .one .jg
  | .jle => .one .jle
  | .jge => .one .jge
  | .print => .one .print

/-- What an opcode byte selects; a byte that is no opcode's byte is illegal (R96). -/
def shapeOf (opcode : Nat) : Option Shape :=
  (config.opcodes.find? (fun o => (config.opcodeByte o).toNat == opcode)).map shapeOfOpcode

/-- The opcode byte of an instruction (R95). -/
def opcodeByte (i : Instr) : Byte := config.opcodeByte i.opcode

/-- The length of a record of the given arity in bytes (R80). -/
def recordLength (arity : Nat) : Nat := config.recHeaderLen + config.payloadLen * arity

/-! ### The decoder (R81, R93, R100, R141, R142) -/

/-- Why bytes are no instruction record. Each name is the decode-class fault that the core raises for it. -/
inductive Reject where
  /-- The bytes end before the 8-byte word that starts at byte `offset` of the record (R141, R142: `MemoryFault`). -/
  | truncated (offset : Nat)
  /-- The opcode byte selects no instruction (R96: `DecodeError`). -/
  | unknownOpcode (opcode : Byte)
  /-- The size byte is not 1, 2, 4 or 8 (R97: `InvalidSize`). -/
  | illegalSize (size : Byte)
  /-- The tag of a present slot is not one of the six (R98: `InvalidOperandType`). -/
  | illegalTag (tag : Byte)
deriving DecidableEq, Repr

/-- The next payload, one 64-bit word (R51), with the bytes after it. -/
def takePayload : List Byte → Option (Word × List Byte)
  | b0 :: b1 :: b2 :: b3 :: b4 :: b5 :: b6 :: b7 :: rest =>
    some (BitVec.ofNat 64 (natOfBytes [b0, b1, b2, b3, b4, b5, b6, b7]), rest)
  | _ => none

/-- The size check of R142. -/
def decodeSize (b : Byte) : Except Reject Size :=
  match sizeOfByte b with
  | some n => .ok n
  | none => .error (.illegalSize b)

/-- The tag check of R142 for one present slot. -/
def decodeOperand (tag : Byte) (p : Word) : Except Reject Operand :=
  match operandOf tag p with
  | some o => .ok o
  | none => .error (.illegalTag tag)

/-- The decoder: the instruction record at the front of the bytes, with the bytes after it, or the first failed check in
the order of R141 and R142: header bytes, opcode, payload bytes, size, tag of slot 0, tag of slot 1. The four padding
bytes and the tags of absent slots are ignored (R84, R85). -/
def decode : List Byte → Except Reject (Instr × List Byte)
  | opcode :: size :: tag0 :: tag1 :: _ :: _ :: _ :: _ :: afterHeader =>
    match shapeOf opcode.toNat with
    | none => .error (.unknownOpcode opcode)
    | some (.zero mk) => do
      let n ← decodeSize size
      return (mk n, afterHeader)
    | some (.one mk) =>
      match takePayload afterHeader with
      | none => .error (.truncated 8)
      | some (payload0, rest) => do
        let n ← decodeSize size
        let op0 ← decodeOperand tag0 payload0
        return (mk n op0, rest)
    | some (.two mk) =>
      match takePayload afterHeader with
      | none => .error (.truncated 8)
      | some (payload0, afterPayload0) =>
        match takePayload afterPayload0 with
        | none => .error (.truncated 16)
        | some (payload1, rest) => do
          let n ← decodeSize size
          let op0 ← decodeOperand tag0 payload0
          let op1 ← decodeOperand tag1 payload1
          return (mk n op0 op1, rest)
  | _ => .error (.truncated 0)

/-! ### The encoder (R81, R84, R85) -/

/-- The tag byte of a slot: `0x00` when the instruction does not have the slot (R84). -/
def slotTag : Option Operand → Byte
  | some o => tagOf o
  | none => 0

/-- The 8-byte record header: opcode, size, two tags, four zero padding bytes (R81, R85). -/
def encodeHeader (i : Instr) : List Byte :=
  [opcodeByte i, byteOfSize i.size, slotTag i.operands[0]?, slotTag i.operands[1]?, 0, 0, 0, 0]

/-- The payloads of operands, in operand order, each one word (R51, R81). -/
def encodePayloads : List Operand → List Byte
  | [] => []
  | o :: os => bytesOfNat config.payloadLen (payloadOf o).toNat ++ encodePayloads os

/-- The bytes of an instruction record (R81): 8, 16 or 24 of them (R80). -/
def encode (i : Instr) : List Byte := encodeHeader i ++ encodePayloads i.operands

/-! ### The table's numbering -/

/-- The longest record: 24 bytes (R80). -/
def maxRecordLength : Nat := recordLength 2

/-- The bytes of an instruction whose bits are `w`, lowest byte first, as the arena stores them: bit 0 of `w` is bit 0 of
the opcode byte. The bits from `nbits` on are 0, up to the longest record. -/
def tableBytes (nbits w : Nat) : List Byte := leBytes maxRecordLength (w % 2 ^ nbits)

/-- The instruction the decoder reads from the bits `w`; none where it rejects them. -/
def decodeTableWord (nbits w : Nat) : Option Instr :=
  match decode (tableBytes nbits w) with
  | .ok (i, _) => some i
  | .error _ => none

end Sys2Proof
end

