-- ==== Sys2Proof/WellFormed.lean ====
section
/-! DEFINITION. Which instructions a record can stand for without an error of its own (30_encoding.md R101): every
register number names a register and the second register's sign is legal. Sizes, tags, multipliers and offsets are
legal by their types. An ill-formed instruction still decodes (R90) and its execution faults (40_execution_cycle.md R145,
R149). -/

namespace Sys2Proof

/-- The second register is absent, or is added or subtracted and has a register number (R91). -/
def Second.wf : Second → Bool
  | .none => true
  | .add r | .sub r => decide (r.toNat < config.nregs)
  | .illegal _ _ => false

/-- The base and the second register of an indexed operand have register numbers (R91). -/
def Indexed.wf (x : Indexed) : Bool := decide (x.base.toNat < config.nregs) && x.second.wf

/-- Every register number of the operand names a register (R21, R89, R91). -/
def Operand.wf : Operand → Bool
  | .imm _ | .abs _ => true
  | .reg id | .regInd id => decide (id.toNat < config.nregs)
  | .indexed x | .indexedBare x => x.wf

/-- Every operand is well formed (R101). -/
def Instr.wf (i : Instr) : Bool := i.operands.all Operand.wf

/-- The instruction is representable in the sense of R101. -/
abbrev WellFormed (i : Instr) : Prop := i.wf = true

end Sys2Proof
end

