-- ==== Sys2Proof/Machine/State.lean ====
section
/-! DEFINITION. The complete state of the machine (10_state.md R20): the register file, the memory arena with its size,
the run status with the fault record, and the print output stream; the reasons a step cannot happen; and the state
after reset. -/

namespace Sys2Proof.Machine

/-- The register file: ten 64-bit registers (R21). Programs and rules reach it only through `State.readReg` and
`State.writeReg` (Sys2Proof/Machine/Ops.lean). -/
structure RegFile where
  /-- `R0`, general purpose (R22). -/
  r0 : Word
  /-- `R1`, general purpose (R22). -/
  r1 : Word
  /-- `R2`, general purpose (R22). -/
  r2 : Word
  /-- `R3`, general purpose (R22). -/
  r3 : Word
  /-- `R4`, general purpose (R22). -/
  r4 : Word
  /-- `R5`, general purpose (R22). -/
  r5 : Word
  /-- `RIP`, the program counter: an arena offset (R23). -/
  rip : Word
  /-- `RSP`, the stack pointer: an arena offset (R24). -/
  rsp : Word
  /-- `RFLAG`, the only condition state (R25). -/
  rflag : Word
  /-- `RMEM`, the first aligned offset past the loaded image (R26). -/
  rmem : Word
deriving DecidableEq, Repr

/-- The content of the arena: a list of (arena offset, byte) pairs, offsets strictly rising, no entry equal to what an
unlisted offset reads as (`Memory.wf` in Sys2Proof/Machine/Ops.lean). Any content of an arena has exactly one such list. -/
abbrev Memory := List Host.Cell

/-- The run status `STATUS` (R29). -/
inductive Status where
  /-- The next step executes the instruction at `RIP`. -/
  | running
  /-- `exit` has executed; the run is over, the only normal end (R158). -/
  | halted
  /-- A fatal fault stopped the machine (R247). -/
  | faulted
deriving DecidableEq, Repr

/-- The seven fault causes (60_exceptions.md R240). -/
inductive FaultCause where
  /-- The opcode byte at `RIP` is illegal (R241). -/
  | decodeError
  /-- A register number of 10 or more (R242). -/
  | invalidRegister
  /-- Division or remainder by zero (R248). -/
  | arithmeticFault
  /-- The size byte is not 1, 2, 4 or 8 (R243). -/
  | invalidSize
  /-- An illegal type tag, or an illegal `sign2` byte (R244). -/
  | invalidOperandType
  /-- An access outside the arena (R245). -/
  | memoryFault
  /-- An immediate in a slot the opcode writes (R249). -/
  | writeToImmediate
deriving DecidableEq, Repr

/-- A raised fault: `raise <cause>(info)` of R8, before it is taken. -/
structure Raise where
  cause : FaultCause
  info : Word
deriving DecidableEq, Repr

/-- The complete machine state (R20, R32). `arenaSize` is the OPEN parameter `ARENA_SIZE` (R31, D9): no instruction
changes it, and a statement about every state is a statement about every size. -/
structure State where
  /-- The register file (R21). -/
  regs : RegFile
  /-- The memory arena (R31): bytes at offsets `0 .. arenaSize - 1`. -/
  arena : Memory
  /-- `ARENA_SIZE`, the arena's length in bytes (R31). -/
  arenaSize : Nat
  /-- `STATUS` (R29). -/
  status : Status
  /-- `FAULT_CAUSE` (R30): meaningful only when `status` is `faulted`. -/
  faultCause : FaultCause
  /-- `FAULT_INFO` (R30): meaningful only when `status` is `faulted`. -/
  faultInfo : Word
  /-- The print output stream, oldest value first (R32). No instruction reads it. -/
  output : List Word
deriving DecidableEq, Repr

/-- Why there is no step. The machine's own faults are not here: taking one is a next state with status `faulted`
(R247). -/
inductive Fault where
  /-- Raised by `step` alone, when the status is `halted`: no step exists after `exit` until the next reset (R158, D31).
  DEDUCED, log entry 8. Safe: the hardware does not go on either. -/
  | afterHalt
  /-- Raised by `step` alone, when the status is `faulted`: no step exists after a fault until the next reset (R158,
  D31). DEDUCED, log entry 8. Safe: the hardware does not go on either. -/
  | afterFault
deriving DecidableEq, Repr

/-- Why an instruction has no meaning in this model. -/
inductive Refusal where
  /-- Raised by an arm of `exec` for an instruction that has no meaning yet, naming its mnemonic. No arm answers it: every
  instruction has its meaning. Safe: nothing can be proved about a refused instruction. -/
  | notModelled (mnemonic : String)
deriving DecidableEq, Repr

/-- The machine right after reset with the empty image: `code_len = 0`, `entry = 0`, which R271 accepts;
which image is loaded is a DESIGN CHOICE (log entry 2).
`RIP`, `RSP` and `RMEM` are the values of R33 for that image and the size of `config` (log entry 1); `R0` to `R5` and `RFLAG` are 0
(R33, D23). Nothing is listed in the arena (log entry 3) and the fault record holds values that mean nothing yet (log entry
4). A reset with a program is `resetWith` in Sys2Proof/Machine/Image.lean. -/
def State.reset : State where
  regs :=
    { r0 := 0, r1 := 0, r2 := 0, r3 := 0, r4 := 0, r5 := 0
      rip := BitVec.ofNat 64 config.imageHeaderLen
      rsp := BitVec.ofNat 64 config.arenaSize
      rflag := 0
      rmem := BitVec.ofNat 64 config.codeBase }
  arena := []
  arenaSize := config.arenaSize
  status := .running
  faultCause := .decodeError
  faultInfo := 0
  output := []

end Sys2Proof.Machine
end

