-- ==== Sys2Proof/Machine/Ops.lean ====
section
/-! DEFINITION. The named operations over memory, registers, the output stream and the run status: the pseudocode
primitives of 00_scope.md R8, with the bounds check of 20_memory.md R59 and the taking of a fault of 60_exceptions.md
R247. -/

namespace Sys2Proof.Machine

/-! ### Memory contents -/

/-- What an offset that is not listed reads as. The reset content of the arena outside the code is unspecified (R33,
D23); a list with this default can still hold any content. DESIGN CHOICE, log entry 3. -/
def Memory.unlisted : Byte := 0

/-- One byte of the arena. -/
def Memory.readByte : Memory → Nat → Byte
  | [], _ => Memory.unlisted
  | (b, v) :: m, a => if a = b then v else Memory.readByte m a

/-- Puts a listed byte in its place, replacing the entry of the same offset. -/
def Memory.insert (a : Nat) (v : Byte) : Memory → Memory
  | [] => [(a, v)]
  | (b, w) :: m =>
    if a < b then (a, v) :: (b, w) :: m
    else if a = b then (a, v) :: m
    else (b, w) :: Memory.insert a v m

/-- Sets one byte of the arena. Writing what an unlisted offset reads as removes the entry, so that equal contents stay
equal lists. -/
def Memory.writeByte (m : Memory) (a : Nat) (v : Byte) : Memory :=
  if v = Memory.unlisted then m.filter (fun c => c.1 != a) else m.insert a v

/-- The bytes at offsets `a .. a+k-1`. -/
def Memory.readBytes (m : Memory) (a : Nat) : Nat → List Byte
  | 0 => []
  | k + 1 => m.readByte a :: Memory.readBytes m (a + 1) k

/-- Sets the bytes from offset `a` on. -/
def Memory.writeBytes (m : Memory) (a : Nat) : List Byte → Memory
  | [] => m
  | b :: bs => Memory.writeBytes (m.writeByte a b) (a + 1) bs

/-- The canonical form: offsets strictly rising, no entry equal to what an unlisted offset reads as. -/
def Memory.wf : Memory → Bool
  | [] => true
  | [(_, v)] => decide (v ≠ Memory.unlisted)
  | (a, v) :: (b, w) :: m => decide (v ≠ Memory.unlisted) && decide (a < b) && Memory.wf ((b, w) :: m)

/-! ### Registers (R8, R162) -/

/-- `x[r]`: the 64-bit value of a register. -/
def State.readReg (s : State) : Reg → Word
  | .r0 => s.regs.r0
  | .r1 => s.regs.r1
  | .r2 => s.regs.r2
  | .r3 => s.regs.r3
  | .r4 => s.regs.r4
  | .r5 => s.regs.r5
  | .rip => s.regs.rip
  | .rsp => s.regs.rsp
  | .rflag => s.regs.rflag
  | .rmem => s.regs.rmem

/-- `x[r] <- v`: writes all 64 bits of a register. No register is hardwired (R22). -/
def State.writeReg (s : State) (r : Reg) (v : Word) : State :=
  match r with
  | .r0 => { s with regs := { s.regs with r0 := v } }
  | .r1 => { s with regs := { s.regs with r1 := v } }
  | .r2 => { s with regs := { s.regs with r2 := v } }
  | .r3 => { s with regs := { s.regs with r3 := v } }
  | .r4 => { s with regs := { s.regs with r4 := v } }
  | .r5 => { s with regs := { s.regs with r5 := v } }
  | .rip => { s with regs := { s.regs with rip := v } }
  | .rsp => { s with regs := { s.regs with rsp := v } }
  | .rflag => { s with regs := { s.regs with rflag := v } }
  | .rmem => { s with regs := { s.regs with rmem := v } }

/-! ### Arena access (20_memory.md R57 to R59) -/

/-- One byte of the arena of a state. -/
def State.readByte (s : State) (a : Nat) : Byte := s.arena.readByte a

/-- The bounds check: an access of `k` bytes at `addr` is in bounds exactly when it ends inside the arena (R59; the
form of the test is DEDUCED, log entry 11; that it is made at all is D16, UNVERIFIED, log entry 6). -/
def State.inBounds (s : State) (addr : Word) (k : Nat) : Bool := decide (addr.toNat + k ≤ s.arenaSize)

/-- The unsigned number spelled by the `k` bytes at `addr` (R50), with no bounds check. -/
def State.load (s : State) (addr : Word) (k : Nat) : Nat := natOfBytes (s.arena.readBytes addr.toNat k)

/-- The `k` bytes at `addr` set to the low `k` bytes of `v` (R50), with no bounds check. -/
def State.store (s : State) (addr : Word) (k v : Nat) : State :=
  { s with arena := s.arena.writeBytes addr.toNat (bytesOfNat k v) }

/-- `MemRead(addr, k)` (R57). -/
def memRead (addr : Word) (k : Nat) (s : State) : Except Raise Nat :=
  if s.inBounds addr k then .ok (s.load addr k) else .error ⟨.memoryFault, addr⟩

/-- `MemWrite(addr, k, v)` (R58). -/
def memWrite (addr : Word) (k v : Nat) (s : State) : Except Raise State :=
  if s.inBounds addr k then .ok (s.store addr k v) else .error ⟨.memoryFault, addr⟩

/-! ### Output, status and faults -/

/-- `emit(v)`: appends a value to the print output stream (R32). -/
def State.emit (s : State) (v : Word) : State := { s with output := s.output ++ [v] }

/-- `STATUS <- v` (R29). -/
def State.setStatus (s : State) (v : Status) : State := { s with status := v }

/-- The numeric code of a fault cause (R240, D21; UNVERIFIED, log entry 5). -/
def FaultCause.code : FaultCause → Nat
  | .decodeError => 1
  | .invalidRegister => 2
  | .arithmeticFault => 3
  | .invalidSize => 4
  | .invalidOperandType => 5
  | .memoryFault => 6
  | .writeToImmediate => 7

/-- Taking a fault (R247): the fault record is written and the status becomes `faulted`; every register, `RIP` included,
every arena byte and the output stream stay as they were before the step. There is no handler and no return (R251). -/
def takeFault (r : Raise) (s : State) : State :=
  { s with status := .faulted, faultCause := r.cause, faultInfo := r.info }

/-- The fault the core raises for bytes at `RIP` that are no instruction record (R141, R142). A byte given as information
is zero-extended (DEDUCED, log entry 13). -/
def raiseOfReject (rip : Word) : Reject → Raise
  | .truncated offset => ⟨.memoryFault, rip + BitVec.ofNat 64 offset⟩
  | .unknownOpcode opcode => ⟨.decodeError, opcode.setWidth 64⟩
  | .illegalSize size => ⟨.invalidSize, size.setWidth 64⟩
  | .illegalTag tag => ⟨.invalidOperandType, tag.setWidth 64⟩

end Sys2Proof.Machine
end

