-- ==== Sys2Proof/Machine/Operands.lean ====
section
/-! DEFINITION. The operand multiplexer and the load-store address resolver (40_execution_cycle.md R144 to R152, R161,
R164): what an operand resolves to, and reading and writing `n` bytes at a resolved location. -/

namespace Sys2Proof.Machine

/-- `trunc_n(v)`: the low `n` bytes of a number (R8). -/
def trunc (n : Size) (v : Nat) : Nat := v % 2 ^ (8 * n.bytes)

/-- A resolved operand location (R146). -/
inductive Loc where
  /-- The storage of a register. -/
  | reg (r : Reg)
  /-- The arena span that starts at an offset. -/
  | mem (addr : Word)
  /-- A read-only constant. -/
  | imm (v : Word)
deriving DecidableEq, Repr

/-- The register a payload names, or `InvalidRegister` with the whole number (R145). -/
def checkRegister (i : Word) : Except Raise Reg :=
  match regOfNumber i.toNat with
  | some r => .ok r
  | none => .error ⟨.invalidRegister, i⟩

/-- The effective address of an indexed operand with its registers known, modulo 2^64 (R92, R149): `second` is the value
of the second register with its sign, 0 when there is none. -/
def effectiveAddress (base : Word) (mult : Byte) (second : Word) (offset : BitVec 32) : Word :=
  base * mult.setWidth 64 + second + offset.signExtend 64

/-- The signed second term of an effective address. The checks are those of R149: an illegal `sign2` raises
`InvalidOperandType` with the slot's tag, then a bad register number raises `InvalidRegister`. -/
def secondTerm (tag : Byte) (x : Second) (s : State) : Except Raise Word :=
  match x with
  | .none => .ok 0
  | .add reg => do
    let r ← checkRegister (reg.setWidth 64)
    return s.readReg r
  | .sub reg => do
    let r ← checkRegister (reg.setWidth 64)
    return -(s.readReg r)
  | .illegal _ _ => .error ⟨.invalidOperandType, tag.setWidth 64⟩

/-- The location of an indexed operand: always memory (R149). -/
def resolveIndexed (tag : Byte) (x : Indexed) (s : State) : Except Raise Loc := do
  let base ← checkRegister (x.base.setWidth 64)
  let second ← secondTerm tag x.second s
  return .mem (effectiveAddress (s.readReg base) x.mult second x.offset)

/-- The operand multiplexer: the location of one slot (R146 to R149). It reads registers and nothing else (R144); address
uses of a register take all 64 bits whatever the size (R28). -/
def resolve (o : Operand) (s : State) : Except Raise Loc :=
  match o with
  | .imm v => .ok (.imm v)
  | .abs a => .ok (.mem a)
  | .reg id => do
    let r ← checkRegister id
    return .reg r
  | .regInd id => do
    let r ← checkRegister id
    return .mem (s.readReg r)
  | .indexed x => resolveIndexed (tagOf (.indexed x)) x s
  | .indexedBare x => resolveIndexed (tagOf (.indexedBare x)) x s

/-- Resolving slot `slot` of an opcode that writes it: an immediate raises `WriteToImmediate(slot)` (R152). -/
def resolveWritten (slot : Nat) (o : Operand) (s : State) : Except Raise Loc := do
  let l ← resolve o s
  match l with
  | .imm _ => .error ⟨.writeToImmediate, BitVec.ofNat 64 slot⟩
  | .reg _ | .mem _ => return l

/-- The access at a location passes the bounds check (R59); registers and immediates have none. -/
def Loc.accessible (l : Loc) (n : Size) (s : State) : Bool :=
  match l with
  | .mem a => s.inBounds a n.bytes
  | .reg _ | .imm _ => true

/-- The low `n` bytes held at a location, as an unsigned number (R150), with no bounds check. -/
def State.valueAt (s : State) (l : Loc) (n : Size) : Nat :=
  match l with
  | .reg r => trunc n (s.readReg r).toNat
  | .mem a => s.load a n.bytes
  | .imm v => trunc n v.toNat

/-- A register value with its low `n` bytes replaced and the upper `8 - n` kept (R151, D13; UNVERIFIED,
log entry 6). -/
def mergeLow (n : Size) (old : Word) (v : Nat) : Word :=
  BitVec.ofNat 64 (old.toNat - trunc n old.toNat + trunc n v)

/-- `ReadLoc(loc, n)` (R150). -/
def readLoc (l : Loc) (n : Size) (s : State) : Except Raise Nat :=
  match l with
  | .reg r => .ok (trunc n (s.readReg r).toNat)
  | .mem a => memRead a n.bytes s
  | .imm v => .ok (trunc n v.toNat)

/-- `WriteLoc(loc, n, v)` (R151). The immediate case is never reached: `resolveWritten` has raised before (R152);
DESIGN CHOICE, log entry 10. -/
def writeLoc (l : Loc) (n : Size) (v : Nat) (s : State) : Except Raise State :=
  match l with
  | .reg r => .ok (s.writeReg r (mergeLow n (s.readReg r) v))
  | .mem a => memWrite a n.bytes v s
  | .imm _ => .error ⟨.writeToImmediate, 0⟩

/-- What `WriteLoc` leaves when its access is in bounds. -/
def State.putAt (s : State) (l : Loc) (n : Size) (v : Nat) : State :=
  match l with
  | .reg r => s.writeReg r (mergeLow n (s.readReg r) v)
  | .mem a => s.store a n.bytes v
  | .imm _ => s

end Sys2Proof.Machine
end

