-- ==== Sys2Proof/Machine/Flags.lean ====
section
/-! DEFINITION. The ALU (40_execution_cycle.md R163): the results of the arithmetic instructions on `n`-byte unsigned
numbers (43_arithmetic.md R210 to R219), the value `cmp` writes to `RFLAG` (R217), and the conditions the conditional
jumps test (42_control_transfer.md R193 to R198). All are pure functions. `RFLAG` is the only condition state (10_state.md
R25). -/

namespace Sys2Proof.Machine

/-! ### Results (R210 to R216, R218): exact, then reduced modulo 2^(8n) -/

/-- `add` (R210). -/
def aluAdd (n : Size) (a b : Nat) : Nat := trunc n (a + b)

/-- `sub` (R211): `(a + 2^W - b) mod 2^W`. -/
def aluSub (n : Size) (a b : Nat) : Nat := trunc n (a + 2 ^ (8 * n.bytes) - b)

/-- `mul` (R212): the low half of the product. -/
def aluMul (n : Size) (a b : Nat) : Nat := trunc n (a * b)

/-- `div` (R213): the unsigned quotient (D17; UNVERIFIED, log entry 6), or `ArithmeticFault` for a zero divisor (R248). -/
def aluDiv (a b : Nat) : Except Raise Nat :=
  if b = 0 then .error ⟨.arithmeticFault, 0⟩ else .ok (config.quotient a b)

/-- `mod` (R214): `a - b * floor(a / b)`, or `ArithmeticFault` for a zero divisor (R248). -/
def aluMod (a b : Nat) : Except Raise Nat :=
  if b = 0 then .error ⟨.arithmeticFault, 0⟩ else .ok (a - b * config.quotient a b)

/-- `inc` (R215). -/
def aluInc (n : Size) (a : Nat) : Nat := trunc n (a + 1)

/-- `dec` (R216): `(a + 2^W - 1) mod 2^W`. -/
def aluDec (n : Size) (a : Nat) : Nat := trunc n (a + 2 ^ (8 * n.bytes) - 1)

/-! ### The compare result (R217) -/

/-- `sext_W(v)`: an `n`-byte number sign-extended to 64 bits (R8, R217). -/
def sext (n : Size) (v : Nat) : Word :=
  if 2 ^ (8 * n.bytes - 1) ≤ v then BitVec.ofNat 64 (v + 2 ^ config.xlen - 2 ^ (8 * n.bytes)) else BitVec.ofNat 64 v

/-- What `cmp` writes to `RFLAG`: the difference of the sign-extended operands modulo 2^64 (R217, D18). -/
def compareResult (n : Size) (a b : Nat) : Word := sext n a - sext n b

/-! ### Conditions on `RFLAG` as a signed number against zero (R199) -/

/-- `je`: `x[RFLAG] == 0` (R193). -/
def condEqual (f : Word) : Bool := f == 0
/-- `jne`: `x[RFLAG] != 0` (R194). -/
def condNotEqual (f : Word) : Bool := f != 0
/-- `jl`: `x[RFLAG][63] == 1` (R195). -/
def condLess (f : Word) : Bool := f.msb
/-- `jle`: `x[RFLAG][63] == 1 or x[RFLAG] == 0` (R196). -/
def condLessEqual (f : Word) : Bool := f.msb || f == 0
/-- `jg`: `x[RFLAG][63] == 0 and x[RFLAG] != 0` (R197). -/
def condGreater (f : Word) : Bool := !f.msb && f != 0
/-- `jge`: `x[RFLAG][63] == 0` (R198). -/
def condGreaterEqual (f : Word) : Bool := !f.msb

end Sys2Proof.Machine
end

