-- ==== Sys2Proof/Machine/Cycle.lean ====
section
/-! DEFINITION. What all 22 instructions share (40_execution_cycle.md R140 to R155): fetch and decode, the advance of
`RIP` before the operands are resolved, the resolution of the slots in order, and the commit of the handler's state or
the taking of the first fault. A meaning is a record's shape over its handler. -/

namespace Sys2Proof.Machine

/-- A handler of R153: the state it leaves, or the fault it raises. -/
abbrev Handler := State → Except Raise State

/-- The arena bytes the decoder sees: up to 24 from `RIP`, fewer near the arena top (R160). -/
def fetchWindow (s : State) : List Byte :=
  s.arena.readBytes (s.readReg .rip).toNat (min maxRecordLength (s.arenaSize - (s.readReg .rip).toNat))

/-- Fetch and decode (R141, R142): the instruction at `RIP`, read from the arena itself (R64), or the fault. -/
def fetch (s : State) : Except Raise Instr :=
  match decode (fetchWindow s) with
  | .ok (i, _) => .ok i
  | .error e => .error (raiseOfReject (s.readReg .rip) e)

/-- The advance (R143): `RIP` moves past the record before operands are resolved and the handler runs. -/
def advance (length : Nat) (s : State) : State :=
  s.writeReg .rip (s.readReg .rip + BitVec.ofNat 64 length)

/-- Advance, then run the body of an instruction of the given arity. The state of the body is committed only if nothing was
raised; otherwise the fault is taken on the state before the step (R140, R247). -/
def runRecord (arity : Nat) (body : Handler) (s : State) : Host.Outcome State Fault Refusal :=
  match body (advance (recordLength arity) s) with
  | .ok t => .next t
  | .error r => .next (takeFault r s)

/-- An instruction without operands. -/
def run0 (handler : Handler) (s : State) : Host.Outcome State Fault Refusal := runRecord 0 handler s

/-- An instruction that only reads its operand (R152). -/
def run1 (o : Operand) (handler : Loc → Handler) (s : State) : Host.Outcome State Fault Refusal :=
  runRecord 1 (fun t => do
    let op0 ← resolve o t
    handler op0 t) s

/-- An instruction that writes through its operand (R152). -/
def run1Written (o : Operand) (handler : Loc → Handler) (s : State) : Host.Outcome State Fault Refusal :=
  runRecord 1 (fun t => do
    let op0 ← resolveWritten 0 o t
    handler op0 t) s

/-- An instruction that only reads its two operands: slot 0 is resolved first (R144). -/
def run2 (o0 o1 : Operand) (handler : Loc → Loc → Handler) (s : State) : Host.Outcome State Fault Refusal :=
  runRecord 2 (fun t => do
    let op0 ← resolve o0 t
    let op1 ← resolve o1 t
    handler op0 op1 t) s

/-- An instruction that writes through slot 0 and reads slot 1 (R152, R155). -/
def run2Written (o0 o1 : Operand) (handler : Loc → Loc → Handler) (s : State) : Host.Outcome State Fault Refusal :=
  runRecord 2 (fun t => do
    let op0 ← resolveWritten 0 o0 t
    let op1 ← resolve o1 t
    handler op0 op1 t) s

end Sys2Proof.Machine
end

