-- ==== Sys2Proof/Machine/Arithmetic.lean ====
section
/-! DEFINITION. The arithmetic and compare instructions (43_arithmetic.md): `add`, `sub`, `mul`, `div`, `mod`, `inc`,
`dec`, `cmp`. Only `cmp` writes `RFLAG` as a side effect (10_state.md R25). -/

namespace Sys2Proof.Machine

/-- A two-operand arithmetic handler: read `d`, read `s`, compute, write `d` (R210 to R214). -/
def binaryHandler (alu : Nat → Nat → Except Raise Nat) (n : Size) (op0 op1 : Loc) : Handler := fun s => do
  let a ← readLoc op0 n s
  let b ← readLoc op1 n s
  let v ← alu a b
  writeLoc op0 n v s

/-- A one-operand arithmetic handler: read `d`, compute, write `d` (R215, R216). -/
def unaryHandler (alu : Nat → Nat) (n : Size) (op0 : Loc) : Handler := fun s => do
  let a ← readLoc op0 n s
  writeLoc op0 n (alu a) s

/-- `cmp a, b` (R217): all 64 bits of `RFLAG` are written whatever the size. -/
def cmpHandler (n : Size) (op0 op1 : Loc) : Handler := fun s => do
  let a ← readLoc op0 n s
  let b ← readLoc op1 n s
  return s.writeReg .rflag (compareResult n a b)

/-- The meaning of `add` (R210). -/
def execAdd (n : Size) (d src : Operand) (s : State) : Host.Outcome State Fault Refusal :=
  run2Written d src (binaryHandler (fun a b => .ok (aluAdd n a b)) n) s

/-- The meaning of `sub` (R211). -/
def execSub (n : Size) (d src : Operand) (s : State) : Host.Outcome State Fault Refusal :=
  run2Written d src (binaryHandler (fun a b => .ok (aluSub n a b)) n) s

/-- The meaning of `mul` (R212). -/
def execMul (n : Size) (d src : Operand) (s : State) : Host.Outcome State Fault Refusal :=
  run2Written d src (binaryHandler (fun a b => .ok (aluMul n a b)) n) s

/-- The meaning of `div` (R213). -/
def execDiv (n : Size) (d src : Operand) (s : State) : Host.Outcome State Fault Refusal :=
  run2Written d src (binaryHandler aluDiv n) s

/-- The meaning of `mod` (R214). -/
def execMod (n : Size) (d src : Operand) (s : State) : Host.Outcome State Fault Refusal :=
  run2Written d src (binaryHandler aluMod n) s

/-- The meaning of `inc` (R215). -/
def execInc (n : Size) (d : Operand) (s : State) : Host.Outcome State Fault Refusal :=
  run1Written d (unaryHandler (aluInc n) n) s

/-- The meaning of `dec` (R216). -/
def execDec (n : Size) (d : Operand) (s : State) : Host.Outcome State Fault Refusal :=
  run1Written d (unaryHandler (aluDec n) n) s

/-- The meaning of `cmp` (R217). -/
def execCmp (n : Size) (a b : Operand) (s : State) : Host.Outcome State Fault Refusal :=
  run2 a b (cmpHandler n) s

end Sys2Proof.Machine
end

