-- ==== Sys2Proof/Machine/ControlTransfer.lean ====
section
/-! DEFINITION. The control transfer instructions (42_control_transfer.md): `call`, `ret`, `jmp` and the six conditional
jumps. A target is a code offset; the image header length is added to it (C6). -/

namespace Sys2Proof.Machine

/-- The arena offset a code offset jumps to, modulo 2^64 (R192). -/
def jumpTarget (t : Nat) : Word := BitVec.ofNat 64 t + BitVec.ofNat 64 config.imageHeaderLen

/-- `jmp t` (R192). -/
def jmpHandler (n : Size) (op0 : Loc) : Handler := fun s => do
  let t ← readLoc op0 n s
  return s.writeReg .rip (jumpTarget t)

/-- A conditional jump (R193 to R198): the target is read only when the jump is taken (D28). -/
def jccHandler (cond : Word → Bool) (n : Size) (op0 : Loc) : Handler := fun s =>
  if cond (s.readReg .rflag) then jmpHandler n op0 s else .ok s

/-- `call t` (R190): the return address is pushed, 8 bytes whatever the size, before the target is read
(D29; UNVERIFIED, log entry 6). -/
def callHandler (n : Size) (op0 : Loc) : Handler := fun s => do
  let s := s.writeReg .rsp (s.readReg .rsp - 8)
  let s ← memWrite (s.readReg .rsp) 8 (s.readReg .rip).toNat s
  jmpHandler n op0 s

/-- `ret` (R191): pops 8 bytes into `RIP`, an arena offset as it is. -/
def retHandler : Handler := fun s => do
  let v ← memRead (s.readReg .rsp) 8 s
  let s := s.writeReg .rip (BitVec.ofNat 64 v)
  return s.writeReg .rsp (s.readReg .rsp + 8)

/-- The meaning of `jmp` (R192). -/
def execJmp (n : Size) (t : Operand) (s : State) : Host.Outcome State Fault Refusal := run1 t (jmpHandler n) s

/-- The meaning of `call` (R190). -/
def execCall (n : Size) (t : Operand) (s : State) : Host.Outcome State Fault Refusal := run1 t (callHandler n) s

/-- The meaning of `ret` (R191); the size has no effect (R83). -/
def execRet (_n : Size) (s : State) : Host.Outcome State Fault Refusal := run0 retHandler s

/-- The meaning of `je` (R193). -/
def execJe (n : Size) (t : Operand) (s : State) : Host.Outcome State Fault Refusal :=
  run1 t (jccHandler condEqual n) s

/-- The meaning of `jne` (R194). -/
def execJne (n : Size) (t : Operand) (s : State) : Host.Outcome State Fault Refusal :=
  run1 t (jccHandler condNotEqual n) s

/-- The meaning of `jl` (R195). -/
def execJl (n : Size) (t : Operand) (s : State) : Host.Outcome State Fault Refusal :=
  run1 t (jccHandler condLess n) s

/-- The meaning of `jg` (R197). -/
def execJg (n : Size) (t : Operand) (s : State) : Host.Outcome State Fault Refusal :=
  run1 t (jccHandler condGreater n) s

/-- The meaning of `jle` (R196). -/
def execJle (n : Size) (t : Operand) (s : State) : Host.Outcome State Fault Refusal :=
  run1 t (jccHandler condLessEqual n) s

/-- The meaning of `jge` (R198). -/
def execJge (n : Size) (t : Operand) (s : State) : Host.Outcome State Fault Refusal :=
  run1 t (jccHandler condGreaterEqual n) s

end Sys2Proof.Machine
end

