-- ==== Sys2Proof/Machine/DataMovement.lean ====
section
/-! DEFINITION. The data movement instructions (41_data_movement.md): `mov`, `push`, `pop`. -/

namespace Sys2Proof.Machine

/-- `mov d, s` (R180). -/
def movHandler (n : Size) (op0 op1 : Loc) : Handler := fun s => do
  let v ← readLoc op1 n s
  writeLoc op0 n v s

/-- `push s` (R181): `RSP` is decremented before the source is read, so `push rsp` stores the new value (D29;
UNVERIFIED, log entry 6). -/
def pushHandler (n : Size) (op0 : Loc) : Handler := fun s => do
  let s := s.writeReg .rsp (s.readReg .rsp - BitVec.ofNat 64 n.bytes)
  let v ← readLoc op0 n s
  memWrite (s.readReg .rsp) n.bytes v s

/-- `pop d` (R182): the destination is written before `RSP` is incremented (D29; UNVERIFIED, log entry 6). -/
def popHandler (n : Size) (op0 : Loc) : Handler := fun s => do
  let v ← memRead (s.readReg .rsp) n.bytes s
  let s ← writeLoc op0 n v s
  return s.writeReg .rsp (s.readReg .rsp + BitVec.ofNat 64 n.bytes)

/-- The meaning of `mov` (R180). -/
def execMov (n : Size) (d src : Operand) (s : State) : Host.Outcome State Fault Refusal :=
  run2Written d src (movHandler n) s

/-- The meaning of `push` (R181). -/
def execPush (n : Size) (src : Operand) (s : State) : Host.Outcome State Fault Refusal :=
  run1 src (pushHandler n) s

/-- The meaning of `pop` (R182). -/
def execPop (n : Size) (d : Operand) (s : State) : Host.Outcome State Fault Refusal :=
  run1Written d (popHandler n) s

end Sys2Proof.Machine
end

