-- ==== Sys2Proof/Machine/System.lean ====
section
/-! DEFINITION. The system instructions (44_system.md): `print` and `exit`, and the text form of the output stream. -/

namespace Sys2Proof.Machine

/-- `print s` (R230): the zero-extended value is appended to the output stream. -/
def printHandler (n : Size) (op0 : Loc) : Handler := fun s => do
  let v ← readLoc op0 n s
  return s.emit (BitVec.ofNat 64 v)

/-- `exit` (R231). -/
def exitHandler : Handler := fun s => .ok (s.setStatus .halted)

/-- The meaning of `print` (R230). -/
def execPrint (n : Size) (src : Operand) (s : State) : Host.Outcome State Fault Refusal :=
  run1 src (printHandler n) s

/-- The meaning of `exit` (R231); the size has no effect (R83). -/
def execExit (_n : Size) (s : State) : Host.Outcome State Fault Refusal := run0 exitHandler s

/-- The text of one printed value: its unsigned decimal numeral without leading zeros, then one line feed (R230, D26). The
rendering is done outside the block. -/
def printedText (v : Word) : List Char := Nat.toDigits 10 v.toNat ++ [Char.ofNat 0x0A]

/-- The text of an output stream (R230). -/
def renderOutput (out : List Word) : List Char := out.flatMap printedText

end Sys2Proof.Machine
end

