-- ==== Sys2Proof/Machine/Dispatch.lean ====
section
/-! DEFINITION. The dispatch of an instruction to its handler (40_execution_cycle.md R153): one arm per constructor of
`Instr`, in the order of the opcode table (R95). The state is the one before the step: the advance is the meaning's. -/

namespace Sys2Proof.Machine

/-- One whole instruction: advance, resolve, handler, commit or fault (R140). -/
def exec (i : Instr) (s : State) : Host.Outcome State Fault Refusal :=
  match i with
  | .push n src => Sys2Proof.Machine.execPush n src s
  | .pop n d => Sys2Proof.Machine.execPop n d s
  | .jmp n t => Sys2Proof.Machine.execJmp n t s
  | .exit n => Sys2Proof.Machine.execExit n s
  | .mov n d src => Sys2Proof.Machine.execMov n d src s
  | .call n t => Sys2Proof.Machine.execCall n t s
  | .ret n => Sys2Proof.Machine.execRet n s
  | .add n d src => Sys2Proof.Machine.execAdd n d src s
  | .sub n d src => Sys2Proof.Machine.execSub n d src s
  | .mul n d src => Sys2Proof.Machine.execMul n d src s
  | .div n d src => Sys2Proof.Machine.execDiv n d src s
  | .mod n d src => Sys2Proof.Machine.execMod n d src s
  | .inc n d => Sys2Proof.Machine.execInc n d s
  | .dec n d => Sys2Proof.Machine.execDec n d s
  | .cmp n a b => Sys2Proof.Machine.execCmp n a b s
  | .je n t => Sys2Proof.Machine.execJe n t s
  | .jne n t => Sys2Proof.Machine.execJne n t s
  | .jl n t => Sys2Proof.Machine.execJl n t s
  | .jg n t => Sys2Proof.Machine.execJg n t s
  | .jle n t => Sys2Proof.Machine.execJle n t s
  | .jge n t => Sys2Proof.Machine.execJge n t s
  | .print n src => Sys2Proof.Machine.execPrint n src s

end Sys2Proof.Machine
end

