-- ==== Sys2Proof/Machine/Step.lean ====
section
/-! DEFINITION. One step of the machine (40_execution_cycle.md R140) and the placing of an instruction where the next step
fetches. -/

namespace Sys2Proof.Machine

/-- One step: a running machine fetches and executes the instruction at `RIP`, a failed fetch is a fault taken (R247), and
a machine that has halted or faulted has no step (R158). -/
def step (s : State) : Host.Outcome State Fault Refusal :=
  match s.status with
  | .halted => .fault .afterHalt
  | .faulted => .fault .afterFault
  | .running =>
    match fetch s with
    | .ok i => exec i s
    | .error r => .next (takeFault r s)

/-- `s` with the instruction of the bits `w` in the arena at `RIP`, cut at the arena's end, and the machine running: the
very next step fetches it. It stands for the load of a program by a reset (log entry 2). -/
def State.withFetchWord (s : State) (nbits w : Nat) : State :=
  { s with
    arena := s.arena.writeBytes (s.readReg .rip).toNat
      ((tableBytes nbits w).take (s.arenaSize - (s.readReg .rip).toNat))
    status := .running }

end Sys2Proof.Machine
end

