-- ==== Sys2Proof/Machine/Image.lean ====
section
/-! DEFINITION. The binary image and reset as the load of an image (30_encoding.md R105, R106; 70_reset_and_hazards.md R270
to R274). -/

namespace Sys2Proof.Machine

/-- An 8-byte field of the image header (R105). -/
def imageField (image : List Byte) (k : Nat) : Nat := natOfBytes ((image.drop (8 * k)).take 8)

/-- `code_len`: image bytes 0 to 7 (R105). -/
def codeLength (image : List Byte) : Nat := imageField image 0

/-- `entry`: image bytes 8 to 15, a code offset (R105). -/
def entryPoint (image : List Byte) : Nat := imageField image 1

/-- The code section of an image: `code_len` bytes from image offset 16 (R105). Bytes after it are ignored (R271). -/
def codeSection (image : List Byte) : List Byte := (image.drop config.imageHeaderLen).take (codeLength image)

/-- The binary image of a code section and an entry point (R105). -/
def makeImage (code : List Byte) (entry : Nat) : List Byte := bytesOfNat 8 code.length ++ bytesOfNat 8 entry ++ code

/-- `ceil8(v)`: the smallest multiple of 8 that is not below `v` (R273). -/
def ceil8 (v : Nat) : Nat := (v + 7) - (v + 7) % 8

/-- The sizes that the open parameter `ARENA_SIZE` may take (R31, D9). -/
def legalArenaSize (size : Nat) : Bool := size % 8 == 0 && decide (24 ≤ size) && decide (size < 2 ^ (config.xlen - 1))

/-- Why a load is refused (R271). A refused load is no fault: no instruction ran. That the answer names the first
failed check is a DESIGN CHOICE, log entry 14. -/
inductive LoadRefusal where
  /-- The image is shorter than its 16-byte header. -/
  | shorterThanHeader
  /-- The image is shorter than its header says. -/
  | shorterThanCode
  /-- The code section does not fit in the arena. -/
  | codeExceedsArena
deriving DecidableEq, Repr

/-- What reset leaves unspecified, as arguments of the reset (R33, D23, U11): any content of the arena outside the code
section, and any fault record. -/
structure Unspecified where
  arena : Memory
  faultCause : FaultCause
  faultInfo : Word
deriving DecidableEq, Repr

/-- Reset: the load of an image into an arena of the given size (R270), or the refusal of the load (R271). It does not see
the state before it: nothing survives a reset (R274). -/
def resetWith (arenaSize : Nat) (any : Unspecified) (image : List Byte) : Except LoadRefusal State :=
  if image.length < config.imageHeaderLen then .error .shorterThanHeader
  else if image.length < config.imageHeaderLen + codeLength image then .error .shorterThanCode
  else if arenaSize < config.imageHeaderLen + codeLength image then .error .codeExceedsArena
  else .ok
    { regs :=
        { r0 := 0, r1 := 0, r2 := 0, r3 := 0, r4 := 0, r5 := 0
          rip := BitVec.ofNat 64 config.imageHeaderLen + BitVec.ofNat 64 (entryPoint image)
          rsp := BitVec.ofNat 64 arenaSize
          rflag := 0
          rmem := BitVec.ofNat 64 (ceil8 (config.imageHeaderLen + codeLength image)) }
      arena := any.arena.writeBytes config.codeBase (codeSection image)
      arenaSize := arenaSize
      status := .running
      faultCause := any.faultCause
      faultInfo := any.faultInfo
      output := [] }

/-! ### The form of well-formed images (R106) -/

/-- The records of a code section laid back to back, each with its code offset; none when some bytes are no record. The
first argument bounds the number of records. -/
def recordsFrom : Nat → Nat → List Byte → Option (List (Nat × Instr))
  | _, _, [] => some []
  | 0, _, _ :: _ => none
  | fuel + 1, offset, bytes =>
    match decode bytes with
    | .ok (i, rest) => (recordsFrom fuel (offset + recordLength i.arity) rest).map ((offset, i) :: ·)
    | .error _ => none

/-- The target operand of a jump, a conditional jump or a `call`. -/
def jumpOperand : Instr → Option Operand
  | .jmp _ t | .call _ t | .je _ t | .jne _ t | .jl _ t | .jg _ t | .jle _ t | .jge _ t => some t
  | .push _ _ | .pop _ _ | .exit _ | .mov _ _ _ | .ret _ | .add _ _ _ | .sub _ _ _ | .mul _ _ _ | .div _ _ _ => none
  | .mod _ _ _ | .inc _ _ | .dec _ _ | .cmp _ _ _ | .print _ _ => none

/-- A code offset is a record boundary: a record starts there, or the code ends there (log entry 7). -/
def isBoundary (codeLen : Nat) (records : List (Nat × Instr)) (offset : Nat) : Bool :=
  offset == codeLen || records.any (fun r => r.1 == offset)

/-- One record of a well-formed image (R106): representable, because an assembler writes no other register number or sign
(R117, R118), of size 8, and with a jump operand that is an immediate record boundary. -/
def wellFormedRecord (codeLen : Nat) (records : List (Nat × Instr)) (i : Instr) : Bool :=
  i.wf && i.size == config.defaultSize &&
  match jumpOperand i with
  | none => true
  | some (.imm v) => isBoundary codeLen records v.toNat
  | some (.abs _) | some (.reg _) | some (.regInd _) | some (.indexed _) | some (.indexedBare _) => false

/-- The form of a well-formed image, which can be computed (R106): its code section is the encoded records of representable
instructions back to back, with every ignored bit 0 as an encoder writes it (R84, R85, R91) and no trailer; its entry
point is a record boundary, every jump operand an immediate record boundary and every size 8. An image is well formed, in
the words of R106, when the assembler produces it (`WellFormedImage` in Sys2Proof/Machine/Assembler.lean). -/
def wellFormedImage (image : List Byte) : Bool :=
  image.length == config.imageHeaderLen + codeLength image &&
  match recordsFrom (codeLength image) 0 (codeSection image) with
  | none => false
  | some records =>
    records.flatMap (fun r => encode r.2) == codeSection image &&
    isBoundary (codeLength image) records (entryPoint image) &&
    records.all (fun r => wellFormedRecord (codeLength image) records r.2)

end Sys2Proof.Machine
end

