-- ==== Sys2Proof/Machine/Assembler.lean ====
section
/-! DEFINITION. The assembler, the toolchain contract of 30_encoding.md R110 to R126: source text to binary image. It is
software outside the hardware block (00_scope.md R4): no step of the machine uses it. Edge inputs follow D30; what R110 to R125
leave open is a DESIGN CHOICE, log entry 12. -/

namespace Sys2Proof.Machine

/-- A whitespace-free piece of a source line. -/
abbrev Token := List Char

/-- The assembler's errors (R125); all but the last are a `ParseError`. -/
inductive AsmError where
  /-- The first token of an instruction line is no mnemonic (R114). -/
  | unknownMnemonic (t : Token)
  /-- A token with the register prefix names no register (R117). -/
  | unknownRegister (t : Token)
  /-- An operand of no form, or one that cannot be encoded (R118, R119). -/
  | malformedOperand (t : Token)
  /-- The number of operands is not the opcode's arity (R120). -/
  | operandCountMismatch (t : Token)
  /-- A label name declared twice (R112, D30). -/
  | duplicateLabel (t : Token)
  /-- A jump or `call` to a label that is not declared (R122). -/
  | undefinedLabel (t : Token)
deriving DecidableEq, Repr

/-! ### Lines and tokens (R110 to R113) -/

/-- Splits at every separator character; the pieces may be empty. -/
def splitAtChars (sep : Char → Bool) : List Char → List (List Char)
  | [] => [[]]
  | c :: cs =>
    match splitAtChars sep cs with
    | [] => [[c]]
    | w :: ws => if sep c then [] :: w :: ws else (c :: w) :: ws

/-- The lines of a source text (R110). -/
def sourceLines (text : List Char) : List (List Char) := splitAtChars (· == '\n') text

/-- The white space that separates tokens (R113). -/
def isBlankChar (c : Char) : Bool := c == ' ' || c == '\t' || c == '\r'

/-- The tokens of a line, its comment removed: a `#` starts a comment that runs to the end of the line (R111). -/
def lineTokens (line : List Char) : List Token :=
  (splitAtChars isBlankChar (line.takeWhile (· != '#'))).filter (fun t => !t.isEmpty)

/-! ### Numbers (R119) -/

/-- The value of a decimal digit. -/
def decimalDigit (c : Char) : Option Nat :=
  if '0'.toNat ≤ c.toNat && c.toNat ≤ '9'.toNat then some (c.toNat - '0'.toNat) else none

/-- The value of a hexadecimal digit, of either case. -/
def hexDigit (c : Char) : Option Nat :=
  if 'a'.toNat ≤ c.toNat && c.toNat ≤ 'f'.toNat then some (c.toNat - 'a'.toNat + 10)
  else if 'A'.toNat ≤ c.toNat && c.toNat ≤ 'F'.toNat then some (c.toNat - 'A'.toNat + 10)
  else decimalDigit c

/-- The number spelled by digits after the value `acc` of the digits before them. -/
def digitsValue (base : Nat) (digit : Char → Option Nat) (acc : Nat) : List Char → Option Nat
  | [] => some acc
  | c :: cs =>
    match digit c with
    | some d => digitsValue base digit (base * acc + d) cs
    | none => none

/-- A decimal numeral without a sign; an empty one is none. -/
def parseDecimal (t : Token) : Option Nat := if t.isEmpty then none else digitsValue 10 decimalDigit 0 t

/-- A numeral without a sign, decimal or `0x` hexadecimal (R119). -/
def parseNatural (t : Token) : Option Nat :=
  match t with
  | '0' :: 'x' :: ds => if ds.isEmpty then none else digitsValue 16 hexDigit 0 ds
  | _ => parseDecimal t

/-- A literal integer: decimal with an optional leading `-`, or `0x` hexadecimal (R119, D30). -/
def parseInteger (t : Token) : Option Int :=
  match t with
  | '-' :: ds => (parseDecimal ds).map (fun v => -(v : Int))
  | _ => (parseNatural t).map (fun v => (v : Int))

/-- The payload of a literal integer from -2^63 to 2^64-1, in two's complement (R88, R119). -/
def immediatePayload (v : Int) : Option Word :=
  if -(2 ^ (config.xlen - 1)) ≤ v ∧ v < 2 ^ config.xlen then some (BitVec.ofInt 64 v) else none

/-! ### Registers and indexed operands (R117, R118) -/

/-- The assembler spelling of a register (R21). -/
def regSpelling : Reg → Token
  | .r0 => "r0".toList
  | .r1 => "r1".toList
  | .r2 => "r2".toList
  | .r3 => "r3".toList
  | .r4 => "r4".toList
  | .r5 => "r5".toList
  | .rip => "rip".toList
  | .rsp => "rsp".toList
  | .rflag => "rflag".toList
  | .rmem => "rmem".toList

/-- The register that a token spells, exactly and in lower case (R117). -/
def parseRegister (t : Token) : Option Reg :=
  [Reg.r0, .r1, .r2, .r3, .r4, .r5, .rip, .rsp, .rflag, .rmem].find? (fun r => regSpelling r == t)

/-- A token split at `+`, `-` and `*`: the text before the first, then each sign with the text after it (R118). -/
def splitTerms : List Char → Token × List (Char × Token)
  | [] => ([], [])
  | c :: cs =>
    let (w, terms) := splitTerms cs
    if c == '+' || c == '-' || c == '*' then ([], (c, w) :: terms) else (c :: w, terms)

/-- The parts of an indexed operand met so far; each may be given once. -/
structure IndexedParts where
  mult : Option Nat
  second : Option (Char × Reg)
  offset : Option Int
deriving DecidableEq, Repr

/-- One term of an indexed operand after its base register (R118): `*N` directly after the base, a register with its sign,
or an offset with its sign. A second one of a kind cannot be encoded. -/
def addTerm (parts : IndexedParts) (term : Char × Token) : Option IndexedParts :=
  if term.1 == '*' then
    match parts.mult, parts.second, parts.offset, parseNatural term.2 with
    | none, none, none, some m => if m ≤ 255 then some { parts with mult := some m } else none
    | _, _, _, _ => none
  else
    match parseRegister term.2 with
    | some r => if parts.second.isNone then some { parts with second := some (term.1, r) } else none
    | none =>
      match parseNatural term.2, parts.offset with
      | some m, none =>
        let v : Int := if term.1 == '-' then -(m : Int) else (m : Int)
        if -(2 ^ 31) ≤ v ∧ v < 2 ^ 31 then some { parts with offset := some v } else none
      | _, _ => none

/-- All terms of an indexed operand, left to right. -/
def addTerms (parts : IndexedParts) : List (Char × Token) → Option IndexedParts
  | [] => some parts
  | t :: ts =>
    match addTerm parts t with
    | some p => addTerms p ts
    | none => none

/-- The sub-record of a base register and its parts; the defaults are multiplier 1, no second register, offset 0 (R91). -/
def indexedOfParts (base : Reg) (parts : IndexedParts) : Indexed where
  base := BitVec.ofNat 8 (numberOfReg base)
  mult := BitVec.ofNat 8 (parts.mult.getD 1)
  second :=
    match parts.second with
    | none => .none
    | some (sign, r) =>
      if sign == '-' then .sub (BitVec.ofNat 8 (numberOfReg r)) else .add (BitVec.ofNat 8 (numberOfReg r))
  offset := BitVec.ofInt 32 (parts.offset.getD 0)

/-- A register-mode operand: a bare register, or an indexed one (R117, R118). -/
def parseRegisterOperand (bracketed : Bool) (t : Token) : Except AsmError Operand :=
  match parseRegister t with
  | some r =>
    let id : Word := BitVec.ofNat 64 (numberOfReg r)
    .ok (if bracketed then .regInd id else .reg id)
  | none =>
    let (base, terms) := splitTerms t
    match parseRegister base with
    | none => .error (.unknownRegister t)
    | some b =>
      match addTerms ⟨none, none, none⟩ terms with
      | some parts => .ok (if bracketed then .indexed (indexedOfParts b parts) else .indexedBare (indexedOfParts b parts))
      | none => .error (.malformedOperand t)

/-- An immediate operand (R119). -/
def parseImmediateOperand (bracketed : Bool) (t : Token) : Except AsmError Operand :=
  match (parseInteger t).bind immediatePayload with
  | some v => .ok (if bracketed then .abs v else .imm v)
  | none => .error (.malformedOperand t)

/-- The text between the brackets of a bracketed token (R116). -/
def unbracket : Token → Option Token
  | '[' :: cs =>
    match cs.reverse with
    | ']' :: r => some r.reverse
    | _ => none
  | _ => none

/-- An operand without its brackets: the letter `r` is the register prefix (R117, R119). -/
def parseInner (bracketed : Bool) (t : Token) : Except AsmError Operand :=
  match t with
  | 'r' :: _ => parseRegisterOperand bracketed t
  | _ => parseImmediateOperand bracketed t

/-- An operand token (R116 to R119). -/
def parseOperand (t : Token) : Except AsmError Operand :=
  match unbracket t with
  | some inner => parseInner true inner
  | none => parseInner false t

/-! ### Instruction lines (R113 to R115, R120, R121) -/

/-- The mnemonic of an opcode (R95, R114). -/
def mnemonicOf : Opcode → Token
  | .push => "push".toList
  | .pop => "pop".toList
  | .jmp => "jmp".toList
  | .exit => "exit".toList
  | .mov => "mov".toList
  | .call => "call".toList
  | .ret => "ret".toList
  | .add => "add".toList
  | .sub => "sub".toList
  | .mul => "mul".toList
  | .div => "div".toList
  | .mod => "mod".toList
  | .inc => "inc".toList
  | .dec => "dec".toList
  | .cmp => "cmp".toList
  | .je => "je".toList
  | .jne => "jne".toList
  | .jl => "jl".toList
  | .jg => "jg".toList
  | .jle => "jle".toList
  | .jge => "jge".toList
  | .print => "print".toList

/-- The opcodes whose operand is a label name: every jump and `call` (R115). -/
def takesLabel : Opcode → Bool
  | .jmp | .call | .je | .jne | .jl | .jg | .jle | .jge => true
  | .push | .pop | .exit | .mov | .ret | .add | .sub | .mul | .div | .mod | .inc | .dec | .cmp | .print => false

/-- The opcode that a token names, exactly and in lower case (R114). -/
def opcodeOfMnemonic (t : Token) : Option Opcode := config.opcodes.find? (fun o => mnemonicOf o == t)

/-- One line of the program after parsing. -/
inductive Item where
  /-- A label declaration (R112). -/
  | label (name : Token)
  /-- An instruction with its operands known. -/
  | instr (i : Instr)
  /-- A jump or `call` with its fix-up, the name of a label (R115). -/
  | fixup (mk : Size → Operand → Instr) (name : Token)

/-- A token with a comma, which is no separator and is not accepted (R113, C3). -/
def hasComma (t : Token) : Bool := t.contains ','

/-- The instruction of an opcode and its operand tokens (R115, R120); the size is always the default (R121). -/
def parseOperands (o : Opcode) (mnemonic : Token) (operands : List Token) : Except AsmError Item :=
  match shapeOfOpcode o, operands with
  | .zero mk, [] => .ok (.instr (mk config.defaultSize))
  | .one mk, [a] =>
    if takesLabel o then .ok (.fixup mk a)
    else do
      let op0 ← parseOperand a
      return .instr (mk config.defaultSize op0)
  | .two mk, [a, b] => do
    let op0 ← parseOperand a
    let op1 ← parseOperand b
    return .instr (mk config.defaultSize op0 op1)
  | _, _ => .error (.operandCountMismatch mnemonic)

/-- An instruction line. A comma in an operand, a label name of a jump too, makes it malformed (C3, U19). That the mnemonic is
looked at first, then the commas, then the count and then the operands is a DESIGN CHOICE, log entry 12. -/
def parseInstruction (mnemonic : Token) (operands : List Token) : Except AsmError Item :=
  match opcodeOfMnemonic mnemonic with
  | none => .error (.unknownMnemonic mnemonic)
  | some o =>
    match operands.find? hasComma with
    | some t => .error (.malformedOperand t)
    | none => parseOperands o mnemonic operands

/-- The label name of a label declaration: a token that ends in `:` (R112). -/
def labelName (t : Token) : Option Token :=
  match t.reverse with
  | ':' :: r => some r.reverse
  | _ => none

/-- One line: blank, a label declaration or an instruction line (R110). A label name with a comma is refused as an operand with
one is (U19). -/
def parseLine (line : List Char) : Except AsmError (List Item) :=
  match lineTokens line with
  | [] => .ok []
  | t :: ts =>
    match labelName t, ts with
    | some name, [] => if hasComma name then .error (.malformedOperand t) else .ok [.label name]
    | _, _ => do
      let item ← parseInstruction t ts
      return [item]

/-! ### Labels, fix-ups and output (R112, R115, R122 to R124) -/

/-- The label table (R122). -/
abbrev Labels := List (Token × Nat)

/-- The bytes an item occupies: a fix-up is a full 16-byte record (R123). -/
def itemLength : Item → Nat
  | .label _ => 0
  | .instr i => recordLength i.arity
  | .fixup _ _ => recordLength 1

/-- The label table after the items of a line, the first at the running code offset (R112, R122, R123). -/
def collectLabels (offset : Nat) (known : Labels) : List Item → Except AsmError Labels
  | [] => .ok known
  | .label name :: items =>
    if (known.lookup name).isSome then .error (.duplicateLabel name)
    else collectLabels offset ((name, offset) :: known) items
  | .instr i :: items => collectLabels (offset + itemLength (.instr i)) known items
  | .fixup mk name :: items => collectLabels (offset + itemLength (.fixup mk name)) known items

/-- The bytes that items occupy together (R123). -/
def itemsLength (items : List Item) : Nat := (items.map itemLength).sum

/-- The pass over the lines, from a running code offset and the labels declared before (R122, R123): the items of the lines and
the label table. It goes line by line, so the error of an earlier line, a duplicate label too, is reported before the
error of a later one. The spec does not say which error comes first: DESIGN CHOICE, log entry 12. -/
def passLines (offset : Nat) (known : Labels) : List (List Char) → Except AsmError (List Item × Labels)
  | [] => .ok ([], known)
  | l :: ls => do
    let items ← parseLine l
    let labels ← collectLabels offset known items
    let (rest, all) ← passLines (offset + itemsLength items) labels ls
    return (items ++ rest, all)

/-- The instructions with every fix-up resolved to an immediate code offset (R115, R122). -/
def resolveItems (labels : Labels) : List Item → Except AsmError (List Instr)
  | [] => .ok []
  | .label _ :: items => resolveItems labels items
  | .instr i :: items => do
    let rest ← resolveItems labels items
    return i :: rest
  | .fixup mk name :: items =>
    match labels.lookup name with
    | none => .error (.undefinedLabel name)
    | some offset => do
      let rest ← resolveItems labels items
      return mk config.defaultSize (.imm (BitVec.ofNat 64 offset)) :: rest

/-- The code section of a program: its records back to back (R124). -/
def encodeAll (is : List Instr) : List Byte := is.flatMap encode

/-- The assembler (R110 to R125): a binary image, or an error and no output. The entry point is the label `start`, 0 when
there is none (R124). An undefined label is reported only when the pass has found no error (R125); among several errors
the first of the pass is the one reported, which is a DESIGN CHOICE, log entry 12. -/
def assemble (text : List Char) : Except AsmError (List Byte) := do
  let (items, labels) ← passLines 0 [] (sourceLines text)
  let is ← resolveItems labels items
  return makeImage (encodeAll is) ((labels.lookup "start".toList).getD 0)

/-- A well-formed image is one that the assembler produces (R106). The hardware does not check it. -/
def WellFormedImage (image : List Byte) : Prop := ∃ text, assemble text = .ok image

end Sys2Proof.Machine
end

