-- ==== Sys2Proof/Safety.lean ====
section
/-! DEFINITION. The terms in which claims about the machine are stated: reachability and safe runs, the invariant of every
state, what it is for two states to agree, and which operand and which span of the arena an instruction writes. -/

namespace Sys2Proof.Machine

/-! ### Runs -/

/-- `t` is reached from `s` by steps of the machine. -/
inductive Reaches (s : State) : State → Prop where
  | refl : Reaches s s
  | step (t u : State) : Reaches s t → Machine.step t = .next u → Reaches s u

/-- The run is over and is a completed run: `HALTED` is the only normal end (R158). -/
def Completed (s : State) : Prop := s.status = .halted

/-- No run from `s` ever takes a fault. -/
def FaultFree (s : State) : Prop := ∀ t, Reaches s t → t.status ≠ .faulted

/-! ### The invariant -/

/-- What every state of a real machine satisfies: the size of the arena is one that R31 allows, the content of the arena is in
canonical form, and no byte is listed outside the arena. -/
structure State.Inv (s : State) : Prop where
  size : legalArenaSize s.arenaSize = true
  canonical : s.arena.wf = true
  inside : ∀ c ∈ s.arena, c.1 < s.arenaSize

/-! ### Agreement of two states -/

/-- Every byte of the arena reads the same. -/
def SameBytes (s t : State) : Prop := ∀ a, t.readByte a = s.readByte a

/-- Every register but those listed holds the same value. -/
def SameRegsBut (s t : State) (changed : List Reg) : Prop := ∀ r, r ∉ changed → t.readReg r = s.readReg r

/-- Everything outside the registers and the arena's bytes is the same. -/
def SameSystem (s t : State) : Prop :=
  t.arenaSize = s.arenaSize ∧ t.status = s.status ∧ t.faultCause = s.faultCause ∧ t.faultInfo = s.faultInfo ∧
    t.output = s.output

/-- The arena offset `a` is not one of the `k` bytes from `addr` on. -/
def Outside (a : Nat) (addr : Word) (k : Nat) : Prop := a < addr.toNat ∨ addr.toNat + k ≤ a

/-- `t` is `s` with the low `n` bytes held at a location replaced by `v`, and nothing else changed: the upper bytes of a
register, the other registers, the other bytes of the arena and the rest of the machine are those of `s` (R151). -/
structure Written (s t : State) (l : Loc) (n : Size) (v : Nat) : Prop where
  value : t.valueAt l n = v
  upper : ∀ r, l = .reg r → (t.readReg r).toNat / 2 ^ (8 * n.bytes) = (s.readReg r).toNat / 2 ^ (8 * n.bytes)
  registers : ∀ r, l ≠ .reg r → t.readReg r = s.readReg r
  bytes : ∀ a, (∀ addr, l = .mem addr → Outside a addr n.bytes) → t.readByte a = s.readByte a
  system : SameSystem s t

/-- `t` is `s` with the registers listed free and nothing else changed. -/
def OnlyRegs (s t : State) (changed : List Reg) : Prop := SameRegsBut s t changed ∧ SameBytes s t ∧ SameSystem s t

/-- `t` is `s` with one register set to `v`, and nothing else changed. -/
def OnlyReg (s t : State) (r : Reg) (v : Word) : Prop :=
  t.readReg r = v ∧ SameRegsBut s t [r] ∧ SameBytes s t ∧ SameSystem s t

/-- `t` is `s` stopped by a fault: the fault record is written, the status is `faulted`, and every register, every byte and
the output are those of `s` (R247). -/
def FaultedFrom (s t : State) (cause : FaultCause) (info : Word) : Prop :=
  t.status = .faulted ∧ t.faultCause = cause ∧ t.faultInfo = info ∧ SameRegsBut s t [] ∧ SameBytes s t ∧
    t.arenaSize = s.arenaSize ∧ t.output = s.output

/-- The outcome is the next state in which the machine has taken that fault on `s`. -/
def TakesFault (o : Host.Outcome State Fault Refusal) (s : State) (cause : FaultCause) (info : Word) : Prop :=
  ∃ t, o = .next t ∧ FaultedFrom s t cause info

/-! ### What an instruction writes -/

/-- The operand of the slot that the opcode writes, if it writes one (R152). -/
def writtenOperand : Instr → Option Operand
  | .mov _ d _ | .pop _ d | .add _ d _ | .sub _ d _ | .mul _ d _ | .div _ d _ | .mod _ d _ | .inc _ d | .dec _ d => some d
  | .push _ _ | .jmp _ _ | .exit _ | .call _ _ | .ret _ | .cmp _ _ _ | .je _ _ | .jne _ _ | .jl _ _ | .jg _ _ => none
  | .jle _ _ | .jge _ _ | .print _ _ => none

/-- The instruction names register `r` as the destination it writes (R27). -/
def namesDestination (i : Instr) (r : Reg) : Prop :=
  ∃ id, writtenOperand i = some (.reg id) ∧ regOfNumber id.toNat = some r

/-- The instructions that move `RSP` as a side effect (R146). -/
def movesStackPointer : Instr → Bool
  | .push _ _ | .pop _ _ | .call _ _ | .ret _ => true
  | .jmp _ _ | .exit _ | .mov _ _ _ | .add _ _ _ | .sub _ _ _ | .mul _ _ _ | .div _ _ _ | .mod _ _ _ | .inc _ _ => false
  | .dec _ _ | .cmp _ _ _ | .je _ _ | .jne _ _ | .jl _ _ | .jg _ _ | .jle _ _ | .jge _ _ | .print _ _ => false

/-- The instructions that write `RIP` in their handler when they transfer control: every jump, `call` and `ret` (R23). -/
def transfersControl : Instr → Bool
  | .jmp _ _ | .call _ _ | .ret _ | .je _ _ | .jne _ _ | .jl _ _ | .jg _ _ | .jle _ _ | .jge _ _ => true
  | .push _ _ | .pop _ _ | .exit _ | .mov _ _ _ | .add _ _ _ | .sub _ _ _ | .mul _ _ _ | .div _ _ _ => false
  | .mod _ _ _ | .inc _ _ | .dec _ _ | .cmp _ _ _ | .print _ _ => false

/-- `cmp`, the one instruction that writes `RFLAG` as a side effect (R25). -/
def isCmp : Instr → Bool
  | .cmp _ _ _ => true
  | .push _ _ | .pop _ _ | .jmp _ _ | .exit _ | .mov _ _ _ | .call _ _ | .ret _ | .add _ _ _ | .sub _ _ _ => false
  | .mul _ _ _ | .div _ _ _ | .mod _ _ _ | .inc _ _ | .dec _ _ | .je _ _ | .jne _ _ | .jl _ _ | .jg _ _ => false
  | .jle _ _ | .jge _ _ | .print _ _ => false

/-- The state in which the operands are resolved: `RIP` has been advanced past the record (R143, R144). -/
def advanced (i : Instr) (s : State) : State := advance (recordLength i.arity) s

/-- The span of the arena that an instruction stores to from state `s`, if it stores: the resolved destination of a written
memory operand (R151), the stack slot of `push` (R181) and of `call` (R190). -/
def storedSpan (i : Instr) (s : State) : Option (Word × Nat) :=
  match i, writtenOperand i with
  | .push n _, _ => some (s.readReg .rsp - BitVec.ofNat 64 n.bytes, n.bytes)
  | .call _ _, _ => some (s.readReg .rsp - 8, 8)
  | _, none => none
  | _, some d =>
    match resolve d (advanced i s) with
    | .ok (.mem addr) => some (addr, i.size.bytes)
    | .ok (.reg _) | .ok (.imm _) | .error _ => none

/-- Every ignored bit of a record's bytes is zero (R99): the padding, the tags of absent slots, and the `reg2` byte of an
indexed payload without a second register. -/
def IgnoredBitsZero (i : Instr) (bytes : List Byte) : Prop :=
  (∀ k, 4 ≤ k → k < 8 → bytes.getD k 0 = 0) ∧
  (∀ slot, i.arity ≤ slot → slot < 2 → bytes.getD (2 + slot) 0 = 0) ∧
  (∀ slot, slot < i.arity → bytes.getD (2 + slot) 0 = 0x1A ∨ bytes.getD (2 + slot) 0 = 0x16 →
    bytes.getD (8 + 8 * slot + 3) 0 = 0 → bytes.getD (8 + 8 * slot + 2) 0 = 0)

/-- An `n`-byte number read as signed, two's complement (R7, R217). -/
def signedValue (n : Size) (v : Nat) : Int :=
  if v < 2 ^ (8 * n.bytes - 1) then (v : Int) else (v : Int) - 2 ^ (8 * n.bytes)

/-- The signed value of the sub-record's second term for known registers (R92). -/
def secondValue (s : State) : Second → Int
  | .none => 0
  | .add reg =>
    match regOfNumber reg.toNat with
    | some r => (s.readReg r).toNat
    | none => 0
  | .sub reg =>
    match regOfNumber reg.toNat with
    | some r => -((s.readReg r).toNat : Int)
    | none => 0
  | .illegal _ _ => 0

/-- A one-operand jump `mk` is taken exactly when the signed value of `RFLAG` satisfies `P`: then the target operand is read
and `RIP` becomes it plus 16, or `MemoryFault` is raised when it is out of bounds; otherwise nothing but the advance happens
and the target is not read (R193, D28). -/
def JumpsWhen (mk : Size → Operand → Instr) (P : Int → Prop) : Prop :=
  ∀ (n : Size) (o : Operand) (s : State) (l : Loc), resolve o (advance 16 s) = .ok l →
    (P (s.readReg .rflag).toInt → l.accessible n (advance 16 s) = true →
      ∃ t, exec (mk n o) s = .next t ∧
        OnlyReg (advance 16 s) t .rip (BitVec.ofNat 64 ((advance 16 s).valueAt l n) + 16)) ∧
    (∀ a, P (s.readReg .rflag).toInt → l = .mem a → s.inBounds a n.bytes = false →
      TakesFault (exec (mk n o) s) s .memoryFault a) ∧
    (¬ P (s.readReg .rflag).toInt →
      ∃ t, exec (mk n o) s = .next t ∧ OnlyReg s t .rip (s.readReg .rip + 16))

end Sys2Proof.Machine
end

