-- ==== Sys2Proof/Certificates/Slice0/Obligations.lean ====
section
/-! DEFINITION. The statements for the provers. Each docstring names the rule of spec/ that the statement formalises. In a
result statement `advance 8 s`, `advance 16 s` and `advance 24 s` are `s` with `RIP` past the record
(40_execution_cycle.md R143), the state in which operands are resolved. -/

open Sys2Proof Sys2Proof.Machine

/-! ### Encoding -/

/-- R81, R83, R86, R87, R91, R95: records written out byte by byte from these rules of the encoding decode to the instructions
they stand for, one or more of each family. Sanity. -/
def Obligations.WrittenOutRecordsDecode : Prop :=
  decode [0x04, 0x08, 0x1A, 0x05, 0, 0, 0, 0, 0x00, 0x02, 0x01, 0x01, 0xFC, 0xFF, 0xFF, 0xFF, 0xFE, 0xCA, 0, 0, 0, 0, 0, 0]
    = .ok (.mov .b8 (.indexed ⟨0, 2, .add 1, 0xFFFFFFFC⟩) (.imm 0xCAFE), []) ∧
  decode [0x00, 0x08, 0x06, 0x00, 0, 0, 0, 0, 0x07, 0, 0, 0, 0, 0, 0, 0] = .ok (.push .b8 (.reg 7), []) ∧
  decode [0x05, 0x08, 0x05, 0x00, 0, 0, 0, 0, 0x90, 0, 0, 0, 0, 0, 0, 0] = .ok (.call .b8 (.imm 0x90), []) ∧
  decode [0x13, 0x08, 0x05, 0x00, 0, 0, 0, 0, 0x30, 0, 0, 0, 0, 0, 0, 0] = .ok (.jle .b8 (.imm 0x30), []) ∧
  decode [0x0B, 0x01, 0x0A, 0x09, 0, 0, 0, 0, 0x02, 0, 0, 0, 0, 0, 0, 0, 0x00, 0x02, 0, 0, 0, 0, 0, 0]
    = .ok (.mod .b1 (.regInd 2) (.abs 0x200), []) ∧
  decode [0x0E, 0x04, 0x16, 0x06, 0, 0, 0, 0, 0x01, 0x01, 0x02, 0x02, 0x08, 0, 0, 0, 0x08, 0, 0, 0, 0, 0, 0, 0]
    = .ok (.cmp .b4 (.indexedBare ⟨1, 1, .sub 2, 8⟩) (.reg 8), []) ∧
  decode [0x15, 0x02, 0x06, 0x00, 0, 0, 0, 0, 0x03, 0, 0, 0, 0, 0, 0, 0] = .ok (.print .b2 (.reg 3), []) ∧
  decode [0x03, 0x08, 0x00, 0x00, 0, 0, 0, 0] = .ok (.exit .b8, [])

/-- R101: the length of a record follows its arity; decoding the encoding of a representable instruction gives it back, with
the bytes after it; and encoding what bytes decode to gives those bytes exactly when their ignored bits are zero (the
spec marks this last sentence of R101 as derived from R84, R85, R91; "exactly" is the model's reading). -/
def Obligations.DecodeEncodeRoundTrip : Prop :=
  (∀ i, (encode i).length = 8 + i.arity * 8) ∧
  (∀ i rest, WellFormed i → decode (encode i ++ rest) = .ok (i, rest)) ∧
  (∀ bytes i, decode bytes = .ok (i, []) → (encode i = bytes ↔ IgnoredBitsZero i bytes))

/-- R84, R85: an encoder writes the tag of an absent slot and the padding as 0, and the decoder ignores them: whatever they
hold, the bytes decode to the same instruction or are rejected for the same reason. -/
def Obligations.AbsentTagsAndPaddingAreIgnored : Prop :=
  (∀ i k, (i.arity ≤ 1 ∧ k = 3) ∨ (i.arity = 0 ∧ k = 2) ∨ (4 ≤ k ∧ k ≤ 7) → (encode i)[k]? = some 0) ∧
  (∀ i sz t0 t1 p4 p5 p6 p7 t0' t1' q4 q5 q6 q7 rest,
    (1 ≤ i.arity → t0' = t0) → (i.arity = 2 → t1' = t1) →
      decode (opcodeByte i :: sz :: t0' :: t1' :: q4 :: q5 :: q6 :: q7 :: rest) =
        decode (opcodeByte i :: sz :: t0 :: t1 :: p4 :: p5 :: p6 :: p7 :: rest))

/-- R87: a tag is legal exactly when bits 5 to 7 are 0, one of `IMMEDIATE` and `REGISTER` is set, one of `LITERAL` and
`ADDRESS` is set, and `COMPLEX` is set only with `REGISTER`; the six legal tags are those of the table. -/
def Obligations.LegalTagsAreTheSix : Prop :=
  ∀ (tag : Byte) (p : Word),
    ((operandOf tag p).isSome = true ↔
      (tag.toNat < 32 ∧ tag.getLsbD 0 ≠ tag.getLsbD 1 ∧ tag.getLsbD 2 ≠ tag.getLsbD 3 ∧
        (tag.getLsbD 4 = true → tag.getLsbD 1 = true))) ∧
    ((operandOf tag p).isSome = true ↔ tag ∈ [(0x05 : Byte), 0x09, 0x06, 0x0A, 0x1A, 0x16]) ∧
    (∀ o, operandOf tag p = some o → tagOf o = tag)

/-! ### Operand resolution -/

/-- R145: a register number of 10 or more, taken from a payload, raises `InvalidRegister` with that number: the whole payload
of a simple register operand, the base byte of an indexed one, and its second register byte when there is one. -/
def Obligations.RegisterNumbersAreChecked : Prop :=
  (∀ (i : Word) (s : State), i.toNat ≥ 10 →
    resolve (.reg i) s = .error ⟨.invalidRegister, i⟩ ∧ resolve (.regInd i) s = .error ⟨.invalidRegister, i⟩) ∧
  (∀ (x : Indexed) (s : State), x.base.toNat ≥ 10 →
    resolve (.indexed x) s = .error ⟨.invalidRegister, x.base.setWidth 64⟩ ∧
    resolve (.indexedBare x) s = .error ⟨.invalidRegister, x.base.setWidth 64⟩) ∧
  (∀ (x : Indexed) (r : Byte) (s : State), x.base.toNat < 10 → r.toNat ≥ 10 → x.second = .add r ∨ x.second = .sub r →
    resolve (.indexed x) s = .error ⟨.invalidRegister, r.setWidth 64⟩ ∧
    resolve (.indexedBare x) s = .error ⟨.invalidRegister, r.setWidth 64⟩) ∧
  (∀ (i : Word) (s : State), i.toNat < 10 →
    ∃ r, numberOfReg r = i.toNat ∧ resolve (.reg i) s = .ok (.reg r) ∧
      resolve (.regInd i) s = .ok (.mem (s.readReg r)))

/-- R149: an indexed operand is always a memory location, with or without brackets, at the exact value of
`base * mult ± reg2 + offset` modulo 2^64. A base number of 10 or more raises `InvalidRegister` with it, then an illegal `sign2`
raises `InvalidOperandType` with the slot's tag, then a second register number of 10 or more raises `InvalidRegister` with
it. -/
def Obligations.IndexedOperandsResolveToExactAddress : Prop :=
  (∀ (x : Indexed) (s : State), x.wf = true →
    ∃ (r : Reg) (ea : Word), numberOfReg r = x.base.toNat ∧
      resolve (.indexed x) s = .ok (.mem ea) ∧ resolve (.indexedBare x) s = .ok (.mem ea) ∧
      (ea.toNat : Int) =
        (((s.readReg r).toNat : Int) * x.mult.toNat + secondValue s x.second + x.offset.toInt) % 2 ^ 64) ∧
  (∀ (x : Indexed) (s : State), x.base.toNat ≥ 10 →
    resolve (.indexed x) s = .error ⟨.invalidRegister, x.base.setWidth 64⟩ ∧
    resolve (.indexedBare x) s = .error ⟨.invalidRegister, x.base.setWidth 64⟩) ∧
  (∀ (x : Indexed) (sign reg : Byte) (s : State), x.base.toNat < 10 → x.second = .illegal sign reg →
    resolve (.indexed x) s = .error ⟨.invalidOperandType, 0x1A⟩ ∧
    resolve (.indexedBare x) s = .error ⟨.invalidOperandType, 0x16⟩) ∧
  (∀ (x : Indexed) (reg : Byte) (s : State), x.base.toNat < 10 → reg.toNat ≥ 10 →
    x.second = .add reg ∨ x.second = .sub reg →
      resolve (.indexed x) s = .error ⟨.invalidRegister, reg.setWidth 64⟩ ∧
      resolve (.indexedBare x) s = .error ⟨.invalidRegister, reg.setWidth 64⟩)

/-- R150: `ReadLoc` returns an unsigned number below 2^(8n): the low bytes of a register or of an immediate, or the `n` bytes
at an arena offset spelled little-endian, which raise `MemoryFault` when they are out of bounds. -/
def Obligations.ReadLocReadsLowBytes : Prop :=
  (∀ (l : Loc) (n : Size) (s : State), s.valueAt l n < 2 ^ (8 * n.bytes)) ∧
  (∀ (r : Reg) (n : Size) (s : State), readLoc (.reg r) n s = .ok ((s.readReg r).toNat % 2 ^ (8 * n.bytes))) ∧
  (∀ (v : Word) (n : Size) (s : State), readLoc (.imm v) n s = .ok (v.toNat % 2 ^ (8 * n.bytes))) ∧
  (∀ (a : Word) (n : Size) (s : State),
    (a.toNat + n.bytes ≤ s.arenaSize →
      readLoc (.mem a) n s = .ok (∑ j ∈ Finset.range n.bytes, (s.readByte (a.toNat + j)).toNat * 256 ^ j)) ∧
    (¬ a.toNat + n.bytes ≤ s.arenaSize → readLoc (.mem a) n s = .error ⟨.memoryFault, a⟩))

/-- R151: `WriteLoc` replaces the low `n` bytes held at a register or memory location with the low `n` bytes of the value and
changes nothing else; a memory location out of bounds raises `MemoryFault`. -/
def Obligations.WriteLocReplacesLowBytes : Prop :=
  ∀ (l : Loc) (n : Size) (v : Nat) (s : State), (∀ x, l ≠ .imm x) →
    (l.accessible n s = true →
      ∃ t, writeLoc l n v s = .ok t ∧ Written s t l n (v % 2 ^ (8 * n.bytes))) ∧
    (∀ a, l = .mem a → ¬ a.toNat + n.bytes ≤ s.arenaSize → writeLoc l n v s = .error ⟨.memoryFault, a⟩)

/-! ### Memory -/

/-- R57, R59: `MemRead` of `k` bytes at `addr` is in bounds exactly when `addr <= ARENA_SIZE - k`; then it returns the number
those bytes spell little-endian, otherwise it raises `MemoryFault(addr)`. The arena size is a legal one (R31). -/
def Obligations.MemReadChecksBoundsAndIsLittleEndian : Prop :=
  ∀ (s : State) (addr : Word) (k : Nat), legalArenaSize s.arenaSize = true → k ∈ [1, 2, 4, 8] →
    (addr.toNat ≤ s.arenaSize - k →
      memRead addr k s = .ok (∑ j ∈ Finset.range k, (s.readByte (addr.toNat + j)).toNat * 256 ^ j)) ∧
    (¬ addr.toNat ≤ s.arenaSize - k → memRead addr k s = .error ⟨.memoryFault, addr⟩)

/-- R58: `MemWrite` in bounds sets the byte at `addr + j` to byte `j` of `v` for each `j` below `k` and changes no other byte
and nothing else; out of bounds it raises `MemoryFault(addr)`. -/
def Obligations.MemWriteSetsItsBytesOnly : Prop :=
  ∀ (s : State) (addr : Word) (k : Nat) (v : Word), legalArenaSize s.arenaSize = true → k ∈ [1, 2, 4, 8] →
    (addr.toNat ≤ s.arenaSize - k →
      ∃ t, memWrite addr k v.toNat s = .ok t ∧
        (∀ j, j < k → t.readByte (addr.toNat + j) = wordByte v j) ∧
        (∀ a, Outside a addr k → t.readByte a = s.readByte a) ∧
        SameRegsBut s t [] ∧ SameSystem s t) ∧
    (¬ addr.toNat ≤ s.arenaSize - k → memWrite addr k v.toNat s = .error ⟨.memoryFault, addr⟩)

/-- R52: a mixed-width access sees the same bytes: after an 8-byte write of `v`, a read of `k` bytes at `j` bytes past it
returns the `k` bytes of `v` from byte `j` on. -/
def Obligations.MixedWidthAccessesAgree : Prop :=
  ∀ (s t : State) (addr : Word) (v : Word) (j k : Nat), j + k ≤ 8 → k ∈ [1, 2, 4, 8] → s.arenaSize < 2 ^ 64 →
    memWrite addr 8 v.toNat s = .ok t →
      memRead (addr + BitVec.ofNat 64 j) k t = .ok (v.toNat / 256 ^ j % 256 ^ k)

/-- The model's own representation (log entry 3): two arena contents in canonical form that read the same at every offset are
equal data. -/
def Obligations.CanonicalMemoryIsUnique : Prop :=
  ∀ m m' : Memory, m.wf = true → m'.wf = true → (∀ a, m.readByte a = m'.readByte a) → m = m'

/-! ### The step and the fetch -/

/-- R141, R142, R153: when the bytes at `RIP` of a running machine decode to an instruction, the step is that instruction
executed on that state. -/
def Obligations.StepRunsTheDecodedInstruction : Prop :=
  ∀ (s : State) (i : Instr) (rest : List Byte), s.status = .running → decode (fetchWindow s) = .ok (i, rest) →
    step s = exec i s

/-- R64, R141, R142: the record is read from the arena as it is now. When the arena holds the record of a representable
instruction at `RIP`, wherever it lies and however it came there, the step executes that instruction. -/
def Obligations.StepRunsTheRecordAtRip : Prop :=
  ∀ (s : State) (i : Instr), s.status = .running → WellFormed i →
    (s.readReg .rip).toNat + (encode i).length ≤ s.arenaSize →
    (∀ k, k < (encode i).length → s.readByte ((s.readReg .rip).toNat + k) = (encode i).getD k 0) →
      step s = exec i s

/-- R96, R241: an opcode byte of `0x16` to `0xFF` raises `DecodeError` with that byte, whatever follows it. -/
def Obligations.IllegalOpcodeRaisesDecodeError : Prop :=
  ∀ s : State, s.status = .running → (s.readReg .rip).toNat + 8 ≤ s.arenaSize →
    0x16 ≤ (s.readByte (s.readReg .rip).toNat).toNat →
      TakesFault (step s) s .decodeError ((s.readByte (s.readReg .rip).toNat).setWidth 64)

/-- R97: for every opcode, a size byte other than 1, 2, 4 and 8 raises `InvalidSize` with that byte, when the whole record is in
bounds. -/
def Obligations.IllegalSizeRaisesInvalidSize : Prop :=
  ∀ (s : State) (i : Instr), s.status = .running →
    (s.readReg .rip).toNat + recordLength i.arity ≤ s.arenaSize →
    s.readByte (s.readReg .rip).toNat = opcodeByte i →
    (s.readByte ((s.readReg .rip).toNat + 1)).toNat ∉ [1, 2, 4, 8] →
      TakesFault (step s) s .invalidSize ((s.readByte ((s.readReg .rip).toNat + 1)).setWidth 64)

/-- R98, R142: with a legal size, an illegal tag of slot 0, or a legal one there and an illegal tag of slot 1, raises
`InvalidOperandType` with that tag, for every opcode that has the slot. -/
def Obligations.IllegalTagRaisesInvalidOperandType : Prop :=
  ∀ (s : State) (i : Instr) (t0 t1 : Byte), s.status = .running →
    (s.readReg .rip).toNat + recordLength i.arity ≤ s.arenaSize →
    s.readByte (s.readReg .rip).toNat = opcodeByte i →
    (s.readByte ((s.readReg .rip).toNat + 1)).toNat ∈ [1, 2, 4, 8] →
    s.readByte ((s.readReg .rip).toNat + 2) = t0 → s.readByte ((s.readReg .rip).toNat + 3) = t1 →
      (1 ≤ i.arity → t0 ∉ [(0x05 : Byte), 0x09, 0x06, 0x0A, 0x1A, 0x16] →
        TakesFault (step s) s .invalidOperandType (t0.setWidth 64)) ∧
      (i.arity = 2 → t0 ∈ [(0x05 : Byte), 0x09, 0x06, 0x0A, 0x1A, 0x16] →
        t1 ∉ [(0x05 : Byte), 0x09, 0x06, 0x0A, 0x1A, 0x16] →
        TakesFault (step s) s .invalidOperandType (t1.setWidth 64))

/-- R141, R142: a record header that does not fit in the arena raises `MemoryFault(RIP)`; with a legal opcode in a header that
fits, a payload that does not fit raises `MemoryFault` with the payload's offset, whatever the size and the tags are. -/
def Obligations.TruncatedRecordRaisesMemoryFault : Prop :=
  ∀ (s : State) (a : Word), s.status = .running → s.readReg .rip = a →
    (¬ a.toNat + 8 ≤ s.arenaSize → TakesFault (step s) s .memoryFault a) ∧
    (∀ i : Instr, s.readByte a.toNat = opcodeByte i → a.toNat + 8 ≤ s.arenaSize →
      (1 ≤ i.arity → ¬ a.toNat + 16 ≤ s.arenaSize → TakesFault (step s) s .memoryFault (a + 8)) ∧
      (i.arity = 2 → a.toNat + 16 ≤ s.arenaSize → ¬ a.toNat + 24 ≤ s.arenaSize →
        TakesFault (step s) s .memoryFault (a + 16)))

/-! ### Faults of the operands and of the handlers -/

/-- R144, R155, R246: slot 0 is resolved first, in the state after the advance: a fault of its resolution is the instruction's
fault; when slot 0 resolves, and is no immediate that the opcode writes, a fault of slot 1's resolution is. -/
def Obligations.SlotFaultsAreTakenInOrder : Prop :=
  ∀ (i : Instr) (s : State) (o0 o1 : Operand) (l : Loc) (r : Raise),
    (i.operands.head? = some o0 → resolve o0 (advanced i s) = .error r →
      TakesFault (exec i s) s r.cause r.info) ∧
    (i.operands = [o0, o1] → resolve o0 (advanced i s) = .ok l →
      (∀ v, writtenOperand i = some o0 → l ≠ .imm v) → resolve o1 (advanced i s) = .error r →
      TakesFault (exec i s) s r.cause r.info)

/-- R249: an immediate in slot 0 of the nine opcodes that write it raises `WriteToImmediate(0)`, before slot 1 is looked at. -/
def Obligations.WritingAnImmediateFaults : Prop :=
  ∀ (n : Size) (v : Word) (src : Operand) (s : State),
    TakesFault (exec (.mov n (.imm v) src) s) s .writeToImmediate 0 ∧
    TakesFault (exec (.pop n (.imm v)) s) s .writeToImmediate 0 ∧
    TakesFault (exec (.add n (.imm v) src) s) s .writeToImmediate 0 ∧
    TakesFault (exec (.sub n (.imm v) src) s) s .writeToImmediate 0 ∧
    TakesFault (exec (.mul n (.imm v) src) s) s .writeToImmediate 0 ∧
    TakesFault (exec (.div n (.imm v) src) s) s .writeToImmediate 0 ∧
    TakesFault (exec (.mod n (.imm v) src) s) s .writeToImmediate 0 ∧
    TakesFault (exec (.inc n (.imm v)) s) s .writeToImmediate 0 ∧
    TakesFault (exec (.dec n (.imm v)) s) s .writeToImmediate 0

/-- R248: `div` and `mod` raise `ArithmeticFault(0)` when the low `n` bytes of the divisor are zero, after both operands have
been read and before the destination is written: an operand that cannot be read raises `MemoryFault` first. -/
def Obligations.DivisionByZeroFaults : Prop :=
  ∀ (n : Size) (d src : Operand) (s : State) (l m : Loc),
    resolve d (advance 24 s) = .ok l → (∀ v, l ≠ .imm v) → resolve src (advance 24 s) = .ok m →
      (l.accessible n s = true → m.accessible n s = true → (advance 24 s).valueAt m n = 0 →
        TakesFault (exec (.div n d src) s) s .arithmeticFault 0 ∧
        TakesFault (exec (.mod n d src) s) s .arithmeticFault 0) ∧
      (¬ (l.accessible n s = true ∧ m.accessible n s = true) →
        ∃ a, TakesFault (exec (.div n d src) s) s .memoryFault a ∧ TakesFault (exec (.mod n d src) s) s .memoryFault a)

/-- R245 with R180, R192, R210 to R217, R230: a memory operand out of bounds raises `MemoryFault` with its address, in the
order in which the handler reads: for `mov` the source before the destination, for the arithmetic instructions and `cmp`
slot 0 before slot 1. -/
def Obligations.MemoryOperandsOutOfBoundsFault : Prop :=
  (∀ (n : Size) (d src : Operand) (s : State) (l m : Loc) (a : Word),
    resolve d (advance 24 s) = .ok l → (∀ v, l ≠ .imm v) → resolve src (advance 24 s) = .ok m →
      (m = .mem a → s.inBounds a n.bytes = false → TakesFault (exec (.mov n d src) s) s .memoryFault a) ∧
      (m.accessible n s = true → l = .mem a → s.inBounds a n.bytes = false →
        TakesFault (exec (.mov n d src) s) s .memoryFault a)) ∧
  (∀ (mk : Size → Operand → Operand → Instr) (n : Size) (d src : Operand) (s : State) (l m : Loc) (a : Word),
    mk ∈ [Instr.add, Instr.sub, Instr.mul, Instr.div, Instr.mod, Instr.cmp] →
    resolve d (advance 24 s) = .ok l → (mk ≠ Instr.cmp → ∀ v, l ≠ .imm v) → resolve src (advance 24 s) = .ok m →
      (l = .mem a → s.inBounds a n.bytes = false → TakesFault (exec (mk n d src) s) s .memoryFault a) ∧
      (l.accessible n s = true → m = .mem a → s.inBounds a n.bytes = false →
        TakesFault (exec (mk n d src) s) s .memoryFault a)) ∧
  (∀ (mk : Size → Operand → Instr) (n : Size) (o : Operand) (s : State) (a : Word),
    mk ∈ [Instr.inc, Instr.dec, Instr.print, Instr.jmp] →
    resolve o (advance 16 s) = .ok (.mem a) → s.inBounds a n.bytes = false →
      TakesFault (exec (mk n o) s) s .memoryFault a)

/-- R181, R182, R190, R191: the faults of the stack instructions, in the order of their lines: `push` reads its source, then
stores below `RSP`; `pop` loads at `RSP`, then writes its destination; `call` stores the return address, then reads its
target; `ret` loads at `RSP`. -/
def Obligations.StackInstructionsFaultInOrder : Prop :=
  ∀ (n : Size) (o : Operand) (s : State) (l : Loc) (a : Word), resolve o (advance 16 s) = .ok l →
    (l = .mem a → s.inBounds a n.bytes = false → TakesFault (exec (.push n o) s) s .memoryFault a) ∧
    (l.accessible n s = true → a = s.readReg .rsp - BitVec.ofNat 64 n.bytes → s.inBounds a n.bytes = false →
      TakesFault (exec (.push n o) s) s .memoryFault a) ∧
    ((∀ v, l ≠ .imm v) → a = s.readReg .rsp → s.inBounds a n.bytes = false →
      TakesFault (exec (.pop n o) s) s .memoryFault a) ∧
    (l = .mem a → s.inBounds (s.readReg .rsp) n.bytes = true → s.inBounds a n.bytes = false →
      TakesFault (exec (.pop n o) s) s .memoryFault a) ∧
    (a = s.readReg .rsp - 8 → s.inBounds a 8 = false → TakesFault (exec (.call n o) s) s .memoryFault a) ∧
    (l = .mem a → s.inBounds (s.readReg .rsp - 8) 8 = true → s.inBounds a n.bytes = false →
      TakesFault (exec (.call n o) s) s .memoryFault a) ∧
    (a = s.readReg .rsp → s.inBounds a 8 = false → TakesFault (exec (.ret n) s) s .memoryFault a)

/-! ### Results: each instruction completes, with its value and its frame -/

/-- R180: `mov` copies the low `n` bytes of the source to the destination and changes nothing else but `RIP`. -/
def Obligations.MovCopiesItsSource : Prop :=
  ∀ (n : Size) (d src : Operand) (s : State) (l m : Loc),
    resolve d (advance 24 s) = .ok l → (∀ v, l ≠ .imm v) → resolve src (advance 24 s) = .ok m →
    l.accessible n s = true → m.accessible n s = true →
      ∃ t, exec (.mov n d src) s = .next t ∧ Written (advance 24 s) t l n ((advance 24 s).valueAt m n)

/-- R181: `push` decrements `RSP` by the operand size, reads the source after that, and stores its low `n` bytes at the new
`RSP`; nothing else changes but `RIP`. -/
def Obligations.PushStoresBelowTheStackPointer : Prop :=
  ∀ (n : Size) (o : Operand) (s u : State) (l : Loc) (sp : Word),
    resolve o (advance 16 s) = .ok l → l.accessible n s = true →
    sp = s.readReg .rsp - BitVec.ofNat 64 n.bytes → s.inBounds sp n.bytes = true →
    OnlyReg (advance 16 s) u .rsp sp →
      ∃ t, exec (.push n o) s = .next t ∧ Written u t (.mem sp) n (u.valueAt l n)

/-- R182: `pop` writes the `n` bytes at `RSP` to the destination, and then adds the operand size to `RSP`, so `pop rsp` ends with
the loaded value plus `n`; nothing else changes but `RIP`. -/
def Obligations.PopLoadsThenMovesTheStackPointer : Prop :=
  ∀ (n : Size) (o : Operand) (s : State) (l : Loc),
    resolve o (advance 16 s) = .ok l → (∀ v, l ≠ .imm v) → l.accessible n s = true →
    s.inBounds (s.readReg .rsp) n.bytes = true →
      ∃ u t, exec (.pop n o) s = .next t ∧
        Written (advance 16 s) u l n (s.load (s.readReg .rsp) n.bytes) ∧
        OnlyReg u t .rsp (u.readReg .rsp + BitVec.ofNat 64 n.bytes)

/-- R190: `call` pushes the 8-byte offset of the instruction after it, then reads its target and sets `RIP` to it plus 16;
nothing else changes. -/
def Obligations.CallPushesReturnAddressAndJumps : Prop :=
  ∀ (n : Size) (o : Operand) (s u : State) (l : Loc) (sp : Word),
    resolve o (advance 16 s) = .ok l → l.accessible n s = true →
    sp = s.readReg .rsp - 8 → s.inBounds sp 8 = true → OnlyReg (advance 16 s) u .rsp sp →
      ∃ w t, exec (.call n o) s = .next t ∧
        Written u w (.mem sp) .b8 (s.readReg .rip + 16).toNat ∧
        OnlyReg w t .rip (BitVec.ofNat 64 (w.valueAt l n) + 16)

/-- R191: `ret` sets `RIP` to the number that the 8 bytes at `RSP` spell little-endian, with nothing added, and adds 8 to `RSP`,
whatever the size; nothing else changes. -/
def Obligations.RetPopsTheReturnAddress : Prop :=
  ∀ (n : Size) (s : State), s.inBounds (s.readReg .rsp) 8 = true →
    ∃ t, exec (.ret n) s = .next t ∧
      (t.readReg .rip).toNat = ∑ j ∈ Finset.range 8, (s.readByte ((s.readReg .rsp).toNat + j)).toNat * 256 ^ j ∧
      t.readReg .rsp = s.readReg .rsp + 8 ∧ OnlyRegs s t [.rip, .rsp]

/-- R192: `jmp` sets `RIP` to its target plus 16, modulo 2^64; nothing else changes. -/
def Obligations.JmpGoesToTargetPlusHeader : Prop :=
  ∀ (n : Size) (o : Operand) (s : State) (l : Loc),
    resolve o (advance 16 s) = .ok l → l.accessible n s = true →
      ∃ t, exec (.jmp n o) s = .next t ∧
        OnlyReg (advance 16 s) t .rip (BitVec.ofNat 64 ((advance 16 s).valueAt l n) + 16)

/-- R193 to R198: the conditional jumps test `RFLAG` as a signed number against zero; a taken one goes to its target plus
16, or raises `MemoryFault` when the target is out of bounds; an untaken one does not read its target. -/
def Obligations.ConditionalJumpsTestSignedRflag : Prop :=
  JumpsWhen .je (fun f => f = 0) ∧ JumpsWhen .jne (fun f => f ≠ 0) ∧ JumpsWhen .jl (fun f => f < 0) ∧
    JumpsWhen .jle (fun f => f ≤ 0) ∧ JumpsWhen .jg (fun f => f > 0) ∧ JumpsWhen .jge (fun f => f ≥ 0)

/-- R210: `add` writes the sum modulo 2^(8n) to the destination; nothing else changes but `RIP`, not even `RFLAG`. -/
def Obligations.AddWritesTheSum : Prop :=
  ∀ (n : Size) (d src : Operand) (s : State) (l m : Loc),
    resolve d (advance 24 s) = .ok l → (∀ v, l ≠ .imm v) → resolve src (advance 24 s) = .ok m →
    l.accessible n s = true → m.accessible n s = true →
      ∃ t, exec (.add n d src) s = .next t ∧
        Written (advance 24 s) t l n
          (((advance 24 s).valueAt l n + (advance 24 s).valueAt m n) % 2 ^ (8 * n.bytes))

/-- R211: `sub` writes the difference modulo 2^(8n) to the destination; nothing else changes but `RIP`. -/
def Obligations.SubWritesTheDifference : Prop :=
  ∀ (n : Size) (d src : Operand) (s : State) (l m : Loc),
    resolve d (advance 24 s) = .ok l → (∀ v, l ≠ .imm v) → resolve src (advance 24 s) = .ok m →
    l.accessible n s = true → m.accessible n s = true →
      ∃ t v, exec (.sub n d src) s = .next t ∧ Written (advance 24 s) t l n v ∧
        (v : Int) = (((advance 24 s).valueAt l n : Int) - (advance 24 s).valueAt m n) % 2 ^ (8 * n.bytes)

/-- R212: `mul` writes the low half of the product to the destination; nothing else changes but `RIP`. -/
def Obligations.MulWritesTheLowProduct : Prop :=
  ∀ (n : Size) (d src : Operand) (s : State) (l m : Loc),
    resolve d (advance 24 s) = .ok l → (∀ v, l ≠ .imm v) → resolve src (advance 24 s) = .ok m →
    l.accessible n s = true → m.accessible n s = true →
      ∃ t, exec (.mul n d src) s = .next t ∧
        Written (advance 24 s) t l n
          (((advance 24 s).valueAt l n * (advance 24 s).valueAt m n) % 2 ^ (8 * n.bytes))

/-- R213, R214, under the parameter `DIV_SIGNED = false` (U10, which is the field `config.quotient`): for a divisor whose low `n`
bytes are not zero, `div` writes the unsigned quotient and `mod` the unsigned remainder of the same operands:
`a = b * q + r` with `r < b`; nothing else changes but `RIP`. That they are unsigned is the spec's own decision D17, on low
evidence (log entry 6). -/
def Obligations.DivAndModWriteQuotientAndRemainder : Prop :=
  ∀ (n : Size) (d src : Operand) (s : State) (l m : Loc),
    resolve d (advance 24 s) = .ok l → (∀ v, l ≠ .imm v) → resolve src (advance 24 s) = .ok m →
    l.accessible n s = true → m.accessible n s = true → (advance 24 s).valueAt m n ≠ 0 →
      ∃ t u q r, exec (.div n d src) s = .next t ∧ Written (advance 24 s) t l n q ∧
        exec (.mod n d src) s = .next u ∧ Written (advance 24 s) u l n r ∧
        (advance 24 s).valueAt l n = (advance 24 s).valueAt m n * q + r ∧ r < (advance 24 s).valueAt m n

/-- R215, R216: `inc` adds 1 and `dec` subtracts 1 modulo 2^(8n) in the destination; nothing else changes but `RIP`. -/
def Obligations.IncAndDecStepByOne : Prop :=
  ∀ (n : Size) (o : Operand) (s : State) (l : Loc),
    resolve o (advance 16 s) = .ok l → (∀ v, l ≠ .imm v) → l.accessible n s = true →
      ∃ t u v w, exec (.inc n o) s = .next t ∧ Written (advance 16 s) t l n v ∧
        exec (.dec n o) s = .next u ∧ Written (advance 16 s) u l n w ∧
        (v : Int) = (((advance 16 s).valueAt l n : Int) + 1) % 2 ^ (8 * n.bytes) ∧
        (w : Int) = (((advance 16 s).valueAt l n : Int) - 1) % 2 ^ (8 * n.bytes)

/-- R217: `cmp` writes to all 64 bits of `RFLAG` the difference of its operands read as signed `n`-byte numbers, modulo 2^64;
neither operand is written and nothing else changes but `RIP`. -/
def Obligations.CmpWritesTheSignedDifference : Prop :=
  ∀ (n : Size) (a b : Operand) (s : State) (l m : Loc),
    resolve a (advance 24 s) = .ok l → resolve b (advance 24 s) = .ok m →
    l.accessible n s = true → m.accessible n s = true →
      ∃ t f, exec (.cmp n a b) s = .next t ∧ OnlyReg (advance 24 s) t .rflag f ∧
        f.toInt =
          (signedValue n ((advance 24 s).valueAt l n) - signedValue n ((advance 24 s).valueAt m n)).bmod (2 ^ 64)

/-- R230: `print` appends the zero-extended unsigned value to the output stream and changes no register but `RIP`, no byte and
nothing else. -/
def Obligations.PrintAppendsTheValue : Prop :=
  ∀ (n : Size) (o : Operand) (s : State) (l : Loc),
    resolve o (advance 16 s) = .ok l → l.accessible n s = true →
      ∃ t v, exec (.print n o) s = .next t ∧ t.output = s.output ++ [v] ∧
        v.toNat = (advance 16 s).valueAt l n ∧ v.toNat < 2 ^ (8 * n.bytes) ∧
        SameRegsBut (advance 16 s) t [] ∧ SameBytes s t ∧ t.arenaSize = s.arenaSize ∧ t.status = s.status ∧
        t.faultCause = s.faultCause ∧ t.faultInfo = s.faultInfo

/-- R231: `exit` is opcode `0x03` in an 8-byte record; it halts with `RIP` past its record, no other state changes, and there
is no step after it. -/
def Obligations.ExitHalts : Prop :=
  ∀ (n : Size) (s : State),
    encode (.exit n) = [0x03, BitVec.ofNat 8 n.bytes, 0, 0, 0, 0, 0, 0] ∧
    ∃ t, exec (.exit n) s = .next t ∧ t.status = .halted ∧ t.readReg .rip = s.readReg .rip + 8 ∧
      SameRegsBut s t [.rip] ∧ SameBytes s t ∧ t.arenaSize = s.arenaSize ∧ t.faultCause = s.faultCause ∧
      t.faultInfo = s.faultInfo ∧ t.output = s.output ∧ ∀ u, step t ≠ .next u

/-! ### Frames and rules of the whole machine -/

/-- R22, R25, R26, R27, R146: a register other than `RIP` changes only when the instruction names it as the destination it
writes, or it is `RSP` and the instruction is `push`, `pop`, `call` or `ret`, or it is `RFLAG` and the instruction is
`cmp`. All 22 instructions, every state. -/
def Obligations.RegistersChangeOnlyWhenNamed : Prop :=
  ∀ (i : Instr) (s t : State) (r : Reg), exec i s = .next t → r ≠ .rip → ¬ namesDestination i r →
    (r = .rsp → movesStackPointer i = false) → (r = .rflag → isCmp i = false) →
      t.readReg r = s.readReg r

/-- R55, R58, R151, R181, R190: every byte of the arena outside the span the instruction stores to is unchanged; an
instruction that stores nothing changes no byte. All 22 instructions, every state. -/
def Obligations.BytesChangeOnlyInTheStoredSpan : Prop :=
  ∀ (i : Instr) (s t : State) (a : Nat), exec i s = .next t →
    (∀ addr k, storedSpan i s = some (addr, k) → Outside a addr k) → t.readByte a = s.readByte a

/-- R143: an instruction that transfers no control and does not name `RIP` as its destination ends, when it takes no fault, with
`RIP` past its record. -/
def Obligations.RipAdvancesByTheRecordLength : Prop :=
  ∀ (i : Instr) (s t : State), s.status ≠ .faulted → exec i s = .next t → t.status ≠ .faulted →
    transfersControl i = false → ¬ namesDestination i .rip →
      t.readReg .rip = s.readReg .rip + BitVec.ofNat 64 (8 + 8 * i.arity)

/-- R29, R31, R32, R154: no instruction changes the size of the arena; every instruction but `exit` leaves a running machine
running or faulted, and only `exit` halts it; the output stream only grows, by at most one value, and only by `print`. -/
def Obligations.OnlyExitHaltsAndOnlyPrintEmits : Prop :=
  ∀ (i : Instr) (s t : State), s.status = .running → exec i s = .next t →
    t.arenaSize = s.arenaSize ∧
    (t.status = .halted ↔ ∃ n, i = .exit n) ∧
    (t.output = s.output ∨ (∃ n o, i = .print n o) ∧ ∃ v, t.output = s.output ++ [v])

/-- R247: faults are precise. When a step of a running machine ends faulted, every register, `RIP` included, every byte of the
arena and the output are those before the step. -/
def Obligations.FaultsArePrecise : Prop :=
  ∀ s t : State, s.status = .running → step s = .next t → t.status = .faulted →
    FaultedFrom s t t.faultCause t.faultInfo

/-- R158: a machine that has halted or faulted has no step, and a running machine has one: every step of it answers a next
state, whatever its registers and its arena hold. -/
def Obligations.ExactlyRunningMachinesStep : Prop :=
  ∀ s : State, (∃ t, step s = .next t) ↔ s.status = .running

/-- Every step keeps the invariant: a legal arena size (R31) that does not change, the arena's content in canonical form (log
entry 3), and no byte listed outside the arena (R59). -/
def Obligations.StepKeepsTheInvariant : Prop :=
  ∀ s t : State, s.Inv → step s = .next t → t.Inv ∧ t.arenaSize = s.arenaSize

/-- The invariant holds after reset: in the model's reset state (whose open values are choices, log entries 1 to 4), and after
the load of any image into any arena content that is in canonical form and lists no byte outside an arena of a legal size. -/
def Obligations.ResetEstablishesTheInvariant : Prop :=
  State.reset.Inv ∧
  ∀ (size : Nat) (any : Unspecified) (image : List Byte) (s : State), legalArenaSize size = true →
    any.arena.wf = true → (∀ c ∈ any.arena, c.1 < size) → resetWith size any image = .ok s → s.Inv

/-! ### Reset -/

/-- R270, R273: a load that is not refused leaves `R0` to `R5` and `RFLAG` at 0, `RIP` at `16 + entry`, `RSP` at the arena's size,
`RMEM` at the first multiple of 8 not below `16 + code_len`, the code section in the arena from offset 16 on and every
other byte as it was, an empty output and a running machine. -/
def Obligations.ResetLoadsTheImage : Prop :=
  ∀ (size : Nat) (any : Unspecified) (image : List Byte) (s : State), resetWith size any image = .ok s →
    (∀ r, r ∈ [Reg.r0, Reg.r1, Reg.r2, Reg.r3, Reg.r4, Reg.r5, Reg.rflag] → s.readReg r = 0) ∧
    s.readReg .rip = 16 + BitVec.ofNat 64 (leNat ((image.drop 8).take 8)) ∧
    s.readReg .rsp = BitVec.ofNat 64 size ∧
    (∃ m, s.readReg .rmem = BitVec.ofNat 64 m ∧ m % 8 = 0 ∧ 16 + leNat (image.take 8) ≤ m ∧
      m < 16 + leNat (image.take 8) + 8) ∧
    (∀ k, k < leNat (image.take 8) → s.readByte (16 + k) = image.getD (16 + k) 0) ∧
    (∀ a, a < 16 ∨ 16 + leNat (image.take 8) ≤ a → s.readByte a = any.arena.readByte a) ∧
    s.arenaSize = size ∧ s.status = .running ∧ s.output = []

/-- R271: a load is refused exactly when the image is shorter than 16 bytes, or shorter than `16 + code_len` bytes, or
`16 + code_len` exceeds the arena's size; image bytes after `16 + code_len` are ignored, and `code_len = 0` is accepted. -/
def Obligations.LoadIsRefusedExactlyWhenItCannotFit : Prop :=
  (∀ (size : Nat) (any : Unspecified) (image : List Byte),
    (∃ e, resetWith size any image = .error e) ↔
      image.length < 16 ∨ image.length < 16 + leNat (image.take 8) ∨ size < 16 + leNat (image.take 8)) ∧
  (∀ (size : Nat) (any : Unspecified) (image extra : List Byte) (s : State),
    resetWith size any image = .ok s → resetWith size any (image ++ extra) = .ok s) ∧
  (∀ (size : Nat) (any : Unspecified) (image : List Byte), legalArenaSize size = true → 16 ≤ image.length →
    leNat (image.take 8) = 0 → ∃ s, resetWith size any image = .ok s)

/-! ### Properties over several instructions -/

/-- R182: a `push` of a general register followed immediately by a `pop` of the same size into another one yields equal low `n`
bytes and restores `RSP`; the other registers keep their values. -/
def Obligations.PushThenPopRestores : Prop :=
  ∀ (n : Size) (i j : Word) (r q : Reg) (s t u : State), i.toNat < 6 → j.toNat < 6 →
    regOfNumber i.toNat = some r → regOfNumber j.toNat = some q →
    s.status = .running → exec (.push n (.reg i)) s = .next t → t.status = .running →
      exec (.pop n (.reg j)) t = .next u → u.status = .running →
      u.valueAt (.reg q) n = s.valueAt (.reg r) n ∧ SameRegsBut s u [q, .rip]

/-- R190, R191: a `call` that completes followed by a `ret` with no store between them comes back to the instruction after the
call with `RSP` restored. -/
def Obligations.CallThenRetComesBack : Prop :=
  ∀ (n m : Size) (o : Operand) (s t : State), s.status = .running →
    exec (.call n o) s = .next t → t.status = .running →
      ∃ u, exec (.ret m) t = .next u ∧ u.readReg .rip = s.readReg .rip + 16 ∧ SameRegsBut s u [.rip]

/-- R199, R217: for sizes 1, 2 and 4 the sign of `RFLAG` after `cmp` is the true signed order of the operands; for every size
`RFLAG` is zero exactly when the operands are equal. -/
def Obligations.CmpOrdersSignedOperands : Prop :=
  ∀ (n : Size) (a b : Operand) (s t : State) (l m : Loc),
    resolve a (advance 24 s) = .ok l → resolve b (advance 24 s) = .ok m →
    l.accessible n s = true → m.accessible n s = true → exec (.cmp n a b) s = .next t →
      ((t.readReg .rflag).toInt = 0 ↔ (advance 24 s).valueAt l n = (advance 24 s).valueAt m n) ∧
      (n ≠ .b8 →
        ((t.readReg .rflag).toInt < 0 ↔
          signedValue n ((advance 24 s).valueAt l n) < signedValue n ((advance 24 s).valueAt m n)) ∧
        ((t.readReg .rflag).toInt > 0 ↔
          signedValue n ((advance 24 s).valueAt l n) > signedValue n ((advance 24 s).valueAt m n)))

/-- R106, R124: every well-formed image, that is every image the assembler produces, has the form that R106 lists: the encoded
records of representable instructions of size 8 back to back, with every ignored bit 0 and no trailer, the entry point and
every jump operand at a record boundary (a boundary includes the end of the code, log entry 7). -/
def Obligations.AssembledImagesAreWellFormed : Prop :=
  ∀ image : List Byte, WellFormedImage image → image.length < 2 ^ 64 → wellFormedImage image = true
end

