-- ==== Sys2Proof/Laws/Codec.lean ====
section
/-! SUPPORT. What the tables of the configuration (00_scope.md R6) make of the codec: the byte order is little-endian, the
numbering of sizes, registers and opcodes loses nothing, and the words have the width `XLEN`. -/

namespace Sys2Proof

/-- `XLEN` is the width of a word (R6). -/
theorem word_lt (w : Word) : w.toNat < 2 ^ config.xlen := w.isLt

/-- Numbers are little-endian (R50). -/
@[simp] theorem natOfBytes_eq (bs : List Byte) : natOfBytes bs = leNat bs := rfl

/-- Numbers are little-endian (R50). -/
@[simp] theorem bytesOfNat_eq (k v : Nat) : bytesOfNat k v = leBytes k v := rfl

/-- The legal size bytes are the byte counts 1, 2, 4 and 8 (R83, R97). -/
theorem sizeOfByte_eq (b : Byte) :
    sizeOfByte b =
      if b = 1 then some .b1 else if b = 2 then some .b2 else if b = 4 then some .b4 else if b = 8 then some .b8 else none := by
  revert b; decide

@[simp] theorem sizeOfByte_byteOfSize (n : Size) : sizeOfByte (byteOfSize n) = some n := by cases n <;> rfl

/-- `XLEN` is 64 (R6). -/
@[simp] theorem xlen_eq : config.xlen = 64 := rfl

/-- `NREGS` is 10 (R6). -/
@[simp] theorem nregs_eq : config.nregs = 10 := rfl

/-- `NOPCODES` is 22 (R6). -/
@[simp] theorem nopcodes_eq : config.nopcodes = 22 := rfl

@[simp] theorem numberOfReg_lt (r : Reg) : numberOfReg r < 10 := by cases r <;> decide

/-- A number names a register exactly when it is that register's number (R21). -/
theorem regOfNumber_eq_some (i : Nat) (r : Reg) : regOfNumber i = some r ↔ numberOfReg r = i := by
  constructor
  · intro h
    simpa using List.find?_some h
  · rintro rfl
    cases r <;> rfl

@[simp] theorem regOfNumber_numberOfReg (r : Reg) : regOfNumber (numberOfReg r) = some r :=
  (regOfNumber_eq_some _ _).2 rfl

/-- Numbers 10 and above, and no others, name no register (R21). -/
theorem regOfNumber_eq_none (i : Nat) : regOfNumber i = none ↔ 10 ≤ i := by
  constructor
  · intro h
    by_contra hi
    have : ∀ j < 10, regOfNumber j ≠ none := by decide
    exact this i (by omega) h
  · intro h
    cases hr : regOfNumber i with
    | none => rfl
    | some r =>
      have := numberOfReg_lt r
      rw [(regOfNumber_eq_some i r).1 hr] at this
      omega

/-- The byte of an opcode selects that opcode's shape (R95). -/
@[simp] theorem shapeOf_opcodeByte (i : Instr) : shapeOf (opcodeByte i).toNat = some (shapeOfOpcode i.opcode) := by
  cases i <;> rfl

/-- What a byte selects is the shape of the opcode whose byte it is (R95). -/
theorem shapeOf_eq_some {b : Byte} {sh : Shape} (h : shapeOf b.toNat = some sh) :
    ∃ o, config.opcodeByte o = b ∧ shapeOfOpcode o = sh := by
  obtain ⟨o, ho, hs⟩ := Option.map_eq_some_iff.1 h
  exact ⟨o, BitVec.eq_of_toNat_eq (by simpa using List.find?_some ho), hs⟩

/-- The bytes `0x16` to `0xFF`, and no others, are no opcode (R96). -/
theorem shapeOf_eq_none (b : Byte) : shapeOf b.toNat = none ↔ 0x16 ≤ b.toNat := by
  have h : ∀ c : Byte, (shapeOf c.toNat).isNone = decide (0x16 ≤ c.toNat) := by decide
  simpa using congrArg (· = true) (h b)

/-- The six legal tags as bytes (R87). -/
theorem operandOf_eq (tag : Byte) (p : Word) :
    operandOf tag p =
      if tag = 0x05 then some (.imm p) else if tag = 0x09 then some (.abs p) else if tag = 0x06 then some (.reg p)
      else if tag = 0x0A then some (.regInd p) else if tag = 0x1A then some (.indexed (indexedOf p))
      else if tag = 0x16 then some (.indexedBare (indexedOf p)) else none := rfl

/-- The tag bytes of the six operand forms (R87). -/
theorem tagOf_eq (o : Operand) :
    tagOf o =
      match o with
      | .imm _ => 0x05
      | .abs _ => 0x09
      | .reg _ => 0x06
      | .regInd _ => 0x0A
      | .indexed _ => 0x1A
      | .indexedBare _ => 0x16 := by cases o <;> rfl

/-- The operand read back from its own tag and payload is the operand, but for the sub-record. -/
@[simp] theorem operandOf_tagOf (o : Operand) (p : Word) :
    operandOf (tagOf o) p =
      some (match o with
        | .imm _ => .imm p
        | .abs _ => .abs p
        | .reg _ => .reg p
        | .regInd _ => .regInd p
        | .indexed _ => .indexed (indexedOf p)
        | .indexedBare _ => .indexedBare (indexedOf p)) := by cases o <;> rfl

/-- The `sign2` bytes (R91). -/
theorem secondOf_eq (sign reg : Byte) :
    secondOf sign reg =
      if sign = 0 then .none else if sign = 1 then .add reg else if sign = 2 then .sub reg else .illegal sign reg := rfl

/-- The `sign2` byte of each second register (R91). -/
theorem signByte_eq (x : Second) :
    signByte x =
      match x with
      | .none => 0
      | .add _ => 1
      | .sub _ => 2
      | .illegal sign _ => sign := by cases x <;> rfl

/-- The sub-record of a payload, field by field (R91). -/
theorem indexedOf_eq (p : Word) :
    indexedOf p =
      ⟨wordByte p 0, wordByte p 1, secondOf (wordByte p 3) (wordByte p 2), BitVec.ofNat 32 (p.toNat / 256 ^ 4)⟩ := rfl

/-- The payload of a sub-record as a sum over its fields (R91). -/
theorem payloadOfIndexed_eq (x : Indexed) :
    payloadOfIndexed x =
      BitVec.ofNat 64 (x.base.toNat + 256 * x.mult.toNat + 256 ^ 2 * (reg2Byte x.second).toNat
        + 256 ^ 3 * (signByte x.second).toNat + 256 ^ 4 * x.offset.toNat) := by
  rw [payloadOfIndexed]
  simp [config]

end Sys2Proof
end

