-- ==== Sys2Proof/Laws/State.lean ====
section
/-! SUPPORT. The small lemmas of the state's operations: what each update leaves in each field. Later proofs rewrite with
these and never unfold a record update. -/

namespace Sys2Proof.Machine

/-! ### Registers (R8, R21) -/

@[simp] theorem readReg_writeReg_same (s : State) (r : Reg) (v : Word) : (s.writeReg r v).readReg r = v := by
  cases r <;> rfl

@[simp] theorem readReg_writeReg_ne (s : State) (r r' : Reg) (v : Word) (h : r' ≠ r) :
    (s.writeReg r v).readReg r' = s.readReg r' := by
  cases r <;> cases r' <;> first | rfl | exact absurd rfl h

theorem readReg_writeReg (s : State) (r r' : Reg) (v : Word) :
    (s.writeReg r v).readReg r' = if r' = r then v else s.readReg r' := by
  split
  · subst_vars; simp
  · simp [*]

@[simp] theorem arena_writeReg (s : State) (r : Reg) (v : Word) : (s.writeReg r v).arena = s.arena := by
  cases r <;> rfl
@[simp] theorem arenaSize_writeReg (s : State) (r : Reg) (v : Word) : (s.writeReg r v).arenaSize = s.arenaSize := by
  cases r <;> rfl
@[simp] theorem status_writeReg (s : State) (r : Reg) (v : Word) : (s.writeReg r v).status = s.status := by
  cases r <;> rfl
@[simp] theorem faultCause_writeReg (s : State) (r : Reg) (v : Word) : (s.writeReg r v).faultCause = s.faultCause := by
  cases r <;> rfl
@[simp] theorem faultInfo_writeReg (s : State) (r : Reg) (v : Word) : (s.writeReg r v).faultInfo = s.faultInfo := by
  cases r <;> rfl
@[simp] theorem output_writeReg (s : State) (r : Reg) (v : Word) : (s.writeReg r v).output = s.output := by
  cases r <;> rfl

/-- Registers are the whole register file: two states that agree on every register have the same file. -/
theorem regs_ext (s t : State) (h : ∀ r, t.readReg r = s.readReg r) : t.regs = s.regs := by
  have h0 := h .r0; have h1 := h .r1; have h2 := h .r2; have h3 := h .r3; have h4 := h .r4
  have h5 := h .r5; have h6 := h .rip; have h7 := h .rsp; have h8 := h .rflag; have h9 := h .rmem
  simp only [State.readReg] at *
  cases ht : t.regs; cases hs : s.regs
  simp_all

/-! ### Stores -/

@[simp] theorem regs_store (s : State) (a : Word) (k v : Nat) : (s.store a k v).regs = s.regs := rfl
@[simp] theorem readReg_store (s : State) (a : Word) (k v : Nat) (r : Reg) :
    (s.store a k v).readReg r = s.readReg r := by cases r <;> rfl
@[simp] theorem arenaSize_store (s : State) (a : Word) (k v : Nat) : (s.store a k v).arenaSize = s.arenaSize := rfl
@[simp] theorem status_store (s : State) (a : Word) (k v : Nat) : (s.store a k v).status = s.status := rfl
@[simp] theorem faultCause_store (s : State) (a : Word) (k v : Nat) : (s.store a k v).faultCause = s.faultCause := rfl
@[simp] theorem faultInfo_store (s : State) (a : Word) (k v : Nat) : (s.store a k v).faultInfo = s.faultInfo := rfl
@[simp] theorem output_store (s : State) (a : Word) (k v : Nat) : (s.store a k v).output = s.output := rfl
@[simp] theorem arena_store (s : State) (a : Word) (k v : Nat) :
    (s.store a k v).arena = s.arena.writeBytes a.toNat (bytesOfNat k v) := rfl

/-! ### Output, status, faults -/

@[simp] theorem readReg_emit (s : State) (v : Word) (r : Reg) : (s.emit v).readReg r = s.readReg r := by
  cases r <;> rfl
@[simp] theorem arena_emit (s : State) (v : Word) : (s.emit v).arena = s.arena := rfl
@[simp] theorem arenaSize_emit (s : State) (v : Word) : (s.emit v).arenaSize = s.arenaSize := rfl
@[simp] theorem status_emit (s : State) (v : Word) : (s.emit v).status = s.status := rfl
@[simp] theorem faultCause_emit (s : State) (v : Word) : (s.emit v).faultCause = s.faultCause := rfl
@[simp] theorem faultInfo_emit (s : State) (v : Word) : (s.emit v).faultInfo = s.faultInfo := rfl
@[simp] theorem output_emit (s : State) (v : Word) : (s.emit v).output = s.output ++ [v] := rfl

@[simp] theorem readReg_setStatus (s : State) (v : Status) (r : Reg) : (s.setStatus v).readReg r = s.readReg r := by
  cases r <;> rfl
@[simp] theorem arena_setStatus (s : State) (v : Status) : (s.setStatus v).arena = s.arena := rfl
@[simp] theorem arenaSize_setStatus (s : State) (v : Status) : (s.setStatus v).arenaSize = s.arenaSize := rfl
@[simp] theorem status_setStatus (s : State) (v : Status) : (s.setStatus v).status = v := rfl
@[simp] theorem faultCause_setStatus (s : State) (v : Status) : (s.setStatus v).faultCause = s.faultCause := rfl
@[simp] theorem faultInfo_setStatus (s : State) (v : Status) : (s.setStatus v).faultInfo = s.faultInfo := rfl
@[simp] theorem output_setStatus (s : State) (v : Status) : (s.setStatus v).output = s.output := rfl

@[simp] theorem regs_takeFault (r : Raise) (s : State) : (takeFault r s).regs = s.regs := rfl
@[simp] theorem readReg_takeFault (r : Raise) (s : State) (x : Reg) : (takeFault r s).readReg x = s.readReg x := by
  cases x <;> rfl
@[simp] theorem arena_takeFault (r : Raise) (s : State) : (takeFault r s).arena = s.arena := rfl
@[simp] theorem arenaSize_takeFault (r : Raise) (s : State) : (takeFault r s).arenaSize = s.arenaSize := rfl
@[simp] theorem status_takeFault (r : Raise) (s : State) : (takeFault r s).status = .faulted := rfl
@[simp] theorem faultCause_takeFault (r : Raise) (s : State) : (takeFault r s).faultCause = r.cause := rfl
@[simp] theorem faultInfo_takeFault (r : Raise) (s : State) : (takeFault r s).faultInfo = r.info := rfl
@[simp] theorem output_takeFault (r : Raise) (s : State) : (takeFault r s).output = s.output := rfl

/-! ### The advance (R143) -/

@[simp] theorem readReg_advance_rip (k : Nat) (s : State) :
    (advance k s).readReg .rip = s.readReg .rip + BitVec.ofNat 64 k := by simp [advance]
@[simp] theorem readReg_advance_ne (k : Nat) (s : State) (r : Reg) (h : r ≠ .rip) :
    (advance k s).readReg r = s.readReg r := by simp [advance, h]
@[simp] theorem arena_advance (k : Nat) (s : State) : (advance k s).arena = s.arena := by simp [advance]
@[simp] theorem arenaSize_advance (k : Nat) (s : State) : (advance k s).arenaSize = s.arenaSize := by simp [advance]
@[simp] theorem status_advance (k : Nat) (s : State) : (advance k s).status = s.status := by simp [advance]
@[simp] theorem faultCause_advance (k : Nat) (s : State) : (advance k s).faultCause = s.faultCause := by simp [advance]
@[simp] theorem faultInfo_advance (k : Nat) (s : State) : (advance k s).faultInfo = s.faultInfo := by simp [advance]
@[simp] theorem output_advance (k : Nat) (s : State) : (advance k s).output = s.output := by simp [advance]

/-! ### Values that depend on the arena or on its size alone -/

theorem readByte_congr (s t : State) (h : t.arena = s.arena) (a : Nat) : t.readByte a = s.readByte a := by
  simp [State.readByte, h]

theorem inBounds_congr (s t : State) (h : t.arenaSize = s.arenaSize) (a : Word) (k : Nat) :
    t.inBounds a k = s.inBounds a k := by simp [State.inBounds, h]

@[simp] theorem readByte_writeReg (s : State) (r : Reg) (v : Word) (a : Nat) :
    (s.writeReg r v).readByte a = s.readByte a := by simp [State.readByte]
@[simp] theorem readByte_emit (s : State) (v : Word) (a : Nat) : (s.emit v).readByte a = s.readByte a := rfl
@[simp] theorem readByte_setStatus (s : State) (v : Status) (a : Nat) : (s.setStatus v).readByte a = s.readByte a := rfl
@[simp] theorem readByte_takeFault (r : Raise) (s : State) (a : Nat) : (takeFault r s).readByte a = s.readByte a := rfl
@[simp] theorem readByte_advance (k : Nat) (s : State) (a : Nat) : (advance k s).readByte a = s.readByte a := by
  simp [State.readByte]

@[simp] theorem inBounds_writeReg (s : State) (r : Reg) (v : Word) (a : Word) (k : Nat) :
    (s.writeReg r v).inBounds a k = s.inBounds a k := by simp [State.inBounds]
@[simp] theorem inBounds_store (s : State) (a : Word) (k v : Nat) (b : Word) (j : Nat) :
    (s.store a k v).inBounds b j = s.inBounds b j := rfl
@[simp] theorem inBounds_advance (k : Nat) (s : State) (a : Word) (j : Nat) :
    (advance k s).inBounds a j = s.inBounds a j := by simp [State.inBounds]

@[simp] theorem load_writeReg (s : State) (r : Reg) (v : Word) (a : Word) (k : Nat) :
    (s.writeReg r v).load a k = s.load a k := by simp [State.load]
@[simp] theorem load_advance (k : Nat) (s : State) (a : Word) (j : Nat) :
    (advance k s).load a j = s.load a j := by simp [State.load]

end Sys2Proof.Machine
end

