-- ==== Sys2Proof/Laws/Memory.lean ====
section
/-! SUPPORT. The laws of the arena's content: a read after a write, the canonical form and its keeping, and spans of bytes
(20_memory.md R50, R57, R58). -/

namespace Sys2Proof.Machine

/-! ### One byte -/

theorem readByte_insert (m : Memory) (a b : Nat) (v : Byte) :
    (Memory.insert a v m).readByte b = if b = a then v else m.readByte b := by
  induction m with
  | nil => simp only [Memory.insert, Memory.readByte]
  | cons c m ih =>
    obtain ⟨x, w⟩ := c
    simp only [Memory.insert]
    split
    · simp only [Memory.readByte]
    · split
      · subst_vars
        simp only [Memory.readByte]
        split <;> rfl
      · simp only [Memory.readByte, ih]
        split <;> split <;> simp_all

theorem readByte_filter (m : Memory) (a b : Nat) :
    Memory.readByte (m.filter (fun c => c.1 != a)) b = if b = a then Memory.unlisted else m.readByte b := by
  induction m with
  | nil => simp [Memory.readByte]
  | cons c m ih =>
    obtain ⟨x, w⟩ := c
    by_cases hx : x = a
    · subst hx
      simp only [List.filter, bne_self_eq_false, ih, Memory.readByte]
      split <;> rfl
    · have : (x != a) = true := by simp [hx]
      simp only [List.filter, this, Memory.readByte, ih]
      split <;> split <;> simp_all

/-- A read after a write: the byte written at its offset, the old byte everywhere else. -/
theorem readByte_writeByte (m : Memory) (a b : Nat) (v : Byte) :
    (m.writeByte a v).readByte b = if b = a then v else m.readByte b := by
  unfold Memory.writeByte
  split
  · subst_vars; exact readByte_filter m a b
  · exact readByte_insert m a b v

/-! ### Spans of bytes -/

@[simp] theorem length_readBytes (m : Memory) (a k : Nat) : (m.readBytes a k).length = k := by
  induction k generalizing a with
  | zero => rfl
  | succ k ih => simp [Memory.readBytes, ih]

theorem getElem?_readBytes (m : Memory) (a k j : Nat) :
    (m.readBytes a k)[j]? = if j < k then some (m.readByte (a + j)) else none := by
  induction k generalizing a j with
  | zero => simp [Memory.readBytes]
  | succ k ih =>
    cases j with
    | zero => simp [Memory.readBytes]
    | succ j => simp [Memory.readBytes, ih, Nat.add_assoc, Nat.add_comm 1 j]

/-- Spans that agree byte by byte are equal. -/
theorem readBytes_congr (m m' : Memory) (a k : Nat) (h : ∀ j, j < k → m'.readByte (a + j) = m.readByte (a + j)) :
    m'.readBytes a k = m.readBytes a k := by
  apply List.ext_getElem?
  intro j
  simp only [getElem?_readBytes]
  split
  · rw [h j ‹_›]
  · rfl

theorem readBytes_append (m : Memory) (a j k : Nat) :
    m.readBytes a (j + k) = m.readBytes a j ++ m.readBytes (a + j) k := by
  induction j generalizing a with
  | zero => simp [Memory.readBytes]
  | succ j ih =>
    rw [Nat.add_right_comm]
    simp [Memory.readBytes, ih, Nat.add_assoc, Nat.add_comm 1 j]

/-- A read after a write of several bytes (R58): a byte of the span is the one written there, any other is the old one. -/
theorem readByte_writeBytes (m : Memory) (a b : Nat) (bs : List Byte) :
    (m.writeBytes a bs).readByte b = if a ≤ b ∧ b < a + bs.length then bs.getD (b - a) 0 else m.readByte b := by
  induction bs generalizing m a with
  | nil =>
    rw [if_neg (by simp only [List.length_nil]; omega)]
    rfl
  | cons v bs ih =>
    simp only [Memory.writeBytes, ih, readByte_writeByte, List.length_cons]
    by_cases hb : b = a
    · subst hb; simp
    · by_cases h : a ≤ b ∧ b < a + (bs.length + 1)
      · have h1 : a + 1 ≤ b ∧ b < a + 1 + bs.length := by omega
        obtain ⟨j, rfl⟩ : ∃ j, b = a + 1 + j := ⟨b - (a + 1), by omega⟩
        rw [if_pos h1, if_pos h]
        have e : a + 1 + j - a = j + 1 := by omega
        have e' : a + 1 + j - (a + 1) = j := by omega
        simp [e, e']
      · have h1 : ¬ (a + 1 ≤ b ∧ b < a + 1 + bs.length) := by omega
        rw [if_neg h1, if_neg h, if_neg hb]

/-- Reading back exactly the span that was written. -/
theorem readBytes_writeBytes_same (m : Memory) (a : Nat) (bs : List Byte) :
    (m.writeBytes a bs).readBytes a bs.length = bs := by
  apply List.ext_getElem?
  intro j
  rw [getElem?_readBytes]
  split
  · rename_i h
    rw [readByte_writeBytes, if_pos ⟨by omega, by omega⟩]
    simp [List.getElem?_eq_getElem h]
  · rw [List.getElem?_eq_none (by omega)]

/-- A write leaves a span that it does not meet alone. -/
theorem readBytes_writeBytes_disjoint (m : Memory) (a b k : Nat) (bs : List Byte)
    (h : b + k ≤ a ∨ a + bs.length ≤ b) : (m.writeBytes a bs).readBytes b k = m.readBytes b k := by
  apply readBytes_congr
  intro j hj
  rw [readByte_writeBytes, if_neg (by omega)]

/-! ### Little-endian numbers (R50) -/

@[simp] theorem length_leBytes (k v : Nat) : (leBytes k v).length = k := by
  induction k generalizing v with
  | zero => rfl
  | succ k ih => simp [leBytes, ih]

/-- The bytes of a number spell its low `k` bytes. -/
theorem leNat_leBytes (k v : Nat) : leNat (leBytes k v) = v % 256 ^ k := by
  induction k generalizing v with
  | zero => simp [leBytes, leNat, Nat.mod_one]
  | succ k ih =>
    simp only [leBytes, leNat, ih, BitVec.toNat_ofNat]
    have h : 256 ^ (k + 1) = 256 * 256 ^ k := by rw [Nat.pow_succ, Nat.mul_comm]
    rw [h, Nat.mod_mul]

/-- Bytes spell a number below `256 ^ length`. -/
theorem leNat_lt (bs : List Byte) : leNat bs < 256 ^ bs.length := by
  induction bs with
  | nil => simp [leNat]
  | cons b bs ih =>
    have := b.isLt
    simp only [leNat, List.length_cons, Nat.pow_succ]
    omega

/-- The bytes of the number that bytes spell are those bytes. -/
theorem leBytes_leNat (bs : List Byte) : leBytes bs.length (leNat bs) = bs := by
  induction bs with
  | nil => rfl
  | cons b bs ih =>
    have hb := b.isLt
    simp only [List.length_cons, leBytes, leNat]
    have h1 : (b.toNat + 256 * leNat bs) / 256 = leNat bs := by omega
    rw [h1, ih]
    congr 1
    apply BitVec.eq_of_toNat_eq
    simp; omega

theorem leNat_append (xs ys : List Byte) : leNat (xs ++ ys) = leNat xs + 256 ^ xs.length * leNat ys := by
  induction xs with
  | nil => simp [leNat]
  | cons x xs ih => simp [leNat, ih, Nat.pow_succ]; ring

theorem getD_leBytes (k v j : Nat) (h : j < k) : (leBytes k v).getD j 0 = BitVec.ofNat 8 (v / 256 ^ j) := by
  induction k generalizing v j with
  | zero => omega
  | succ k ih =>
    cases j with
    | zero => simp [leBytes]
    | succ j =>
      have := ih (v / 256) j (by omega)
      simp only [leBytes, List.getD_cons_succ, this]
      rw [Nat.div_div_eq_div_mul, Nat.pow_succ, Nat.mul_comm 256]

/-! ### The canonical form -/

/-- Every listed offset of the memory is above `a`. -/
def Memory.above (a : Nat) (m : Memory) : Prop := ∀ c ∈ m, a < c.1

theorem wf_cons (a : Nat) (v : Byte) (m : Memory) :
    Memory.wf ((a, v) :: m) = true ↔ v ≠ Memory.unlisted ∧ Memory.above a m ∧ m.wf = true := by
  induction m generalizing a v with
  | nil => simp [Memory.wf, Memory.above]
  | cons c m ih =>
    obtain ⟨b, w⟩ := c
    simp only [Memory.wf, Bool.and_eq_true, decide_eq_true_eq, Memory.above, List.mem_cons, forall_eq_or_imp]
    constructor
    · rintro ⟨⟨hv, hab⟩, hw⟩
      exact ⟨hv, ⟨hab, fun c hc => Nat.lt_trans hab (((ih b w).1 hw).2.1 c hc)⟩, hw⟩
    · rintro ⟨hv, ⟨hab, _⟩, hw⟩
      exact ⟨⟨hv, hab⟩, hw⟩

theorem above_insert (a b : Nat) (v : Byte) (m : Memory) (h : a < b) (hm : Memory.above a m) :
    Memory.above a (Memory.insert b v m) := by
  induction m with
  | nil => simpa [Memory.insert, Memory.above] using h
  | cons c m ih =>
    obtain ⟨x, w⟩ := c
    simp only [Memory.above, List.mem_cons, forall_eq_or_imp] at hm ih
    simp only [Memory.insert]
    split
    · simp only [Memory.above, List.mem_cons, forall_eq_or_imp]; exact ⟨h, hm.1, hm.2⟩
    · split
      · simp only [Memory.above, List.mem_cons, forall_eq_or_imp]; exact ⟨h, hm.2⟩
      · simp only [Memory.above, List.mem_cons, forall_eq_or_imp]; exact ⟨hm.1, ih hm.2⟩

theorem wf_insert (a : Nat) (v : Byte) (m : Memory) (hv : v ≠ Memory.unlisted) (hm : m.wf = true) :
    (Memory.insert a v m).wf = true := by
  induction m with
  | nil => simpa [Memory.insert, Memory.wf] using hv
  | cons c m ih =>
    obtain ⟨x, w⟩ := c
    have h := (wf_cons x w m).1 hm
    simp only [Memory.insert]
    split
    · rename_i hax
      rw [wf_cons]
      refine ⟨hv, ?_, hm⟩
      simp only [Memory.above, List.mem_cons, forall_eq_or_imp]
      exact ⟨hax, fun c hc => Nat.lt_trans hax (h.2.1 c hc)⟩
    · split
      · subst_vars
        rw [wf_cons]
        exact ⟨hv, h.2.1, h.2.2⟩
      · rw [wf_cons]
        exact ⟨h.1, above_insert x a v m (by omega) h.2.1, ih h.2.2⟩

theorem wf_filter (a : Nat) (m : Memory) (hm : m.wf = true) : Memory.wf (m.filter (fun c => c.1 != a)) = true := by
  induction m with
  | nil => rfl
  | cons c m ih =>
    obtain ⟨x, w⟩ := c
    have h := (wf_cons x w m).1 hm
    simp only [List.filter]
    split
    · rw [wf_cons]
      exact ⟨h.1, fun c hc => h.2.1 c (List.mem_of_mem_filter hc), ih h.2.2⟩
    · exact ih h.2.2

/-- Writing a byte keeps the canonical form. -/
theorem wf_writeByte (m : Memory) (a : Nat) (v : Byte) (hm : m.wf = true) : (m.writeByte a v).wf = true := by
  unfold Memory.writeByte
  split
  · exact wf_filter a m hm
  · exact wf_insert a v m ‹_› hm

/-- Writing bytes keeps the canonical form. -/
theorem wf_writeBytes (m : Memory) (a : Nat) (bs : List Byte) (hm : m.wf = true) : (m.writeBytes a bs).wf = true := by
  induction bs generalizing m a with
  | nil => exact hm
  | cons b bs ih => exact ih _ _ (wf_writeByte m a b hm)

/-- Every memory operation keeps the canonical form: a store of the machine does. -/
theorem wf_store (s : State) (a : Word) (k v : Nat) (h : s.arena.wf = true) : (s.store a k v).arena.wf = true := by
  rw [arena_store]; exact wf_writeBytes _ _ _ h

/-- The memory of the reset state is in canonical form. -/
theorem wf_reset : State.reset.arena.wf = true := rfl

/-! ### Listed offsets -/

theorem mem_insert (a : Nat) (v : Byte) (m : Memory) (c : Host.Cell) (h : c ∈ Memory.insert a v m) :
    c.1 = a ∨ c ∈ m := by
  induction m with
  | nil => simp [Memory.insert] at h; simp [h]
  | cons d m ih =>
    obtain ⟨x, w⟩ := d
    simp only [Memory.insert] at h
    split at h
    · simp only [List.mem_cons] at h ⊢; rcases h with rfl | h | h <;> simp_all
    · split at h
      · simp only [List.mem_cons] at h ⊢; rcases h with rfl | h <;> simp_all
      · simp only [List.mem_cons] at h ⊢
        rcases h with h | h
        · exact .inr (.inl h)
        · rcases ih h with h | h
          · exact .inl h
          · exact .inr (.inr h)

/-- A written memory lists only old offsets and the offset written. -/
theorem mem_writeByte (m : Memory) (a : Nat) (v : Byte) (c : Host.Cell) (h : c ∈ m.writeByte a v) :
    c.1 = a ∨ c ∈ m := by
  unfold Memory.writeByte at h
  split at h
  · exact .inr (List.mem_of_mem_filter h)
  · exact mem_insert a v m c h

/-- A written memory lists only old offsets and offsets of the span written. -/
theorem mem_writeBytes (m : Memory) (a : Nat) (bs : List Byte) (c : Host.Cell) (h : c ∈ m.writeBytes a bs) :
    (a ≤ c.1 ∧ c.1 < a + bs.length) ∨ c ∈ m := by
  induction bs generalizing m a with
  | nil => exact .inr h
  | cons b bs ih =>
    rcases ih _ _ h with h | h
    · left; simp only [List.length_cons]; omega
    · rcases mem_writeByte m a b c h with h | h
      · left; simp only [List.length_cons]; omega
      · exact .inr h

end Sys2Proof.Machine
end

