-- ==== Sys2Proof/Laws/Ops.lean ====
section
/-! SUPPORT. One lemma for each shared operation over operands and arena accesses, saying once what it can do
(20_memory.md R57, R58; 40_execution_cycle.md R145 to R152). -/

namespace Sys2Proof.Machine

/-! ### Results and faults in sequence -/

@[simp] theorem ok_bind {α β : Type} (a : α) (f : α → Except Raise β) : (Except.ok a >>= f) = f a := rfl
@[simp] theorem error_bind {α β : Type} (r : Raise) (f : α → Except Raise β) :
    ((Except.error r : Except Raise α) >>= f) = .error r := rfl
@[simp] theorem pure_eq_ok {α : Type} (a : α) : (pure a : Except Raise α) = .ok a := rfl

/-- A sequence succeeds exactly when both parts do. -/
theorem bind_eq_ok {α β : Type} (x : Except Raise α) (f : α → Except Raise β) (b : β) :
    x >>= f = .ok b ↔ ∃ a, x = .ok a ∧ f a = .ok b := by
  cases x <;> simp

/-- A sequence faults exactly when its first part does, or its first part succeeds and its second part faults. -/
theorem bind_eq_error {α β : Type} (x : Except Raise α) (f : α → Except Raise β) (r : Raise) :
    x >>= f = .error r ↔ x = .error r ∨ ∃ a, x = .ok a ∧ f a = .error r := by
  cases x <;> simp

/-! ### Arena access (R57 to R59) -/

theorem inBounds_iff (s : State) (a : Word) (k : Nat) : s.inBounds a k = true ↔ a.toNat + k ≤ s.arenaSize := by
  simp [State.inBounds]

/-- The bounds check in the form of R59, for the widths of R57 and a legal arena size. -/
theorem inBounds_iff_sub (s : State) (a : Word) (k : Nat) (h : k ≤ s.arenaSize) :
    s.inBounds a k = true ↔ a.toNat ≤ s.arenaSize - k := by
  rw [inBounds_iff]; omega

theorem memRead_eq_ok (a : Word) (k : Nat) (s : State) (v : Nat) :
    memRead a k s = .ok v ↔ s.inBounds a k = true ∧ s.load a k = v := by
  unfold memRead; split <;> simp_all

theorem memRead_eq_error (a : Word) (k : Nat) (s : State) (r : Raise) :
    memRead a k s = .error r ↔ s.inBounds a k = false ∧ r = ⟨.memoryFault, a⟩ := by
  unfold memRead
  split
  · simp_all
  · simp_all only [Bool.not_eq_true, Except.error.injEq, true_and]
    exact eq_comm

theorem memWrite_eq_ok (a : Word) (k v : Nat) (s t : State) :
    memWrite a k v s = .ok t ↔ s.inBounds a k = true ∧ s.store a k v = t := by
  unfold memWrite; split <;> simp_all

theorem memWrite_eq_error (a : Word) (k v : Nat) (s : State) (r : Raise) :
    memWrite a k v s = .error r ↔ s.inBounds a k = false ∧ r = ⟨.memoryFault, a⟩ := by
  unfold memWrite
  split
  · simp_all
  · simp_all only [Bool.not_eq_true, Except.error.injEq, true_and]
    exact eq_comm

/-- A byte after a store: outside the span it is the byte before. -/
theorem readByte_store_outside (s : State) (a : Word) (k v b : Nat) (h : b < a.toNat ∨ a.toNat + k ≤ b) :
    (s.store a k v).readByte b = s.readByte b := by
  simp only [State.readByte, arena_store]
  rw [readByte_writeBytes, if_neg (by simp only [bytesOfNat_eq, length_leBytes]; omega)]

/-- A byte after a store: inside the span it is the byte of the value stored (R58). -/
theorem readByte_store_inside (s : State) (a : Word) (k v j : Nat) (h : j < k) :
    (s.store a k v).readByte (a.toNat + j) = BitVec.ofNat 8 (v / 256 ^ j) := by
  simp only [State.readByte, arena_store]
  rw [readByte_writeBytes, if_pos (by simp only [bytesOfNat_eq, length_leBytes]; omega), Nat.add_sub_cancel_left]
  exact getD_leBytes k v j h

/-- A load sees the last store to the same span, reduced to its width (R63). -/
theorem load_store_same (s : State) (a : Word) (k v : Nat) : (s.store a k v).load a k = v % 256 ^ k := by
  simp only [State.load, arena_store]
  have h := readBytes_writeBytes_same s.arena a.toNat (leBytes k v)
  rw [length_leBytes] at h
  rw [natOfBytes_eq, bytesOfNat_eq, h, leNat_leBytes]

/-- A load does not see a store to a span that it does not meet. -/
theorem load_store_disjoint (s : State) (a b : Word) (k j v : Nat)
    (h : b.toNat + j ≤ a.toNat ∨ a.toNat + k ≤ b.toNat) : (s.store a k v).load b j = s.load b j := by
  simp only [State.load, arena_store]
  rw [readBytes_writeBytes_disjoint]
  simpa using h

theorem load_lt (s : State) (a : Word) (k : Nat) : s.load a k < 256 ^ k := by
  have h := leNat_lt (s.arena.readBytes a.toNat k)
  rwa [length_readBytes] at h

/-- Loads depend on nothing but the bytes of their span. -/
theorem load_congr (s t : State) (a : Word) (k : Nat)
    (h : ∀ j, j < k → t.readByte (a.toNat + j) = s.readByte (a.toNat + j)) : t.load a k = s.load a k := by
  simp only [State.load]
  rw [readBytes_congr s.arena t.arena]
  exact h

/-! ### Registers named by numbers (R145) -/

theorem checkRegister_eq_ok (i : Word) (r : Reg) : checkRegister i = .ok r ↔ regOfNumber i.toNat = some r := by
  unfold checkRegister; split <;> simp_all

theorem checkRegister_eq_error (i : Word) (e : Raise) :
    checkRegister i = .error e ↔ regOfNumber i.toNat = none ∧ e = ⟨.invalidRegister, i⟩ := by
  unfold checkRegister
  split
  · simp_all
  · simp_all only [Except.error.injEq, true_and]
    exact eq_comm

/-! ### Locations (R146 to R152) -/

/-- A slot that is written resolves to a register or a memory location, the one that `resolve` gives (R152). -/
theorem resolveWritten_eq_ok (k : Nat) (o : Operand) (s : State) (l : Loc) :
    resolveWritten k o s = .ok l ↔ resolve o s = .ok l ∧ ∀ v, l ≠ .imm v := by
  unfold resolveWritten
  rw [bind_eq_ok]
  constructor
  · rintro ⟨m, hm, h⟩
    cases m <;> simp_all
    all_goals (subst h; simp)
  · rintro ⟨h, hl⟩
    refine ⟨l, h, ?_⟩
    cases l <;> simp_all

/-- A slot that is written faults as `resolve` does, or because it is an immediate (R152). -/
theorem resolveWritten_eq_error (k : Nat) (o : Operand) (s : State) (r : Raise) :
    resolveWritten k o s = .error r ↔
      resolve o s = .error r ∨ ∃ v, resolve o s = .ok (.imm v) ∧ r = ⟨.writeToImmediate, BitVec.ofNat 64 k⟩ := by
  unfold resolveWritten
  rw [bind_eq_error]
  constructor
  · rintro (h | ⟨m, hm, h⟩)
    · exact .inl h
    · cases m <;> simp_all
  · rintro (h | ⟨v, h, rfl⟩)
    · exact .inl h
    · exact .inr ⟨_, h, rfl⟩

/-- Reading a location answers the value held there when its access is in bounds (R150). -/
theorem readLoc_eq_ok (l : Loc) (n : Size) (s : State) (v : Nat) :
    readLoc l n s = .ok v ↔ l.accessible n s = true ∧ s.valueAt l n = v := by
  cases l <;> simp [readLoc, Loc.accessible, State.valueAt, memRead_eq_ok]

/-- Reading a location faults exactly when it is a memory location out of bounds (R150, R245). -/
theorem readLoc_eq_error (l : Loc) (n : Size) (s : State) (r : Raise) :
    readLoc l n s = .error r ↔ ∃ a, l = .mem a ∧ s.inBounds a n.bytes = false ∧ r = ⟨.memoryFault, a⟩ := by
  cases l <;> simp [readLoc, memRead_eq_error]

/-- Writing a location that is no immediate leaves `putAt` when its access is in bounds (R151). -/
theorem writeLoc_eq_ok (l : Loc) (n : Size) (v : Nat) (s t : State) :
    writeLoc l n v s = .ok t ↔ l.accessible n s = true ∧ (∀ x, l ≠ .imm x) ∧ s.putAt l n v = t := by
  cases l <;> simp [writeLoc, Loc.accessible, State.putAt, memWrite_eq_ok]

/-- Writing a location that is no immediate faults exactly when it is a memory location out of bounds (R151, R245). -/
theorem writeLoc_eq_error (l : Loc) (n : Size) (v : Nat) (s : State) (r : Raise) (h : ∀ x, l ≠ .imm x) :
    writeLoc l n v s = .error r ↔ ∃ a, l = .mem a ∧ s.inBounds a n.bytes = false ∧ r = ⟨.memoryFault, a⟩ := by
  cases l with
  | reg _ => simp [writeLoc]
  | mem a => simp [writeLoc, memWrite_eq_error]
  | imm x => exact absurd rfl (h x)

/-! ### What a write at a location leaves -/

@[simp] theorem arenaSize_putAt (s : State) (l : Loc) (n : Size) (v : Nat) : (s.putAt l n v).arenaSize = s.arenaSize := by
  cases l <;> simp [State.putAt]
@[simp] theorem status_putAt (s : State) (l : Loc) (n : Size) (v : Nat) : (s.putAt l n v).status = s.status := by
  cases l <;> simp [State.putAt]
@[simp] theorem faultCause_putAt (s : State) (l : Loc) (n : Size) (v : Nat) :
    (s.putAt l n v).faultCause = s.faultCause := by cases l <;> simp [State.putAt]
@[simp] theorem faultInfo_putAt (s : State) (l : Loc) (n : Size) (v : Nat) :
    (s.putAt l n v).faultInfo = s.faultInfo := by cases l <;> simp [State.putAt]
@[simp] theorem output_putAt (s : State) (l : Loc) (n : Size) (v : Nat) : (s.putAt l n v).output = s.output := by
  cases l <;> simp [State.putAt]

/-- The registers other than the destination keep their values. -/
theorem readReg_putAt_ne (s : State) (l : Loc) (n : Size) (v : Nat) (r : Reg) (h : l ≠ .reg r) :
    (s.putAt l n v).readReg r = s.readReg r := by
  cases l with
  | reg r' => exact readReg_writeReg_ne s r' r _ (fun e => h (by rw [e]))
  | mem a => simp [State.putAt]
  | imm x => rfl

/-- The bytes outside the destination keep their values. -/
theorem readByte_putAt_outside (s : State) (l : Loc) (n : Size) (v b : Nat)
    (h : ∀ a, l = .mem a → b < a.toNat ∨ a.toNat + n.bytes ≤ b) : (s.putAt l n v).readByte b = s.readByte b := by
  cases l with
  | reg r => simp [State.putAt]
  | mem a => exact readByte_store_outside s a _ v b (h a rfl)
  | imm x => rfl

/-- The canonical form of the arena survives a write at a location. -/
theorem wf_putAt (s : State) (l : Loc) (n : Size) (v : Nat) (h : s.arena.wf = true) :
    (s.putAt l n v).arena.wf = true := by
  cases l with
  | reg r => simpa [State.putAt] using h
  | mem a => exact wf_store s a _ v h
  | imm x => exact h

@[simp] theorem accessible_advance (l : Loc) (n : Size) (k : Nat) (s : State) :
    l.accessible n (advance k s) = l.accessible n s := by cases l <;> simp [Loc.accessible]
@[simp] theorem accessible_writeReg (l : Loc) (n : Size) (s : State) (r : Reg) (v : Word) :
    l.accessible n (s.writeReg r v) = l.accessible n s := by cases l <;> simp [Loc.accessible]
@[simp] theorem accessible_store (l : Loc) (n : Size) (s : State) (a : Word) (k v : Nat) :
    l.accessible n (s.store a k v) = l.accessible n s := by cases l <;> simp [Loc.accessible]

end Sys2Proof.Machine
end

