-- ==== Sys2Proof/Laws/Exec.lean ====
section
/-! SUPPORT. What one instruction and one step can do, said once: every instruction is a body run on the advanced state, whose
state is committed or whose fault is taken (40_execution_cycle.md R140, 60_exceptions.md R247). -/

namespace Sys2Proof.Machine

/-- The body of an instruction: the resolution of its slots and its handler, as it runs on the advanced state. -/
def body : Instr → Handler
  | .push n o => fun t => resolve o t >>= fun l => pushHandler n l t
  | .pop n o => fun t => resolveWritten 0 o t >>= fun l => popHandler n l t
  | .jmp n o => fun t => resolve o t >>= fun l => jmpHandler n l t
  | .exit _ => exitHandler
  | .mov n a b => fun t => resolveWritten 0 a t >>= fun l => resolve b t >>= fun m => movHandler n l m t
  | .call n o => fun t => resolve o t >>= fun l => callHandler n l t
  | .ret _ => retHandler
  | .add n a b => fun t => resolveWritten 0 a t >>= fun l => resolve b t >>= fun m =>
      binaryHandler (fun x y => .ok (aluAdd n x y)) n l m t
  | .sub n a b => fun t => resolveWritten 0 a t >>= fun l => resolve b t >>= fun m =>
      binaryHandler (fun x y => .ok (aluSub n x y)) n l m t
  | .mul n a b => fun t => resolveWritten 0 a t >>= fun l => resolve b t >>= fun m =>
      binaryHandler (fun x y => .ok (aluMul n x y)) n l m t
  | .div n a b => fun t => resolveWritten 0 a t >>= fun l => resolve b t >>= fun m => binaryHandler aluDiv n l m t
  | .mod n a b => fun t => resolveWritten 0 a t >>= fun l => resolve b t >>= fun m => binaryHandler aluMod n l m t
  | .inc n o => fun t => resolveWritten 0 o t >>= fun l => unaryHandler (aluInc n) n l t
  | .dec n o => fun t => resolveWritten 0 o t >>= fun l => unaryHandler (aluDec n) n l t
  | .cmp n a b => fun t => resolve a t >>= fun l => resolve b t >>= fun m => cmpHandler n l m t
  | .je n o => fun t => resolve o t >>= fun l => jccHandler condEqual n l t
  | .jne n o => fun t => resolve o t >>= fun l => jccHandler condNotEqual n l t
  | .jl n o => fun t => resolve o t >>= fun l => jccHandler condLess n l t
  | .jg n o => fun t => resolve o t >>= fun l => jccHandler condGreater n l t
  | .jle n o => fun t => resolve o t >>= fun l => jccHandler condLessEqual n l t
  | .jge n o => fun t => resolve o t >>= fun l => jccHandler condGreaterEqual n l t
  | .print n o => fun t => resolve o t >>= fun l => printHandler n l t

/-- An instruction is its body run as a record of its arity. -/
theorem exec_eq_runRecord (i : Instr) (s : State) : exec i s = runRecord i.arity (body i) s := by
  cases i <;> rfl

/-- Running a record answers a next state: the body's, or the state before with the fault taken. -/
theorem runRecord_eq_next (k : Nat) (b : Handler) (s t : State) :
    runRecord k b s = .next t ↔
      b (advance (recordLength k) s) = .ok t ∨ ∃ r, b (advance (recordLength k) s) = .error r ∧ t = takeFault r s := by
  unfold runRecord
  split <;> simp_all
  exact eq_comm

/-- What an instruction can do: it commits the state of its body, or takes the fault its body raises. -/
theorem exec_eq_next (i : Instr) (s t : State) :
    exec i s = .next t ↔
      body i (advance (recordLength i.arity) s) = .ok t ∨
        ∃ r, body i (advance (recordLength i.arity) s) = .error r ∧ t = takeFault r s := by
  rw [exec_eq_runRecord, runRecord_eq_next]

/-- What a step can do: only a running machine has one, and it takes the fault of a failed fetch or executes the
instruction fetched. -/
theorem step_eq_next (s t : State) :
    step s = .next t ↔
      s.status = .running ∧
        ((∃ i, fetch s = .ok i ∧ exec i s = .next t) ∨ ∃ r, fetch s = .error r ∧ t = takeFault r s) := by
  unfold step
  split <;> simp_all
  split <;> simp_all
  exact eq_comm

/-! ### The handlers (R153): what each leaves when it raises nothing -/

theorem movHandler_eq_ok (n : Size) (l m : Loc) (s t : State) :
    movHandler n l m s = .ok t ↔ m.accessible n s = true ∧ writeLoc l n (s.valueAt m n) s = .ok t := by
  simp [movHandler, bind_eq_ok, readLoc_eq_ok, and_assoc]

theorem binaryHandler_eq_ok (f : Nat → Nat → Except Raise Nat) (n : Size) (l m : Loc) (s t : State) :
    binaryHandler f n l m s = .ok t ↔
      l.accessible n s = true ∧ m.accessible n s = true ∧
        ∃ v, f (s.valueAt l n) (s.valueAt m n) = .ok v ∧ writeLoc l n v s = .ok t := by
  simp [binaryHandler, bind_eq_ok, readLoc_eq_ok, and_assoc]

theorem unaryHandler_eq_ok (f : Nat → Nat) (n : Size) (l : Loc) (s t : State) :
    unaryHandler f n l s = .ok t ↔ l.accessible n s = true ∧ writeLoc l n (f (s.valueAt l n)) s = .ok t := by
  simp [unaryHandler, bind_eq_ok, readLoc_eq_ok, and_assoc]

theorem cmpHandler_eq_ok (n : Size) (l m : Loc) (s t : State) :
    cmpHandler n l m s = .ok t ↔
      l.accessible n s = true ∧ m.accessible n s = true ∧
        s.writeReg .rflag (compareResult n (s.valueAt l n) (s.valueAt m n)) = t := by
  simp [cmpHandler, bind_eq_ok, readLoc_eq_ok, and_assoc]

theorem jmpHandler_eq_ok (n : Size) (l : Loc) (s t : State) :
    jmpHandler n l s = .ok t ↔ l.accessible n s = true ∧ s.writeReg .rip (jumpTarget (s.valueAt l n)) = t := by
  simp [jmpHandler, bind_eq_ok, readLoc_eq_ok, and_assoc]

theorem printHandler_eq_ok (n : Size) (l : Loc) (s t : State) :
    printHandler n l s = .ok t ↔ l.accessible n s = true ∧ s.emit (BitVec.ofNat 64 (s.valueAt l n)) = t := by
  simp [printHandler, bind_eq_ok, readLoc_eq_ok, and_assoc]

theorem pushHandler_eq_ok (n : Size) (l : Loc) (s t : State) :
    pushHandler n l s = .ok t ↔
      l.accessible n s = true ∧ s.inBounds (s.readReg .rsp - BitVec.ofNat 64 n.bytes) n.bytes = true ∧
        (s.writeReg .rsp (s.readReg .rsp - BitVec.ofNat 64 n.bytes)).store (s.readReg .rsp - BitVec.ofNat 64 n.bytes)
          n.bytes ((s.writeReg .rsp (s.readReg .rsp - BitVec.ofNat 64 n.bytes)).valueAt l n) = t := by
  simp [pushHandler, bind_eq_ok, readLoc_eq_ok, memWrite_eq_ok, and_assoc]

theorem popHandler_eq_ok (n : Size) (l : Loc) (s t : State) :
    popHandler n l s = .ok t ↔
      s.inBounds (s.readReg .rsp) n.bytes = true ∧
        ∃ u, writeLoc l n (s.load (s.readReg .rsp) n.bytes) s = .ok u ∧
          u.writeReg .rsp (u.readReg .rsp + BitVec.ofNat 64 n.bytes) = t := by
  simp [popHandler, bind_eq_ok, memRead_eq_ok, and_assoc]

theorem retHandler_eq_ok (s t : State) :
    retHandler s = .ok t ↔
      s.inBounds (s.readReg .rsp) 8 = true ∧
        (s.writeReg .rip (BitVec.ofNat 64 (s.load (s.readReg .rsp) 8))).writeReg .rsp (s.readReg .rsp + 8) = t := by
  simp [retHandler, bind_eq_ok, memRead_eq_ok, and_assoc]

theorem callHandler_eq_ok (n : Size) (l : Loc) (s t : State) :
    callHandler n l s = .ok t ↔
      s.inBounds (s.readReg .rsp - 8) 8 = true ∧
        jmpHandler n l ((s.writeReg .rsp (s.readReg .rsp - 8)).store (s.readReg .rsp - 8) 8 (s.readReg .rip).toNat)
          = .ok t := by
  simp [callHandler, bind_eq_ok, memWrite_eq_ok, and_assoc]

end Sys2Proof.Machine
end

