-- ==== Sys2Proof/Laws/PerInstr.lean ====
section
/-! SUPPORT. Statements about every instruction as syntax, one lemma for each constructor of `Instr`. The family
`OpcodeSelectsShape` says that the row of the opcode table (30_encoding.md R95) that an instruction's opcode byte selects
has the instruction's arity (R94) and rebuilds the instruction from its size and its operands. -/

namespace Sys2Proof.Laws.OpcodeSelectsShape

/-- The opcode byte of `i` selects a row that gives `i` back from its size and operands. -/
def Statement (i : Instr) : Prop :=
  match shapeOf (opcodeByte i).toNat with
  | some (.zero mk) => i.operands = [] ∧ i = mk i.size
  | some (.one mk) => ∃ o, i.operands = [o] ∧ i = mk i.size o
  | some (.two mk) => ∃ o p, i.operands = [o, p] ∧ i = mk i.size o p
  | none => False

theorem push (n : Size) (o : Operand) : Statement (.push n o) := ⟨o, rfl, rfl⟩
theorem pop (n : Size) (o : Operand) : Statement (.pop n o) := ⟨o, rfl, rfl⟩
theorem jmp (n : Size) (o : Operand) : Statement (.jmp n o) := ⟨o, rfl, rfl⟩
theorem exit (n : Size) : Statement (.exit n) := ⟨rfl, rfl⟩
theorem mov (n : Size) (a b : Operand) : Statement (.mov n a b) := ⟨a, b, rfl, rfl⟩
theorem call (n : Size) (o : Operand) : Statement (.call n o) := ⟨o, rfl, rfl⟩
theorem ret (n : Size) : Statement (.ret n) := ⟨rfl, rfl⟩
theorem add (n : Size) (a b : Operand) : Statement (.add n a b) := ⟨a, b, rfl, rfl⟩
theorem sub (n : Size) (a b : Operand) : Statement (.sub n a b) := ⟨a, b, rfl, rfl⟩
theorem mul (n : Size) (a b : Operand) : Statement (.mul n a b) := ⟨a, b, rfl, rfl⟩
theorem div (n : Size) (a b : Operand) : Statement (.div n a b) := ⟨a, b, rfl, rfl⟩
theorem mod (n : Size) (a b : Operand) : Statement (.mod n a b) := ⟨a, b, rfl, rfl⟩
theorem inc (n : Size) (o : Operand) : Statement (.inc n o) := ⟨o, rfl, rfl⟩
theorem dec (n : Size) (o : Operand) : Statement (.dec n o) := ⟨o, rfl, rfl⟩
theorem cmp (n : Size) (a b : Operand) : Statement (.cmp n a b) := ⟨a, b, rfl, rfl⟩
theorem je (n : Size) (o : Operand) : Statement (.je n o) := ⟨o, rfl, rfl⟩
theorem jne (n : Size) (o : Operand) : Statement (.jne n o) := ⟨o, rfl, rfl⟩
theorem jl (n : Size) (o : Operand) : Statement (.jl n o) := ⟨o, rfl, rfl⟩
theorem jg (n : Size) (o : Operand) : Statement (.jg n o) := ⟨o, rfl, rfl⟩
theorem jle (n : Size) (o : Operand) : Statement (.jle n o) := ⟨o, rfl, rfl⟩
theorem jge (n : Size) (o : Operand) : Statement (.jge n o) := ⟨o, rfl, rfl⟩
theorem print (n : Size) (o : Operand) : Statement (.print n o) := ⟨o, rfl, rfl⟩

end Sys2Proof.Laws.OpcodeSelectsShape
end

