-- ==== Sys2Proof/Tests/Slice0.lean ====
section
/-! SUPPORT. The author's own tests. Records, states and expected results are those of 95_test_vectors.md unless a test's
comment names another rule; no expected result is the model's own answer. A theorem `witness_X` shows a state and operands
that meet the hypotheses of `Obligations.X` together, at boundary values where the statement has clauses. -/

namespace Sys2Proof.Tests

open Sys2Proof.Machine

/-! ### Helpers -/

/-- The machine of 95_test_vectors.md: 4096 bytes of arena, `RIP = 0x10`, `RSP = 0x1000`, the other registers 0 unless
listed. -/
def machine (regs : List (Reg × Word)) (arena : Memory) : State :=
  regs.foldl (fun s r => s.writeReg r.1 r.2)
    { regs := ⟨0, 0, 0, 0, 0, 0, 0x10, 0x1000, 0, 0⟩, arena := arena, arenaSize := 4096, status := .running,
      faultCause := .decodeError, faultInfo := 0, output := [] }

/-- The arena with these bytes at these offsets. -/
def holding (cells : List (Nat × List Byte)) : Memory := cells.foldl (fun m c => m.writeBytes c.1 c.2) []

/-- The next state of an outcome. -/
def nextOf : Host.Outcome State Fault Refusal → Option State
  | .next t => some t
  | .fault _ | .refused _ => none

/-- One step with a record at offset 16. -/
def run (record : List Byte) (regs : List (Reg × Word)) (cells : List (Nat × List Byte)) : Option State :=
  nextOf (step (machine regs (holding ((16, record) :: cells))))

/-- The arena bytes of a state from an offset on. -/
def bytesAt (t : State) (a k : Nat) : List Byte := t.arena.readBytes a k

/-- The fault a step has taken, as cause and information. -/
def faultOf (s : Option State) : Option (FaultCause × Word) :=
  match s with
  | some t => if t.status = .faulted then some (t.faultCause, t.faultInfo) else none
  | none => none

/-! ### WellFormed: one ill-formed term for each check -/

theorem test_wf_legal : WellFormed (.mov .b8 (.indexed ⟨9, 255, .sub 9, 0x80000000⟩) (.regInd 9)) := by decide
theorem test_wf_register_number : ¬ WellFormed (.inc .b8 (.reg 10)) := by decide
theorem test_wf_register_number_upper_bytes : ¬ WellFormed (.inc .b8 (.reg 0x100)) := by decide
theorem test_wf_indirect_register_number : ¬ WellFormed (.push .b1 (.regInd 10)) := by decide
theorem test_wf_base : ¬ WellFormed (.inc .b8 (.indexed ⟨10, 1, .none, 0⟩)) := by decide
theorem test_wf_added_register : ¬ WellFormed (.inc .b8 (.indexed ⟨0, 1, .add 11, 0⟩)) := by decide
theorem test_wf_subtracted_register : ¬ WellFormed (.inc .b8 (.indexedBare ⟨0, 1, .sub 10, 0⟩)) := by decide
theorem test_wf_sign : ¬ WellFormed (.inc .b8 (.indexed ⟨0, 1, .illegal 3 0, 0⟩)) := by decide
theorem test_wf_second_slot : ¬ WellFormed (.mov .b8 (.reg 0) (.reg 10)) := by decide

/-! ### Decoding: one record for every constructor, written out from 30_encoding.md R81, R87, R91, R95 -/

theorem test_decode_push : decode [0, 0x08, 0x06, 0, 0, 0, 0, 0, 0x07, 0, 0, 0, 0, 0, 0, 0] = .ok (.push .b8 (.reg
    7), []) := by decide
theorem test_decode_pop : decode [0x01, 0x08, 0x0A, 0, 0, 0, 0, 0, 0x07, 0, 0, 0, 0, 0, 0, 0] = .ok (.pop .b8
    (.regInd 7), []) := by decide
theorem test_decode_jmp : decode [0x02, 0x08, 0x05, 0, 0, 0, 0, 0, 0x28, 0, 0, 0, 0, 0, 0, 0] = .ok (.jmp .b8 (.imm
    0x28), []) := by decide
theorem test_decode_exit : decode [0x03, 0x08, 0, 0, 0, 0, 0, 0] = .ok (.exit .b8, []) := by decide
theorem test_decode_mov : decode [0x04, 0x08, 0x1A, 0x05, 0, 0, 0, 0, 0, 0x02, 0x01, 0x01, 0xFC, 0xFF, 0xFF, 0xFF,
    0xFE, 0xCA, 0, 0, 0, 0, 0, 0] = .ok (.mov .b8 (.indexed ⟨0, 2, .add 1, 0xFFFFFFFC⟩) (.imm 0xCAFE), []) := by
    decide
theorem test_decode_call : decode [0x05, 0x08, 0x05, 0, 0, 0, 0, 0, 0x90, 0, 0, 0, 0, 0, 0, 0] = .ok (.call .b8
    (.imm 0x90), []) := by decide
theorem test_decode_ret : decode [0x06, 0x08, 0, 0, 0, 0, 0, 0] = .ok (.ret .b8, []) := by decide
theorem test_decode_add : decode [0x07, 0x04, 0x06, 0x05, 0, 0, 0, 0, 0, 0, 0, 0, 0, 0, 0, 0, 0, 0, 0, 0x80, 0, 0,
    0, 0] = .ok (.add .b4 (.reg 0) (.imm 0x80000000), []) := by decide
theorem test_decode_sub : decode [0x08, 0x08, 0x06, 0x05, 0, 0, 0, 0, 0x03, 0, 0, 0, 0, 0, 0, 0, 0x0A, 0, 0, 0, 0,
    0, 0, 0] = .ok (.sub .b8 (.reg 3) (.imm 10), []) := by decide
theorem test_decode_mul : decode [0x09, 0x01, 0x06, 0x06, 0, 0, 0, 0, 0, 0, 0, 0, 0, 0, 0, 0, 0x01, 0, 0, 0, 0, 0,
    0, 0] = .ok (.mul .b1 (.reg 0) (.reg 1), []) := by decide
theorem test_decode_div : decode [0x0A, 0x08, 0x06, 0x1A, 0, 0, 0, 0, 0x03, 0, 0, 0, 0, 0, 0, 0, 0x01, 0x01, 0, 0,
    0x08, 0, 0, 0] = .ok (.div .b8 (.reg 3) (.indexed ⟨1, 1, .none, 8⟩), []) := by decide
theorem test_decode_mod : decode [0x0B, 0x08, 0x06, 0x1A, 0, 0, 0, 0, 0x02, 0, 0, 0, 0, 0, 0, 0, 0x01, 0x01, 0, 0,
    0x08, 0, 0, 0] = .ok (.mod .b8 (.reg 2) (.indexed ⟨1, 1, .none, 8⟩), []) := by decide
theorem test_decode_inc : decode [0x0C, 0x08, 0x0A, 0, 0, 0, 0, 0, 0, 0, 0, 0, 0, 0, 0, 0] = .ok (.inc .b8 (.regInd
    0), []) := by decide
theorem test_decode_dec : decode [0x0D, 0x02, 0x06, 0, 0, 0, 0, 0, 0, 0, 0, 0, 0, 0, 0, 0] = .ok (.dec .b2 (.reg
    0), []) := by decide
theorem test_decode_cmp : decode [0x0E, 0x08, 0x06, 0x05, 0, 0, 0, 0, 0x01, 0, 0, 0, 0, 0, 0, 0, 0x05, 0, 0, 0, 0,
    0, 0, 0] = .ok (.cmp .b8 (.reg 1) (.imm 5), []) := by decide
theorem test_decode_je : decode [0x0F, 0x08, 0x09, 0, 0, 0, 0, 0, 0, 0x20, 0, 0, 0, 0, 0, 0] = .ok (.je .b8 (.abs
    0x2000), []) := by decide
theorem test_decode_jne : decode [0x10, 0x08, 0x05, 0, 0, 0, 0, 0, 0, 0x01, 0, 0, 0, 0, 0, 0] = .ok (.jne .b8 (.imm
    0x100), []) := by decide
theorem test_decode_jl : decode [0x11, 0x08, 0x05, 0, 0, 0, 0, 0, 0, 0x01, 0, 0, 0, 0, 0, 0] = .ok (.jl .b8 (.imm
    0x100), []) := by decide
theorem test_decode_jg : decode [0x12, 0x08, 0x05, 0, 0, 0, 0, 0, 0, 0x01, 0, 0, 0, 0, 0, 0] = .ok (.jg .b8 (.imm
    0x100), []) := by decide
theorem test_decode_jle : decode [0x13, 0x08, 0x05, 0, 0, 0, 0, 0, 0x30, 0, 0, 0, 0, 0, 0, 0] = .ok (.jle .b8 (.imm
    0x30), []) := by decide
theorem test_decode_jge : decode [0x14, 0x08, 0x05, 0, 0, 0, 0, 0, 0, 0x01, 0, 0, 0, 0, 0, 0] = .ok (.jge .b8 (.imm
    0x100), []) := by decide
theorem test_decode_print : decode [0x15, 0x08, 0x05, 0, 0, 0, 0, 0, 0xFA, 0xFF, 0xFF, 0xFF, 0xFF, 0xFF, 0xFF,
    0xFF] = .ok (.print .b8 (.imm 0xFFFFFFFFFFFFFFFA), []) := by decide

/-- Tag `0x16` is the same sub-record written without brackets; every field of it is read at its own place (R91). -/
theorem test_decode_unbracketed : decode [0x0C, 0x08, 0x16, 0, 0, 0, 0, 0, 0x01, 0x02, 0x03, 0x02, 0x44, 0x33,
    0x22, 0x11] = .ok (.inc .b8 (.indexedBare ⟨1, 2, .sub 3, 0x11223344⟩), []) := by decide

/-- The tag of an absent slot and the padding are ignored (R84, R85). -/
theorem test_decode_ignored_bits :
    decode [0x0C, 0x08, 0x06, 0xFF, 0x11, 0x22, 0x33, 0x44, 0x02, 0, 0, 0, 0, 0, 0, 0] = .ok (.inc .b8 (.reg 2), []) := by
  decide
/-- `reg2` is ignored when `sign2` is 0 (R99). -/
theorem test_decode_ignored_reg2 :
    decode [0x0C, 0x08, 0x1A, 0, 0, 0, 0, 0, 0x00, 0x01, 0x0B, 0x00, 0x00, 0x02, 0, 0]
      = .ok (.inc .b8 (.indexed ⟨0, 1, .none, 0x200⟩), []) := by decide
theorem test_decode_unknown_opcode : decode [0x16, 0x08, 0, 0, 0, 0, 0, 0] = .error (.unknownOpcode 0x16) := by decide
theorem test_decode_size : decode [0x03, 0x03, 0, 0, 0, 0, 0, 0] = .error (.illegalSize 3) := by decide
theorem test_decode_tag_both_axes :
    decode [0x0C, 0x08, 0x07, 0, 0, 0, 0, 0, 0x02, 0, 0, 0, 0, 0, 0, 0] = .error (.illegalTag 0x07) := by decide
theorem test_decode_tag_complex_immediate :
    decode [0x0C, 0x08, 0x15, 0, 0, 0, 0, 0, 0x02, 0, 0, 0, 0, 0, 0, 0] = .error (.illegalTag 0x15) := by decide
/-- Size before tags, and payload bounds before the size (R155). -/
theorem test_decode_size_before_tags :
    decode [0x04, 0x03, 0x05, 0x07, 0, 0, 0, 0, 0, 0, 0, 0, 0, 0, 0, 0, 0, 0, 0, 0, 0, 0, 0, 0]
      = .error (.illegalSize 3) := by decide
theorem test_decode_bounds_before_size : decode [0x0C, 0x03, 0x06, 0, 0, 0, 0, 0] = .error (.truncated 8) := by decide

/-- The encoder writes the record of 95_test_vectors.md S7. -/
theorem test_encode_mov_indexed :
    encode (.mov .b8 (.reg 2) (.indexed ⟨0, 2, .add 1, 0xFFFFFFFC⟩))
      = [0x04, 0x08, 0x06, 0x1A, 0, 0, 0, 0, 0x02, 0, 0, 0, 0, 0, 0, 0, 0x00, 0x02, 0x01, 0x01, 0xFC, 0xFF, 0xFF, 0xFF] := by
  decide

/-- Bit 0 of a table word is bit 0 of the opcode byte; the bits above `nbits` are 0. -/
theorem test_table_word : decodeTableWord 64 0x000000000006080C = some (.inc .b8 (.reg 0)) := by decide
theorem test_table_word_cut : decodeTableWord 16 0xFFFF0803 = some (.exit .b8) := by decide

/-! ### One step -/

theorem test_mov_keeps_upper_bytes :
    (run [0x04, 0x01, 0x06, 0x05, 0, 0, 0, 0, 0, 0, 0, 0, 0, 0, 0, 0, 0xFF, 0x01, 0, 0, 0, 0, 0, 0] [(.r0,
      0x1122334455667788)] []).map (fun t => (t.readReg .r0, t.readReg .rip))
      = some (0x11223344556677FF, 0x28) := by decide
theorem test_mov_loads_little_endian :
    (run [0x04, 0x08, 0x06, 0x0A, 0, 0, 0, 0, 0x02, 0, 0, 0, 0, 0, 0, 0, 0x01, 0, 0, 0, 0, 0, 0, 0] [(.r1, 0x200)]
      [(0x200, [0xEF, 0xCD, 0xAB, 0x89, 0x67, 0x45, 0x23, 0x01])]).map (fun t => t.readReg .r2)
      = some 0x0123456789ABCDEF := by decide
theorem test_push_two_bytes :
    (run [0, 0x02, 0x06, 0, 0, 0, 0, 0, 0, 0, 0, 0, 0, 0, 0, 0] [(.r0, 0x1122334455667788)] []).map (fun t =>
      (t.readReg .rsp, bytesAt t 0xFFE 2))
      = some (0xFFE, [0x88, 0x77]) := by decide
theorem test_push_rsp_stores_the_new_value :
    (run [0, 0x08, 0x06, 0, 0, 0, 0, 0, 0x07, 0, 0, 0, 0, 0, 0, 0] [] []).map (fun t => (t.readReg .rsp, bytesAt t
      0xFF8 8))
      = some (0xFF8, [0xF8, 0x0F, 0, 0, 0, 0, 0, 0]) := by decide
theorem test_pop_two_bytes :
    (run [0x01, 0x02, 0x06, 0, 0, 0, 0, 0, 0x01, 0, 0, 0, 0, 0, 0, 0] [(.rsp, 0xFFE), (.r1, 0xFFFFFFFFFFFFFFFF)]
      [(0xFFE, [0x34, 0x12])]).map (fun t => (t.readReg .r1, t.readReg .rsp))
      = some (0xFFFFFFFFFFFF1234, 0x1000) := by decide
theorem test_pop_rsp :
    (run [0x01, 0x08, 0x06, 0, 0, 0, 0, 0, 0x07, 0, 0, 0, 0, 0, 0, 0] [(.rsp, 0xFF8)] [(0xFF8, [0, 0x01, 0, 0, 0,
      0, 0, 0])]).map (fun t => t.readReg .rsp)
      = some 0x108 := by decide
theorem test_jmp_one_byte :
    (run [0x02, 0x01, 0x06, 0, 0, 0, 0, 0, 0, 0, 0, 0, 0, 0, 0, 0] [(.r0, 0x1F0)] []).map (fun t => t.readReg .rip)
      = some 0x100 := by decide
theorem test_jmp_memory_wraps :
    (run [0x02, 0x08, 0x09, 0, 0, 0, 0, 0, 0, 0x02, 0, 0, 0, 0, 0, 0] [] [(0x200, [0xF0, 0xFF, 0xFF, 0xFF, 0xFF,
      0xFF, 0xFF, 0xFF])]).map (fun t => t.readReg .rip)
      = some 0 := by decide
theorem test_call :
    (run [0x05, 0x08, 0x06, 0, 0, 0, 0, 0, 0, 0, 0, 0, 0, 0, 0, 0] [(.r0, 0x100)] []).map (fun t => (t.readReg
      .rsp, bytesAt t 0xFF8 8, t.readReg .rip))
      = some (0xFF8, [0x20, 0, 0, 0, 0, 0, 0, 0], 0x110) := by decide
theorem test_call_rsp :
    (run [0x05, 0x08, 0x06, 0, 0, 0, 0, 0, 0x07, 0, 0, 0, 0, 0, 0, 0] [] []).map (fun t => (t.readReg .rsp,
      t.readReg .rip))
      = some (0xFF8, 0x1008) := by decide
theorem test_ret :
    (run [0x06, 0x08, 0, 0, 0, 0, 0, 0] [(.rsp, 0xFF8)] [(0xFF8, [0x40])]).map (fun t => (t.readReg .rip, t.readReg
      .rsp))
      = some (0x40, 0x1000) := by decide
theorem test_ret_on_empty_stack :
    faultOf (run [0x06, 0x08, 0, 0, 0, 0, 0, 0] [] []) = some (.memoryFault, 0x1000) := by decide
theorem test_add_no_carry_out_of_the_byte :
    (run [0x07, 0x01, 0x06, 0x06, 0, 0, 0, 0, 0, 0, 0, 0, 0, 0, 0, 0, 0x01, 0, 0, 0, 0, 0, 0, 0] [(.r0,
      0x11223344556677FF), (.r1, 0x1)] []).map (fun t => t.readReg .r0)
      = some 0x1122334455667700 := by decide
theorem test_add_memory_to_memory :
    (run [0x07, 0x08, 0x0A, 0x0A, 0, 0, 0, 0, 0, 0, 0, 0, 0, 0, 0, 0, 0x01, 0, 0, 0, 0, 0, 0, 0] [(.r0, 0x200),
      (.r1, 0x208)] [(0x200, [0x01]), (0x208, [0x02])]).map (fun t => bytesAt t 0x200 9)
      = some [3, 0, 0, 0, 0, 0, 0, 0, 2] := by decide
theorem test_sub_wraps :
    (run [0x08, 0x08, 0x06, 0x06, 0, 0, 0, 0, 0, 0, 0, 0, 0, 0, 0, 0, 0x01, 0, 0, 0, 0, 0, 0, 0] [(.r1, 0x1)]
      []).map (fun t => (t.readReg .r0, t.readReg .rflag))
      = some (0xFFFFFFFFFFFFFFFF, 0) := by decide
theorem test_sub_two_bytes :
    (run [0x08, 0x02, 0x06, 0x05, 0, 0, 0, 0, 0, 0, 0, 0, 0, 0, 0, 0, 0x01, 0, 0, 0, 0, 0, 0, 0] [(.r0,
      0xFFFF0000)] []).map (fun t => t.readReg .r0)
      = some 0xFFFFFFFF := by decide
theorem test_mul_low_half :
    (run [0x09, 0x08, 0x06, 0x06, 0, 0, 0, 0, 0, 0, 0, 0, 0, 0, 0, 0, 0x01, 0, 0, 0, 0, 0, 0, 0] [(.r0,
      0xFFFFFFFFFFFFFFFF), (.r1, 0xFFFFFFFFFFFFFFFF)] []).map (fun t => t.readReg .r0)
      = some 1 := by decide
theorem test_mul_one_byte :
    (run [0x09, 0x01, 0x06, 0x06, 0, 0, 0, 0, 0, 0, 0, 0, 0, 0, 0, 0, 0x01, 0, 0, 0, 0, 0, 0, 0] [(.r0, 0x10),
      (.r1, 0x10)] []).map (fun t => t.readReg .r0)
      = some 0 := by decide
theorem test_div_is_unsigned :
    (run [0x0A, 0x08, 0x06, 0x06, 0, 0, 0, 0, 0, 0, 0, 0, 0, 0, 0, 0, 0x01, 0, 0, 0, 0, 0, 0, 0] [(.r0,
      0xFFFFFFFFFFFFFFF9), (.r1, 0x2)] []).map (fun t => t.readReg .r0)
      = some 0x7FFFFFFFFFFFFFFC := by decide
theorem test_div_zero_low_byte :
    faultOf (run [0x0A, 0x01, 0x06, 0x06, 0, 0, 0, 0, 0, 0, 0, 0, 0, 0, 0, 0, 0x01, 0, 0, 0, 0, 0, 0, 0] [(.r0,
      0x7FF), (.r1, 0x100)] []) = some (.arithmeticFault, 0) := by decide
theorem test_mod_is_unsigned :
    (run [0x0B, 0x08, 0x06, 0x06, 0, 0, 0, 0, 0, 0, 0, 0, 0, 0, 0, 0, 0x01, 0, 0, 0, 0, 0, 0, 0] [(.r0,
      0xFFFFFFFFFFFFFFFF), (.r1, 0xA)] []).map (fun t => t.readReg .r0)
      = some 5 := by decide
theorem test_mod_by_zero :
    faultOf (run [0x0B, 0x08, 0x06, 0x06, 0, 0, 0, 0, 0, 0, 0, 0, 0, 0, 0, 0, 0x01, 0, 0, 0, 0, 0, 0, 0] [(.r0,
      0x7)] []) = some (.arithmeticFault, 0) := by decide
theorem test_inc_memory :
    (run [0x0C, 0x08, 0x0A, 0, 0, 0, 0, 0, 0, 0, 0, 0, 0, 0, 0, 0] [(.r0, 0x200)] [(0x200, [0xFF, 0xFF, 0xFF, 0xFF,
      0xFF, 0xFF, 0xFF, 0xFF])]).map (fun t => bytesAt t 0x200 9)
      = some [0, 0, 0, 0, 0, 0, 0, 0, 0] := by decide
theorem test_inc_one_byte :
    (run [0x0C, 0x01, 0x06, 0, 0, 0, 0, 0, 0, 0, 0, 0, 0, 0, 0, 0] [(.r0, 0x1FF)] []).map (fun t => t.readReg .r0)
      = some 0x100 := by decide
theorem test_dec_wraps :
    (run [0x0D, 0x08, 0x06, 0, 0, 0, 0, 0, 0, 0, 0, 0, 0, 0, 0, 0] [] []).map (fun t => t.readReg .r0)
      = some 0xFFFFFFFFFFFFFFFF := by decide
theorem test_dec_two_bytes :
    (run [0x0D, 0x02, 0x06, 0, 0, 0, 0, 0, 0, 0, 0, 0, 0, 0, 0, 0] [(.r0, 0x50000)] []).map (fun t => t.readReg .r0)
      = some 0x5FFFF := by decide
theorem test_cmp_sign_extends :
    (run [0x0E, 0x01, 0x06, 0x06, 0, 0, 0, 0, 0, 0, 0, 0, 0, 0, 0, 0, 0x01, 0, 0, 0, 0, 0, 0, 0] [(.r0, 0x80),
      (.r1, 0x7F)] []).map (fun t => (t.readReg .rflag, t.readReg .r0))
      = some (0xFFFFFFFFFFFFFF01, 0x80) := by decide
theorem test_cmp_overflows :
    (run [0x0E, 0x08, 0x06, 0x06, 0, 0, 0, 0, 0, 0, 0, 0, 0, 0, 0, 0, 0x01, 0, 0, 0, 0, 0, 0, 0] [(.r0,
      0x8000000000000000), (.r1, 0x1)] []).map (fun t => t.readReg .rflag)
      = some 0x7FFFFFFFFFFFFFFF := by decide
theorem test_print_one_byte :
    (run [0x15, 0x01, 0x06, 0, 0, 0, 0, 0, 0, 0, 0, 0, 0, 0, 0, 0] [(.r0, 0x1FF)] []).map (fun t => (t.output,
      t.output.flatMap printedText))
      = some ([255], ['2', '5', '5', '\n']) := by decide
theorem test_print_out_of_bounds :
    faultOf (run [0x15, 0x08, 0x09, 0, 0, 0, 0, 0, 0, 0x20, 0, 0, 0, 0, 0, 0] [] []) = some (.memoryFault, 0x2000)
      := by decide
theorem test_exit :
    (run [0x03, 0x08, 0, 0, 0, 0, 0, 0] [] []).map (fun t => (t.status, t.readReg .rip))
      = some (.halted, 0x18) := by decide

/-- The table of 95_test_vectors.md section 3.2: which of je, jne, jl, jle, jg, jge are taken for a value of `RFLAG`. -/
def taken (flag : Word) : List (Option Word) :=
  [0x0F, 0x10, 0x11, 0x13, 0x12, 0x14].map (fun op =>
    (run [op, 0x08, 0x05, 0, 0, 0, 0, 0, 0, 0x01, 0, 0, 0, 0, 0, 0] [(.rflag, flag)] []).map (fun t => t.readReg .rip))
theorem test_jumps_zero : taken 0 = [some 0x110, some 0x20, some 0x20, some 0x110, some 0x20, some 0x110] := by decide
theorem test_jumps_positive :
    taken 1 = [some 0x20, some 0x110, some 0x20, some 0x20, some 0x110, some 0x110] := by decide
theorem test_jumps_least :
    taken 0x8000000000000000 = [some 0x20, some 0x110, some 0x110, some 0x110, some 0x20, some 0x20] := by decide
theorem test_jumps_greatest :
    taken 0x7FFFFFFFFFFFFFFF = [some 0x20, some 0x110, some 0x20, some 0x20, some 0x110, some 0x110] := by decide

theorem test_untaken_jump_does_not_read_its_target :
    (run [0x0F, 0x08, 0x09, 0, 0, 0, 0, 0, 0, 0x20, 0, 0, 0, 0, 0, 0] [(.rflag, 0x1)] []).map (fun t => (t.status,
      t.readReg .rip))
      = some (.running, 0x20) := by decide

/-! ### Faults and the edges of the arena -/

theorem test_write_to_immediate_before_slot_1 :
    faultOf (run [0x04, 0x08, 0x05, 0x06, 0, 0, 0, 0, 0, 0, 0, 0, 0, 0, 0, 0, 0x0A, 0, 0, 0, 0, 0, 0, 0] [] []) =
      some (.writeToImmediate, 0) := by decide
theorem test_slot_0_register_before_slot_1 :
    faultOf (run [0x04, 0x08, 0x06, 0x06, 0, 0, 0, 0, 0x0B, 0, 0, 0, 0, 0, 0, 0, 0x0A, 0, 0, 0, 0, 0, 0, 0] [] [])
      = some (.invalidRegister, 11) := by decide
theorem test_upper_payload_bytes_count :
    faultOf (run [0x0C, 0x08, 0x06, 0, 0, 0, 0, 0, 0, 0x01, 0, 0, 0, 0, 0, 0] [] []) = some (.invalidRegister,
      0x100) := by decide
theorem test_sign_before_second_register :
    faultOf (run [0x0C, 0x08, 0x1A, 0, 0, 0, 0, 0, 0, 0x01, 0x0B, 0x03, 0, 0, 0, 0] [] []) = some
      (.invalidOperandType, 0x1A) := by decide
theorem test_effective_address_wraps :
    faultOf (run [0x0C, 0x08, 0x1A, 0, 0, 0, 0, 0, 0, 0x01, 0, 0, 0xF8, 0xFF, 0xFF, 0xFF] [] []) = some
      (.memoryFault, 0xFFFFFFFFFFFFFFF8) := by decide
theorem test_effective_address_subtracts :
    (run [0x0C, 0x08, 0x1A, 0, 0, 0, 0, 0, 0, 0x01, 0x01, 0x02, 0, 0, 0, 0] [(.r0, 0x100), (.r1, 0x24)] []).map
      (fun t => bytesAt t 0xDB 3)
      = some [0, 1, 0] := by decide
theorem test_load_past_the_end :
    faultOf (run [0x04, 0x08, 0x06, 0x09, 0, 0, 0, 0, 0, 0, 0, 0, 0, 0, 0, 0, 0xF9, 0x0F, 0, 0, 0, 0, 0, 0] [] [])
      = some (.memoryFault, 0xFF9) := by decide
theorem test_load_at_the_end :
    (run [0x04, 0x01, 0x06, 0x09, 0, 0, 0, 0, 0, 0, 0, 0, 0, 0, 0, 0, 0xFF, 0x0F, 0, 0, 0, 0, 0, 0] [] [(0xFFF,
      [0x7F])]).map (fun t => t.readReg .r0)
      = some 0x7F := by decide
/-- A record may end exactly at the arena's top; a header that does not fit faults at `RIP` (section 2.2). -/
theorem test_fetch_at_the_top :
    (nextOf (step (machine [(.rip, 0xFF8)] (holding [(0xFF8, [0x03, 0x08])])))).map (fun t => (t.status, t.readReg .rip))
      = some (.halted, 0x1000) := by decide
theorem test_fetch_past_the_top :
    faultOf (nextOf (step (machine [(.rip, 0xFFC)] []))) = some (.memoryFault, 0xFFC) := by decide
theorem test_fetch_payload_past_the_top :
    faultOf (nextOf (step (machine [(.rip, 0xFF0)] (holding [(0xFF0, [0x04, 0x08, 0x06, 0x05])]))))
      = some (.memoryFault, 0x1000) := by decide
/-- The codes of R240. -/
theorem test_fault_codes :
    [FaultCause.decodeError, .invalidRegister, .arithmeticFault, .invalidSize, .invalidOperandType, .memoryFault,
      .writeToImmediate].map FaultCause.code = [1, 2, 3, 4, 5, 6, 7] := by decide
/-- A halted and a faulted machine have no step (R158). -/
theorem test_stuck :
    step ((machine [] []).setStatus .halted) = .fault .afterHalt ∧
      step ((machine [] []).setStatus .faulted) = .fault .afterFault := ⟨rfl, rfl⟩

/-! ### Configuration and memory -/

/-- The values of R6. -/
theorem test_config :
    config.xlen = 64 ∧ config.recHeaderLen = 8 ∧ config.payloadLen = 8 ∧ config.imageHeaderLen = 16 ∧
      config.codeBase = 16 ∧ legalArenaSize config.arenaSize = true ∧
      config.nopcodes = 22 ∧ config.nregs = 10 ∧ config.sizes.map Size.bytes = [1, 2, 4, 8] ∧
      config.defaultSize = .b8 ∧ config.byteOrder = .little := by decide
/-- The opcode bytes are `0x00` to `0x15` in the table's order (R95) and the register numbers 0 to 9 in theirs (R21). -/
theorem test_numberings :
    (config.opcodes.map config.opcodeByte).map BitVec.toNat = List.range 22 ∧
      config.registers.map config.registerNumber = List.range 10 ∧
      config.opcodes.map (fun o => (mnemonicOf o).length) = [4, 3, 3, 4, 3, 4, 3, 3, 3, 3, 3, 3, 3, 3, 3, 2, 3, 2, 2, 3, 3, 5] :=
  by decide
/-- Writing what an unlisted offset reads as removes the entry, so equal contents are equal lists (log entry 3). -/
theorem test_memory_canonical :
    (Memory.writeBytes [] 5 [1, 2, 3]).writeByte 6 0 = [(5, 1), (7, 3)] ∧ Memory.wf [(5, 1), (7, 3)] = true ∧
      Memory.wf [(7, 3), (5, 1)] = false ∧ Memory.wf [(5, 0)] = false := by decide

/-! ### Reset (section 3.5) and fetching the placed instruction -/

/-- The model's reset state is the load of the empty image (log entry 2). -/
theorem test_reset_is_the_empty_load :
    resetWith config.arenaSize ⟨[], .decodeError, 0⟩ (List.replicate 16 0) = .ok State.reset := by decide
theorem test_reset_unaligned_code :
    (match resetWith 4096 ⟨[], .decodeError, 0⟩ (13 :: List.replicate 28 0) with
      | .ok s => some (s.readReg .rip, s.readReg .rsp, s.readReg .rmem)
      | .error _ => none) = some (16, 4096, 32) := by decide
theorem test_reset_entry :
    (match resetWith 4096 ⟨[], .decodeError, 0⟩ ([8, 0, 0, 0, 0, 0, 0, 0, 0x20, 0, 0, 0, 0, 0, 0, 0] ++ encode (.exit .b8)) with
      | .ok s => some (s.readReg .rip, s.readReg .rmem, s.readByte 16, s.readByte 17)
      | .error _ => none) = some (48, 24, 3, 8) := by decide
theorem test_reset_short_header :
    resetWith 4096 ⟨[], .decodeError, 0⟩ (List.replicate 12 0) = .error .shorterThanHeader := by decide
theorem test_reset_short_code :
    resetWith 4096 ⟨[], .decodeError, 0⟩ (100 :: List.replicate 65 0) = .error .shorterThanCode := by decide
theorem test_reset_code_exceeds_arena :
    resetWith 24 ⟨[], .decodeError, 0⟩ (9 :: List.replicate 24 0) = .error .codeExceedsArena := by decide
theorem test_first_instruction_after_reset :
    (nextOf (step (State.reset.withFetchWord 64 0x000000000006080C))).map (fun t => (t.readReg .r0, t.readReg .rip))
      = some (1, 0x20) := by decide

/-! ### The assembler (sections 1 and 4, R110 to R125) -/

/-- S5: a forward jump. -/
theorem test_assemble_forward_jump :
    assemble "jmp skip\nmov r0 1 # never\n\nskip:\n  mov r0 2\nexit".toList
      = .ok (makeImage (encode (.jmp .b8 (.imm 40)) ++ encode (.mov .b8 (.reg 0) (.imm 1)) ++
          encode (.mov .b8 (.reg 0) (.imm 2)) ++ encode (.exit .b8)) 0) := by decide
/-- S7: an indexed operand, and a label `start` that is the entry point. -/
theorem test_assemble_indexed :
    assemble "ret\nstart:\nmov [r0*2+r1-4] -1".toList
      = .ok ([32, 0, 0, 0, 0, 0, 0, 0, 8, 0, 0, 0, 0, 0, 0, 0] ++ [0x06, 0x08, 0, 0, 0, 0, 0, 0] ++
          [0x04, 0x08, 0x1A, 0x05, 0, 0, 0, 0, 0x00, 0x02, 0x01, 0x01, 0xFC, 0xFF, 0xFF, 0xFF,
            0xFF, 0xFF, 0xFF, 0xFF, 0xFF, 0xFF, 0xFF, 0xFF]) := by decide
theorem test_assemble_undefined_label : assemble "jmp 5".toList = .error (.undefinedLabel "5".toList) := by decide
theorem test_assemble_comma : assemble "push 1,".toList = .error (.malformedOperand "1,".toList) := by decide
/-- C3: a comma is refused in the label name of a jump and of a label line too. -/
theorem test_assemble_comma_in_label :
    assemble "jmp skip,\nskip,:".toList = .error (.malformedOperand "skip,".toList) ∧
      assemble "skip,:".toList = .error (.malformedOperand "skip,:".toList) := by decide
theorem test_assemble_operand_count : assemble "ret 5".toList = .error (.operandCountMismatch "ret".toList) := by decide
theorem test_assemble_upper_case : assemble "MOV r0 1".toList = .error (.unknownMnemonic "MOV".toList) := by decide
theorem test_assemble_unknown_register : assemble "inc r6".toList = .error (.unknownRegister "r6".toList) := by decide
/-- The duplicate label stands before the line with the unknown mnemonic (log entry 12). -/
theorem test_assemble_duplicate_label :
    assemble "a:\na:\nnop".toList = .error (.duplicateLabel "a".toList) := by decide
/-- R106: no assembler writes register number 10, or padding that is not 0. -/
theorem test_image_form :
    wellFormedImage (makeImage (encode (.inc .b8 (.reg 9))) 0) = true ∧
      wellFormedImage (makeImage (encode (.inc .b8 (.reg 10))) 0) = false ∧
      wellFormedImage (makeImage [0x03, 0x08, 0, 0, 1, 0, 0, 0] 0) = false ∧
      wellFormedImage (makeImage [0x03, 0x08, 0, 0, 0, 0, 0, 0] 4) = false := by decide

/-! ### Witnesses: the hypotheses of the obligations are met -/

/-- The machine of the witnesses: `R0 = 0x200`, `R1 = 3`, `R2 = 0xFF8` (the last word of the arena), `RSP = 0x800`. -/
def w : State := machine [(.r0, 0x200), (.r1, 3), (.r2, 0xFF8), (.rsp, 0x800)] (holding [(0x200, [7]), (0x800, [0x55])])

/-- The shared hypotheses of the statements about an instruction with a written and a read operand. -/
def MeetsTwo (n : Size) (d src : Operand) (s : State) (l m : Loc) : Prop :=
  resolve d (advance 24 s) = .ok l ∧ (∀ v, l ≠ .imm v) ∧ resolve src (advance 24 s) = .ok m ∧
    l.accessible n s = true ∧ m.accessible n s = true

/-- The shared hypotheses of the statements about an instruction with one written operand. -/
def MeetsOne (n : Size) (o : Operand) (s : State) (l : Loc) : Prop :=
  resolve o (advance 16 s) = .ok l ∧ (∀ v, l ≠ .imm v) ∧ l.accessible n s = true

theorem meets_two_registers : MeetsTwo .b1 (.reg 0) (.reg 1) w (.reg .r0) (.reg .r1) :=
  ⟨rfl, by simp, rfl, rfl, rfl⟩
theorem meets_two_last_word : MeetsTwo .b8 (.regInd 2) (.imm 5) w (.mem 0xFF8) (.imm 5) := ⟨rfl, by simp, rfl, rfl, rfl⟩
theorem meets_two_rip : MeetsTwo .b8 (.reg 6) (.regInd 2) w (.reg .rip) (.mem 0xFF8) := ⟨rfl, by simp, rfl, rfl, rfl⟩

theorem witness_MovCopiesItsSource : MeetsTwo .b8 (.regInd 2) (.imm 5) w (.mem 0xFF8) (.imm 5) := meets_two_last_word
theorem witness_AddWritesTheSum : MeetsTwo .b8 (.regInd 2) (.imm 5) w (.mem 0xFF8) (.imm 5) := meets_two_last_word
theorem witness_SubWritesTheDifference : MeetsTwo .b1 (.reg 0) (.reg 1) w (.reg .r0) (.reg .r1) := meets_two_registers
theorem witness_MulWritesTheLowProduct : MeetsTwo .b8 (.reg 6) (.regInd 2) w (.reg .rip) (.mem 0xFF8) := meets_two_rip
theorem witness_DivAndModWriteQuotientAndRemainder :
    MeetsTwo .b1 (.reg 0) (.reg 1) w (.reg .r0) (.reg .r1) ∧ (advance 24 w).valueAt (.reg .r1) .b1 ≠ 0 :=
  ⟨meets_two_registers, by decide⟩
/-- Clause 1: the divisor's low byte is 0. Clause 2: the divisor is a memory operand one byte too far. -/
theorem witness_DivisionByZeroFaults :
    MeetsTwo .b1 (.reg 1) (.reg 0) w (.reg .r1) (.reg .r0) ∧ (advance 24 w).valueAt (.reg .r0) .b1 = 0 ∧
      resolve (.abs 0xFF9) (advance 24 w) = .ok (.mem 0xFF9) ∧
      ¬ ((Loc.reg .r1).accessible .b8 w = true ∧ (Loc.mem 0xFF9).accessible .b8 w = true) :=
  ⟨⟨rfl, by simp, rfl, rfl, rfl⟩, by decide, rfl, by decide⟩
theorem witness_CmpWritesTheSignedDifference :
    resolve (.imm 3) (advance 24 w) = .ok (.imm 3) ∧ resolve (.regInd 2) (advance 24 w) = .ok (.mem 0xFF8) ∧
      (Loc.imm 3).accessible .b8 w = true ∧ (Loc.mem 0xFF8).accessible .b8 w = true := ⟨rfl, rfl, rfl, rfl⟩
theorem witness_CmpOrdersSignedOperands :
    resolve (.imm 3) (advance 24 w) = .ok (.imm 3) ∧ resolve (.regInd 2) (advance 24 w) = .ok (.mem 0xFF8) ∧
      (Loc.imm 3).accessible .b4 w = true ∧ (Loc.mem 0xFF8).accessible .b4 w = true ∧
      exec (.cmp .b4 (.imm 3) (.regInd 2)) w = .next ((advance 24 w).writeReg .rflag 3) := ⟨rfl, rfl, rfl, rfl, rfl⟩
theorem witness_IncAndDecStepByOne : MeetsOne .b8 (.regInd 2) w (.mem 0xFF8) := ⟨rfl, by simp, rfl⟩
theorem witness_PopLoadsThenMovesTheStackPointer :
    MeetsOne .b8 (.reg 7) w (.reg .rsp) ∧ w.inBounds (w.readReg .rsp) Size.b8.bytes = true :=
  ⟨⟨rfl, by simp, rfl⟩, by decide⟩

/-- A machine with one register set differs from it in that register alone. -/
theorem onlyReg_writeReg (s : State) (r : Reg) (v : Word) : OnlyReg s (s.writeReg r v) r v :=
  ⟨by simp, fun x hx => readReg_writeReg_ne s r x v (by simpa using hx), fun a => readByte_writeReg s r v a, by simp, by simp,
    by simp, by simp, by simp⟩

/-- The first push of a run: `RSP` is the arena's size, and the store takes its last 8 bytes. -/
theorem witness_PushStoresBelowTheStackPointer :
    resolve (.reg 7) (advance 16 (machine [] [])) = .ok (.reg .rsp) ∧
      (Loc.reg .rsp).accessible .b8 (machine [] []) = true ∧
      (0xFF8 : Word) = (machine [] []).readReg .rsp - BitVec.ofNat 64 Size.b8.bytes ∧
      (machine [] []).inBounds 0xFF8 Size.b8.bytes = true ∧
      OnlyReg (advance 16 (machine [] [])) ((advance 16 (machine [] [])).writeReg .rsp 0xFF8) .rsp 0xFF8 :=
  ⟨rfl, rfl, by decide, by decide, onlyReg_writeReg _ _ _⟩
theorem witness_CallPushesReturnAddressAndJumps :
    resolve (.imm 0x90) (advance 16 (machine [] [])) = .ok (.imm 0x90) ∧
      (Loc.imm 0x90).accessible .b8 (machine [] []) = true ∧ (0xFF8 : Word) = (machine [] []).readReg .rsp - 8 ∧
      (machine [] []).inBounds 0xFF8 8 = true ∧
      OnlyReg (advance 16 (machine [] [])) ((advance 16 (machine [] [])).writeReg .rsp 0xFF8) .rsp 0xFF8 :=
  ⟨rfl, rfl, by decide, by decide, onlyReg_writeReg _ _ _⟩
theorem witness_RetPopsTheReturnAddress : w.inBounds (w.readReg .rsp) 8 = true := by decide
theorem witness_JmpGoesToTargetPlusHeader :
    resolve (.regInd 2) (advance 16 w) = .ok (.mem 0xFF8) ∧ (Loc.mem 0xFF8).accessible .b8 w = true := ⟨rfl, rfl⟩
/-- All clauses of each of the six: `RFLAG` is 0, 1 and the least signed number. -/
theorem witness_ConditionalJumpsTestSignedRflag :
    resolve (.regInd 2) (advance 16 w) = .ok (.mem 0xFF8) ∧ (Loc.mem 0xFF8).accessible .b8 (advance 16 w) = true ∧
      (w.readReg .rflag).toInt = 0 ∧ ((w.writeReg .rflag 1).readReg .rflag).toInt = 1 ∧
      ((w.writeReg .rflag 0x8000000000000000).readReg .rflag).toInt = -9223372036854775808 ∧
      resolve (.regInd 2) (advance 16 (w.writeReg .rflag 1)) = .ok (.mem 0xFF8) ∧
      resolve (.regInd 2) (advance 16 (w.writeReg .rflag 0x8000000000000000)) = .ok (.mem 0xFF8) ∧
      resolve (.abs 0xFF9) (advance 16 w) = .ok (.mem 0xFF9) ∧ w.inBounds 0xFF9 8 = false :=
  ⟨rfl, rfl, by decide, by decide, by decide, rfl, rfl, rfl, by decide⟩
theorem witness_PrintAppendsTheValue :
    resolve (.regInd 2) (advance 16 w) = .ok (.mem 0xFF8) ∧ (Loc.mem 0xFF8).accessible .b8 w = true := ⟨rfl, rfl⟩

/-- Representable instructions at the ends of every field's range; bytes that decode with and without zero ignored bits. -/
theorem witness_DecodeEncodeRoundTrip :
    WellFormed (.mov .b1 (.indexed ⟨9, 255, .sub 9, 0x80000000⟩) (.indexedBare ⟨0, 0, .none, 0x7FFFFFFF⟩)) ∧
      decode [0x0C, 0x08, 0x06, 0, 0, 0, 0, 0, 9, 0, 0, 0, 0, 0, 0, 0] = .ok (.inc .b8 (.reg 9), []) ∧
      decode [0x0C, 0x08, 0x06, 1, 0, 0, 0, 0, 9, 0, 0, 0, 0, 0, 0, 0] = .ok (.inc .b8 (.reg 9), []) := by decide
theorem witness_AbsentTagsAndPaddingAreIgnored :
    (Instr.exit .b8).arity = 0 ∧ (Instr.push .b8 (.imm 0)).arity = 1 ∧ (Instr.cmp .b8 (.imm 0) (.imm 0)).arity = 2 := by
  decide
theorem witness_LegalTagsAreTheSix :
    operandOf 0x16 0x000000FF00000A00 = some (.indexedBare ⟨0, 0x0A, .none, 0xFF⟩) := by decide
theorem witness_RegisterNumbersAreChecked :
    (10 : Word).toNat ≥ 10 ∧ (9 : Word).toNat < 10 ∧ (⟨10, 1, .none, 0⟩ : Indexed).base.toNat ≥ 10 ∧
      (⟨9, 1, .sub 10, 0⟩ : Indexed).base.toNat < 10 ∧ (10 : Byte).toNat ≥ 10 ∧
      (⟨9, 1, .sub 10, 0⟩ : Indexed).second = .sub 10 ∧ (⟨9, 1, .add 255, 0⟩ : Indexed).second = .add 255 := by decide
theorem witness_IndexedOperandsResolveToExactAddress :
    (⟨9, 255, .sub 9, 0x80000000⟩ : Indexed).wf = true ∧ (⟨0, 0, .none, 0⟩ : Indexed).wf = true ∧
      (⟨10, 1, .none, 0⟩ : Indexed).base.toNat ≥ 10 ∧ (⟨9, 1, .illegal 3 10, 0⟩ : Indexed).base.toNat < 10 ∧
      (⟨9, 1, .illegal 3 10, 0⟩ : Indexed).second = .illegal 3 10 ∧ (10 : Byte).toNat ≥ 10 ∧
      (⟨9, 1, .sub 10, 0⟩ : Indexed).second = .sub 10 := by decide
/-- The last word of the arena, and one byte further. -/
theorem witness_ReadLocReadsLowBytes :
    (0xFF8 : Word).toNat + Size.b8.bytes ≤ w.arenaSize ∧ ¬ (0xFF9 : Word).toNat + Size.b8.bytes ≤ w.arenaSize := by decide
theorem witness_WriteLocReplacesLowBytes :
    (∀ x, Loc.mem 0xFF8 ≠ .imm x) ∧ (Loc.mem 0xFF8).accessible .b8 w = true ∧ (∀ x, Loc.reg .rip ≠ .imm x) ∧
      (Loc.reg .rip).accessible .b1 w = true ∧ ¬ (0xFF9 : Word).toNat + Size.b8.bytes ≤ w.arenaSize :=
  ⟨by simp, rfl, by simp, rfl, by decide⟩
theorem witness_MemReadChecksBoundsAndIsLittleEndian :
    legalArenaSize w.arenaSize = true ∧ 8 ∈ [1, 2, 4, 8] ∧ (0xFF8 : Word).toNat ≤ w.arenaSize - 8 ∧
      ¬ (0xFF9 : Word).toNat ≤ w.arenaSize - 8 ∧ (0xFFF : Word).toNat ≤ w.arenaSize - 1 := by decide
theorem witness_MemWriteSetsItsBytesOnly :
    legalArenaSize w.arenaSize = true ∧ 4 ∈ [1, 2, 4, 8] ∧ (0xFFC : Word).toNat ≤ w.arenaSize - 4 ∧
      ¬ (0xFFD : Word).toNat ≤ w.arenaSize - 4 := by decide
theorem witness_MixedWidthAccessesAgree :
    4 + 4 ≤ 8 ∧ 4 ∈ [1, 2, 4, 8] ∧ w.arenaSize < 2 ^ 64 ∧
      memWrite 0xFF8 8 (0x1122334455667788 : Word).toNat w = .ok (w.store 0xFF8 8 (0x1122334455667788 : Word).toNat) :=
  ⟨by decide, by decide, by decide, rfl⟩
theorem witness_CanonicalMemoryIsUnique :
    Memory.wf [(5, 1), (7, 3)] = true ∧ ∀ a, Memory.readByte [(5, 1), (7, 3)] a = Memory.readByte [(5, 1), (7, 3)] a :=
  ⟨by decide, fun _ => rfl⟩

/-- A machine with the record of `inc r0` at `RIP`. -/
def atInc : State := machine [] (holding [(16, [0x0C, 0x08, 0x06, 0, 0, 0, 0, 0, 0, 0, 0, 0, 0, 0, 0, 0])])

theorem witness_StepRunsTheDecodedInstruction :
    atInc.status = .running ∧ decode (fetchWindow atInc) = .ok (.inc .b8 (.reg 0), List.replicate 8 0) := by decide
/-- The record ends at the arena's end. -/
theorem witness_StepRunsTheRecordAtRip :
    (machine [(.rip, 0xFF8)] (holding [(0xFF8, [0x03, 0x08])])).status = .running ∧ WellFormed (.exit .b8) ∧
      ((machine [(.rip, 0xFF8)] (holding [(0xFF8, [0x03, 0x08])])).readReg .rip).toNat + (encode (.exit .b8)).length
        ≤ (machine [(.rip, 0xFF8)] (holding [(0xFF8, [0x03, 0x08])])).arenaSize ∧
      ∀ k, k < (encode (.exit .b8)).length →
        (machine [(.rip, 0xFF8)] (holding [(0xFF8, [0x03, 0x08])])).readByte
            (((machine [(.rip, 0xFF8)] (holding [(0xFF8, [0x03, 0x08])])).readReg .rip).toNat + k)
          = (encode (.exit .b8)).getD k 0 := by decide
theorem witness_IllegalOpcodeRaisesDecodeError :
    (machine [] (holding [(16, [0x16])])).status = .running ∧
      ((machine [] (holding [(16, [0x16])])).readReg .rip).toNat + 8 ≤ (machine [] (holding [(16, [0x16])])).arenaSize ∧
      0x16 ≤ ((machine [] (holding [(16, [0x16])])).readByte
        ((machine [] (holding [(16, [0x16])])).readReg .rip).toNat).toNat := by decide
/-- Size 0, the byte an empty arena gives, and size 3. -/
theorem witness_IllegalSizeRaisesInvalidSize :
    (machine [] (holding [(16, [0x03])])).status = .running ∧
      ((machine [] (holding [(16, [0x03])])).readReg .rip).toNat + recordLength (Instr.exit .b8).arity
        ≤ (machine [] (holding [(16, [0x03])])).arenaSize ∧
      (machine [] (holding [(16, [0x03])])).readByte 16 = opcodeByte (.exit .b8) ∧
      ((machine [] (holding [(16, [0x03])])).readByte 17).toNat ∉ [1, 2, 4, 8] ∧
      ((machine [] (holding [(16, [0x03, 0x03])])).readByte 17).toNat ∉ [1, 2, 4, 8] := by decide
/-- Tag `0x07` in slot 0 of `inc`, and in slot 1 of `mov`. -/
theorem witness_IllegalTagRaisesInvalidOperandType :
    (machine [] (holding [(16, [0x0C, 0x08, 0x07])])).status = .running ∧
      16 + recordLength (Instr.mov .b8 (.imm 0) (.imm 0)).arity ≤ (machine [] []).arenaSize ∧
      (machine [] (holding [(16, [0x0C, 0x08, 0x07])])).readByte 16 = opcodeByte (.inc .b8 (.imm 0)) ∧
      ((machine [] (holding [(16, [0x0C, 0x08, 0x07])])).readByte 17).toNat ∈ [1, 2, 4, 8] ∧
      (machine [] (holding [(16, [0x0C, 0x08, 0x07])])).readByte 18 = 0x07 ∧ 1 ≤ (Instr.inc .b8 (.imm 0)).arity ∧
      (0x07 : Byte) ∉ [(0x05 : Byte), 0x09, 0x06, 0x0A, 0x1A, 0x16] ∧
      (machine [] (holding [(16, [0x04, 0x08, 0x06, 0x07])])).readByte 16 = opcodeByte (.mov .b8 (.imm 0) (.imm 0)) ∧
      (Instr.mov .b8 (.imm 0) (.imm 0)).arity = 2 ∧
      (machine [] (holding [(16, [0x04, 0x08, 0x06, 0x07])])).readByte 18 = 0x06 ∧
      (machine [] (holding [(16, [0x04, 0x08, 0x06, 0x07])])).readByte 19 = 0x07 := by decide
/-- A header that ends one byte past the arena; a payload of slot 0, and of slot 1, that does not fit. -/
theorem witness_TruncatedRecordRaisesMemoryFault :
    (machine [(.rip, 0xFF9)] []).status = .running ∧ ¬ (0xFF9 : Word).toNat + 8 ≤ (machine [] []).arenaSize ∧
      (machine [(.rip, 0xFF8)] (holding [(0xFF8, [0x0C])])).readByte (0xFF8 : Word).toNat = opcodeByte (.inc .b8 (.imm 0)) ∧
      (0xFF8 : Word).toNat + 8 ≤ (machine [] []).arenaSize ∧ ¬ (0xFF8 : Word).toNat + 16 ≤ (machine [] []).arenaSize ∧
      (machine [(.rip, 0xFF0)] (holding [(0xFF0, [0x04])])).readByte (0xFF0 : Word).toNat
        = opcodeByte (.mov .b8 (.imm 0) (.imm 0)) ∧
      (0xFF0 : Word).toNat + 16 ≤ (machine [] []).arenaSize ∧ ¬ (0xFF0 : Word).toNat + 24 ≤ (machine [] []).arenaSize := by
  decide

/-- Clause 1: register 10 in slot 0. Clause 2: slot 0 resolves and slot 1 does not. -/
theorem witness_SlotFaultsAreTakenInOrder :
    (Instr.inc .b8 (.reg 10)).operands.head? = some (.reg 10) ∧
      resolve (.reg 10) (advanced (.inc .b8 (.reg 10)) w) = .error ⟨.invalidRegister, 10⟩ ∧
      (Instr.mov .b8 (.reg 0) (.reg 10)).operands = [.reg 0, .reg 10] ∧
      resolve (.reg 0) (advanced (.mov .b8 (.reg 0) (.reg 10)) w) = .ok (.reg .r0) ∧
      (∀ v, writtenOperand (.mov .b8 (.reg 0) (.reg 10)) = some (.reg 0) → Loc.reg .r0 ≠ .imm v) ∧
      resolve (.reg 10) (advanced (.mov .b8 (.reg 0) (.reg 10)) w) = .error ⟨.invalidRegister, 10⟩ :=
  ⟨rfl, rfl, rfl, rfl, by simp, rfl⟩
/-- The address one past the last at which 8 bytes fit, as a source, as a destination, in slot 0 and in slot 1. -/
theorem witness_MemoryOperandsOutOfBoundsFault :
    resolve (.abs 0xFF9) (advance 24 w) = .ok (.mem 0xFF9) ∧ w.inBounds 0xFF9 Size.b8.bytes = false ∧
      resolve (.reg 0) (advance 24 w) = .ok (.reg .r0) ∧ (∀ v, Loc.reg .r0 ≠ .imm v) ∧ (∀ v, Loc.mem 0xFF9 ≠ .imm v) ∧
      (Loc.reg .r0).accessible .b8 w = true ∧ Instr.cmp ∈ [Instr.add, Instr.sub, Instr.mul, Instr.div, Instr.mod, Instr.cmp] ∧
      Instr.jmp ∈ [Instr.inc, Instr.dec, Instr.print, Instr.jmp] ∧ resolve (.abs 0xFF9) (advance 16 w) = .ok (.mem 0xFF9) :=
  ⟨rfl, by decide, rfl, by simp, by simp, rfl, by simp, by simp, rfl⟩
/-- `RSP` is 0 for the stores and the arena's size for the loads; a memory operand one byte too far. -/
theorem witness_StackInstructionsFaultInOrder :
    resolve (.abs 0xFF9) (advance 16 w) = .ok (.mem 0xFF9) ∧ w.inBounds 0xFF9 Size.b8.bytes = false ∧
      w.inBounds (w.readReg .rsp) Size.b8.bytes = true ∧ w.inBounds (w.readReg .rsp - 8) 8 = true ∧
      resolve (.reg 0) (advance 16 (machine [(.rsp, 0)] [])) = .ok (.reg .r0) ∧
      (Loc.reg .r0).accessible .b8 (machine [(.rsp, 0)] []) = true ∧
      (machine [(.rsp, 0)] []).inBounds ((machine [(.rsp, 0)] []).readReg .rsp - BitVec.ofNat 64 Size.b8.bytes) Size.b8.bytes
        = false ∧
      (machine [(.rsp, 0)] []).inBounds ((machine [(.rsp, 0)] []).readReg .rsp - 8) 8 = false ∧
      (∀ v, Loc.reg .r0 ≠ .imm v) ∧ (machine [] []).inBounds ((machine [] []).readReg .rsp) Size.b8.bytes = false :=
  ⟨rfl, by decide, by decide, by decide, rfl, rfl, by decide, by decide, by simp, by decide⟩

/-- `mov r0 r1` leaves `RSP` and `RFLAG` alone, which it neither names nor moves. -/
theorem witness_RegistersChangeOnlyWhenNamed :
    exec (.mov .b8 (.reg 0) (.reg 1)) w = .next ((advance 24 w).writeReg .r0 3) ∧ Reg.rsp ≠ .rip ∧
      ¬ namesDestination (.mov .b8 (.reg 0) (.reg 1)) .rsp ∧
      (Reg.rsp = .rsp → movesStackPointer (.mov .b8 (.reg 0) (.reg 1)) = false) ∧
      (Reg.rsp = .rflag → isCmp (.mov .b8 (.reg 0) (.reg 1)) = false) :=
  ⟨rfl, by decide, by rintro ⟨id, h, hr⟩; cases h; revert hr; decide, fun _ => rfl, fun h => nomatch h⟩
/-- `push` stores 8 bytes at `0x7F8`; the byte before them is outside. `exit` stores nothing. -/
theorem witness_BytesChangeOnlyInTheStoredSpan :
    exec (.push .b8 (.reg 1)) w = .next (((advance 16 w).writeReg .rsp 0x7F8).store 0x7F8 8 3) ∧
      storedSpan (.push .b8 (.reg 1)) w = some (0x7F8, 8) ∧ Outside 0x7F7 0x7F8 8 ∧ Outside 0x800 0x7F8 8 ∧
      storedSpan (.exit .b8) w = none := ⟨rfl, rfl, .inl (by decide), .inr (by decide), rfl⟩
theorem witness_RipAdvancesByTheRecordLength :
    w.status ≠ .faulted ∧ exec (.mov .b8 (.reg 0) (.reg 1)) w = .next ((advance 24 w).writeReg .r0 3) ∧
      ((advance 24 w).writeReg .r0 3).status ≠ .faulted ∧ transfersControl (.mov .b8 (.reg 0) (.reg 1)) = false ∧
      ¬ namesDestination (.mov .b8 (.reg 0) (.reg 1)) .rip :=
  ⟨by decide, rfl, by decide, rfl, by rintro ⟨id, h, hr⟩; cases h; revert hr; decide⟩
theorem witness_OnlyExitHaltsAndOnlyPrintEmits :
    w.status = .running ∧ exec (.print .b8 (.reg 1)) w = .next ((advance 16 w).emit 3) ∧
      exec (.exit .b8) w = .next ((advance 8 w).setStatus .halted) := ⟨rfl, rfl, rfl⟩
theorem witness_FaultsArePrecise :
    (machine [(.rip, 0xFF9)] []).status = .running ∧
      step (machine [(.rip, 0xFF9)] []) = .next (takeFault ⟨.memoryFault, 0xFF9⟩ (machine [(.rip, 0xFF9)] [])) ∧
      (takeFault ⟨.memoryFault, 0xFF9⟩ (machine [(.rip, 0xFF9)] [])).status = .faulted := ⟨rfl, rfl, rfl⟩
theorem witness_StepKeepsTheInvariant :
    atInc.Inv ∧ step atInc = .next ((advance 16 atInc).writeReg .r0 1) := ⟨⟨by decide, by decide, by decide⟩, rfl⟩
theorem witness_ResetEstablishesTheInvariant :
    legalArenaSize 24 = true ∧ Memory.wf [(0, 1), (23, 9)] = true ∧ (∀ c ∈ [((0 : Nat), (1 : Byte)), (23, 9)], c.1 < 24) ∧
      resetWith 24 ⟨[(0, 1), (23, 9)], .decodeError, 0⟩ (8 :: List.replicate 23 0)
        = .ok { State.reset with
            regs := { State.reset.regs with rsp := 24, rmem := 24 }
            arena := [(0, 1)], arenaSize := 24 } := by decide
theorem witness_ResetLoadsTheImage :
    resetWith 24 ⟨[(0, 1), (23, 9)], .decodeError, 0⟩ (8 :: List.replicate 23 0)
      = .ok { State.reset with
          regs := { State.reset.regs with rsp := 24, rmem := 24 }
          arena := [(0, 1)], arenaSize := 24 } := by decide
/-- An accepted image of the empty code, which an added byte leaves accepted. -/
theorem witness_LoadIsRefusedExactlyWhenItCannotFit :
    resetWith config.arenaSize ⟨[], .decodeError, 0⟩ (List.replicate 16 0) = .ok State.reset ∧
      legalArenaSize config.arenaSize = true ∧ 16 ≤ (List.replicate 16 (0 : Byte)).length ∧
      leNat ((List.replicate 16 0).take 8) = 0 := by decide
theorem witness_PushThenPopRestores :
    (0 : Word).toNat < 6 ∧ (5 : Word).toNat < 6 ∧ regOfNumber (0 : Word).toNat = some .r0 ∧
      regOfNumber (5 : Word).toNat = some .r5 ∧ w.status = .running ∧
      exec (.push .b2 (.reg 0)) w = .next (((advance 16 w).writeReg .rsp 0x7FE).store 0x7FE 2 0x200) ∧
      (((advance 16 w).writeReg .rsp 0x7FE).store 0x7FE 2 0x200).status = .running ∧
      exec (.pop .b2 (.reg 5)) (((advance 16 w).writeReg .rsp 0x7FE).store 0x7FE 2 0x200)
        = .next ((advance 16 (((advance 16 w).writeReg .rsp 0x7FE).store 0x7FE 2 0x200)).writeReg .r5 0x200
            |>.writeReg .rsp 0x800) ∧
      ((advance 16 (((advance 16 w).writeReg .rsp 0x7FE).store 0x7FE 2 0x200)).writeReg .r5 0x200
        |>.writeReg .rsp 0x800).status = .running := ⟨by decide, by decide, rfl, rfl, rfl, rfl, rfl, rfl, rfl⟩
theorem witness_CallThenRetComesBack :
    w.status = .running ∧
      exec (.call .b8 (.imm 0x90)) w
        = .next ((((advance 16 w).writeReg .rsp 0x7F8).store 0x7F8 8 0x20).writeReg .rip 0xA0) ∧
      ((((advance 16 w).writeReg .rsp 0x7F8).store 0x7F8 8 0x20).writeReg .rip 0xA0).status = .running := ⟨rfl, rfl, rfl⟩
theorem witness_AssembledImagesAreWellFormed :
    WellFormedImage (makeImage (encode (.jmp .b8 (.imm 0))) 0) ∧
      (makeImage (encode (.jmp .b8 (.imm 0))) 0).length < 2 ^ 64 :=
  ⟨⟨"start:\njmp start".toList, by decide⟩, by decide⟩

end Sys2Proof.Tests
end

section
/-! SUPPORT. Proofs of the statements of 10_state.md. What an instruction that completes may do is said once: it is `exit`, or
`print`, or a sequence of updates of registers that it may change and of stores inside the arena (`exec_cases`). The frames of
the registers, of the size, of the status and of the output, and the invariant of every state, each follow from what one
update keeps. The statements about reset follow from what a load leaves (`resetWith_eq_ok`). -/

namespace Sys2Proof.Machine

/-! ### Which register an operand names (R146) -/

/-- Only a register operand resolves to the storage of a register; the `COMPLEX` forms are always memory (R146, R149). -/
theorem resolve_eq_reg {o : Operand} {s : State} {r : Reg} (h : resolve o s = .ok (.reg r)) :
    ∃ id, o = .reg id ∧ regOfNumber id.toNat = some r := by
  cases o with
  | reg id =>
    obtain ⟨r', hr', heq⟩ := (bind_eq_ok _ _ _).1 h
    cases heq
    exact ⟨id, rfl, (checkRegister_eq_ok _ _).1 hr'⟩
  | imm v | abs a => cases h
  | regInd id => simp [resolve, bind_eq_ok] at h
  | indexed x | indexedBare x => simp [resolve, resolveIndexed, bind_eq_ok] at h

/-- The registers that an instruction may change: `RIP`, the destination it names, `RSP` and `RFLAG` as its side effects (R22,
R25, R27, R146). -/
inductive MayChange (i : Instr) : Reg → Prop where
  | rip : MayChange i .rip
  | named {r : Reg} : namesDestination i r → MayChange i r
  | rsp : movesStackPointer i = true → MayChange i .rsp
  | rflag : isCmp i = true → MayChange i .rflag

theorem mayChange_of_resolveWritten {i : Instr} {d : Operand} {k : Nat} {s : State} {l : Loc}
    (hd : writtenOperand i = some d) (hl : resolveWritten k d s = .ok l) : ∀ r, l = .reg r → MayChange i r := by
  rintro r rfl
  obtain ⟨id, rfl, hid⟩ := resolve_eq_reg ((resolveWritten_eq_ok k d s _).1 hl).1
  exact .named ⟨id, hd, hid⟩

/-! ### Updates: what an instruction other than `exit` and `print` is made of -/

/-- One update of the state by instruction `i`: a write of a register that `i` may change, or a store in bounds. -/
inductive Update (i : Instr) : State → State → Prop where
  | reg (s : State) (r : Reg) (v : Word) : MayChange i r → Update i s (s.writeReg r v)
  | store (s : State) (a : Word) (k v : Nat) : s.inBounds a k = true → Update i s (s.store a k v)

/-- A sequence of updates by instruction `i`. -/
abbrev Updates (i : Instr) : State → State → Prop := Relation.ReflTransGen (Update i)

theorem updates_advance (i : Instr) (k : Nat) (s : State) : Updates i s (advance k s) := .single (.reg s .rip _ .rip)

/-- `WriteLoc` is one update when its register, if it is one, may change (R151). -/
theorem update_of_writeLoc {i : Instr} {l : Loc} {n : Size} {v : Nat} {s t : State}
    (hl : ∀ r, l = .reg r → MayChange i r) (h : writeLoc l n v s = .ok t) : Update i s t := by
  obtain ⟨hacc, himm, rfl⟩ := (writeLoc_eq_ok l n v s t).1 h
  cases l with
  | reg r => exact .reg s r _ (hl r rfl)
  | mem a => exact .store s a _ v hacc
  | imm x => exact absurd rfl (himm x)

section
variable {i : Instr} {n : Size} {l m : Loc} {s t : State}

theorem updates_of_movHandler (hl : ∀ r, l = .reg r → MayChange i r) (h : movHandler n l m s = .ok t) :
    Updates i s t :=
  .single (update_of_writeLoc hl ((movHandler_eq_ok n l m s t).1 h).2)

theorem updates_of_binaryHandler {f : Nat → Nat → Except Raise Nat} (hl : ∀ r, l = .reg r → MayChange i r)
    (h : binaryHandler f n l m s = .ok t) : Updates i s t := by
  obtain ⟨-, -, v, -, hw⟩ := (binaryHandler_eq_ok f n l m s t).1 h
  exact .single (update_of_writeLoc hl hw)

theorem updates_of_unaryHandler {f : Nat → Nat} (hl : ∀ r, l = .reg r → MayChange i r)
    (h : unaryHandler f n l s = .ok t) : Updates i s t :=
  .single (update_of_writeLoc hl ((unaryHandler_eq_ok f n l s t).1 h).2)

theorem updates_of_cmpHandler (hc : isCmp i = true) (h : cmpHandler n l m s = .ok t) : Updates i s t := by
  obtain ⟨-, -, rfl⟩ := (cmpHandler_eq_ok n l m s t).1 h
  exact .single (.reg s .rflag _ (.rflag hc))

theorem updates_of_jmpHandler (h : jmpHandler n l s = .ok t) : Updates i s t := by
  obtain ⟨-, rfl⟩ := (jmpHandler_eq_ok n l s t).1 h
  exact .single (.reg s .rip _ .rip)

/-- A conditional jump jumps or does nothing (R193 to R198). -/
theorem updates_of_jccHandler {cond : Word → Bool} (h : jccHandler cond n l s = .ok t) : Updates i s t := by
  unfold jccHandler at h
  split at h
  · exact updates_of_jmpHandler h
  · cases h
    exact .refl

theorem updates_of_pushHandler (hs : movesStackPointer i = true) (h : pushHandler n l s = .ok t) : Updates i s t := by
  obtain ⟨-, hb, rfl⟩ := (pushHandler_eq_ok n l s t).1 h
  exact .tail (.single (.reg s .rsp _ (.rsp hs))) (.store _ _ _ _ (by simpa using hb))

theorem updates_of_popHandler (hs : movesStackPointer i = true) (hl : ∀ r, l = .reg r → MayChange i r)
    (h : popHandler n l s = .ok t) : Updates i s t := by
  obtain ⟨-, u, hw, rfl⟩ := (popHandler_eq_ok n l s t).1 h
  exact .tail (.single (update_of_writeLoc hl hw)) (.reg u .rsp _ (.rsp hs))

theorem updates_of_callHandler (hs : movesStackPointer i = true) (h : callHandler n l s = .ok t) : Updates i s t := by
  obtain ⟨hb, hj⟩ := (callHandler_eq_ok n l s t).1 h
  have hpush : Updates i s ((s.writeReg .rsp (s.readReg .rsp - 8)).store (s.readReg .rsp - 8) 8 (s.readReg .rip).toNat) :=
    .tail (.single (.reg s .rsp _ (.rsp hs))) (.store _ _ _ _ (by simpa using hb))
  exact hpush.trans (updates_of_jmpHandler hj)

theorem updates_of_retHandler (hs : movesStackPointer i = true) (h : retHandler s = .ok t) : Updates i s t := by
  obtain ⟨-, rfl⟩ := (retHandler_eq_ok s t).1 h
  exact .tail (.single (.reg s .rip _ .rip)) (.reg _ .rsp _ (.rsp hs))

end

/-- What the body of an instruction can do when it raises nothing, for all 22 instructions (R153). -/
theorem body_cases {i : Instr} {s t : State} (h : body i s = .ok t) :
    (∃ n, i = .exit n ∧ t = s.setStatus .halted) ∨ (∃ n o v, i = .print n o ∧ t = s.emit v) ∨ Updates i s t := by
  cases i with
  | exit n =>
    cases h
    exact .inl ⟨n, rfl, rfl⟩
  | print n o =>
    obtain ⟨l, -, h⟩ := (bind_eq_ok _ _ _).1 h
    exact .inr (.inl ⟨n, o, _, rfl, ((printHandler_eq_ok n l s t).1 h).2.symm⟩)
  | mov n d o =>
    obtain ⟨l, hl, h⟩ := (bind_eq_ok _ _ _).1 h
    obtain ⟨m, -, h⟩ := (bind_eq_ok _ _ _).1 h
    exact .inr (.inr (updates_of_movHandler (mayChange_of_resolveWritten rfl hl) h))
  | add n d o | sub n d o | mul n d o | div n d o | mod n d o =>
    obtain ⟨l, hl, h⟩ := (bind_eq_ok _ _ _).1 h
    obtain ⟨m, -, h⟩ := (bind_eq_ok _ _ _).1 h
    exact .inr (.inr (updates_of_binaryHandler (mayChange_of_resolveWritten rfl hl) h))
  | inc n d | dec n d =>
    obtain ⟨l, hl, h⟩ := (bind_eq_ok _ _ _).1 h
    exact .inr (.inr (updates_of_unaryHandler (mayChange_of_resolveWritten rfl hl) h))
  | cmp n a b =>
    obtain ⟨l, -, h⟩ := (bind_eq_ok _ _ _).1 h
    obtain ⟨m, -, h⟩ := (bind_eq_ok _ _ _).1 h
    exact .inr (.inr (updates_of_cmpHandler rfl h))
  | jmp n o =>
    obtain ⟨l, -, h⟩ := (bind_eq_ok _ _ _).1 h
    exact .inr (.inr (updates_of_jmpHandler h))
  | je n o | jne n o | jl n o | jg n o | jle n o | jge n o =>
    obtain ⟨l, -, h⟩ := (bind_eq_ok _ _ _).1 h
    exact .inr (.inr (updates_of_jccHandler h))
  | push n o =>
    obtain ⟨l, -, h⟩ := (bind_eq_ok _ _ _).1 h
    exact .inr (.inr (updates_of_pushHandler rfl h))
  | pop n d =>
    obtain ⟨l, hl, h⟩ := (bind_eq_ok _ _ _).1 h
    exact .inr (.inr (updates_of_popHandler rfl (mayChange_of_resolveWritten rfl hl) h))
  | call n o =>
    obtain ⟨l, -, h⟩ := (bind_eq_ok _ _ _).1 h
    exact .inr (.inr (updates_of_callHandler rfl h))
  | ret n => exact .inr (.inr (updates_of_retHandler rfl h))

/-- `exit` always completes (R231). -/
theorem exec_exit (n : Size) (s : State) : exec (.exit n) s = .next ((advance 8 s).setStatus .halted) := rfl

/-- What an instruction can do (R140, R153, R247): take a fault on the state before it; or, after a sequence of updates that
begins with the advance of `RIP`, halt if it is `exit`, emit one value if it is `print`, or do nothing more. -/
theorem exec_cases {i : Instr} {s t : State} (h : exec i s = .next t) :
    (∃ r, t = takeFault r s) ∨
      ∃ u, Updates i s u ∧
        ((∃ n, i = .exit n ∧ t = u.setStatus .halted) ∨ (∃ n o v, i = .print n o ∧ t = u.emit v) ∨ t = u) := by
  rcases (exec_eq_next i s t).1 h with hb | ⟨r, -, rfl⟩
  · have hadv := updates_advance i (recordLength i.arity) s
    rcases body_cases hb with hexit | hprint | hu
    · exact .inr ⟨_, hadv, .inl hexit⟩
    · exact .inr ⟨_, hadv, .inr (.inl hprint)⟩
    · exact .inr ⟨t, hadv.trans hu, .inr (.inr rfl)⟩
  · exact .inl ⟨r, rfl⟩

/-! ### What updates keep -/

section
variable {i : Instr} {s t : State}

/-- Updates change no register but those the instruction may change. -/
theorem readReg_of_updates {r : Reg} (hr : ¬ MayChange i r) (h : Updates i s t) : t.readReg r = s.readReg r := by
  induction h with
  | refl => rfl
  | tail _ hu ih =>
    cases hu with
    | reg r' v hmay => rw [readReg_writeReg_ne _ r' r v fun e => hr (e ▸ hmay), ih]
    | store a k v _ => rw [readReg_store, ih]

/-- Updates keep everything outside the registers and the arena's bytes. -/
theorem sameSystem_of_updates (h : Updates i s t) : SameSystem s t := by
  induction h with
  | refl => exact ⟨rfl, rfl, rfl, rfl, rfl⟩
  | tail _ hu ih => cases hu <;> simpa [SameSystem] using ih

end

/-! ### The invariant -/

/-- The invariant speaks of the arena and its size alone. -/
theorem State.Inv.congr {s t : State} (h : s.Inv) (ha : t.arena = s.arena) (hs : t.arenaSize = s.arenaSize) : t.Inv where
  size := by rw [hs]; exact h.size
  canonical := by rw [ha]; exact h.canonical
  inside := by rw [ha, hs]; exact h.inside

/-- Bytes written inside the arena list no byte outside it (R59). -/
theorem inside_writeBytes {m : Memory} {size a : Nat} {bs : List Byte} (hm : ∀ c ∈ m, c.1 < size)
    (hb : a + bs.length ≤ size) : ∀ c ∈ m.writeBytes a bs, c.1 < size := by
  intro c hc
  rcases mem_writeBytes m a bs c hc with hspan | hold
  · omega
  · exact hm c hold

/-- A store that passes the bounds check keeps the invariant (R58, R59). -/
theorem inv_store {s : State} (hs : s.Inv) {a : Word} {k : Nat} (v : Nat) (hb : s.inBounds a k = true) :
    (s.store a k v).Inv where
  size := hs.size
  canonical := wf_store s a k v hs.canonical
  inside := inside_writeBytes hs.inside (by simpa using (inBounds_iff s a k).1 hb)

theorem inv_update {i : Instr} {s t : State} (hs : s.Inv) (h : Update i s t) : t.Inv := by
  cases h with
  | reg r v _ => exact hs.congr (by simp) (by simp)
  | store a k v hb => exact inv_store hs v hb

theorem inv_updates {i : Instr} {s t : State} (hs : s.Inv) (h : Updates i s t) : t.Inv := by
  induction h with
  | refl => exact hs
  | tail _ hu ih => exact inv_update ih hu

/-- Every instruction keeps the invariant. -/
theorem inv_exec {i : Instr} {s t : State} (hs : s.Inv) (h : exec i s = .next t) : t.Inv := by
  rcases exec_cases h with ⟨r, rfl⟩ | ⟨u, hu, hend⟩
  · exact hs.congr rfl rfl
  · have hinv := inv_updates hs hu
    rcases hend with ⟨n, -, rfl⟩ | ⟨n, o, v, -, rfl⟩ | rfl
    · exact hinv.congr rfl rfl
    · exact hinv.congr rfl rfl
    · exact hinv

/-- No instruction changes the size of the arena (R31). -/
theorem arenaSize_exec {i : Instr} {s t : State} (h : exec i s = .next t) : t.arenaSize = s.arenaSize := by
  rcases exec_cases h with ⟨r, rfl⟩ | ⟨u, hu, hend⟩
  · rfl
  · obtain ⟨hsize, -⟩ := sameSystem_of_updates hu
    rcases hend with ⟨n, -, rfl⟩ | ⟨n, o, v, -, rfl⟩ | rfl <;> exact hsize

/-- Settles O45: a step takes the fault of a failed fetch, which touches no byte, or executes an instruction. -/
theorem stepKeepsTheInvariant : Obligations.StepKeepsTheInvariant := by
  intro s t hs h
  obtain ⟨-, ⟨i, -, hexec⟩ | ⟨r, -, rfl⟩⟩ := (step_eq_next s t).1 h
  · exact ⟨inv_exec hs hexec, arenaSize_exec hexec⟩
  · exact ⟨hs.congr rfl rfl, rfl⟩

/-! ### Frames of the registers, the status and the output -/

/-- Settles O39: the premises say that the register is none of those the instruction may change. -/
theorem registersChangeOnlyWhenNamed : Obligations.RegistersChangeOnlyWhenNamed := by
  intro i s t r h hrip hnamed hrsp hrflag
  have hr : ¬ MayChange i r := by
    intro hmay
    cases hmay with
    | rip => exact hrip rfl
    | named hn => exact hnamed hn
    | rsp hm => simp [hrsp rfl] at hm
    | rflag hc => simp [hrflag rfl] at hc
  rcases exec_cases h with ⟨e, rfl⟩ | ⟨u, hu, hend⟩
  · exact readReg_takeFault e s r
  · have hsame := readReg_of_updates hr hu
    rcases hend with ⟨n, -, rfl⟩ | ⟨n, o, v, -, rfl⟩ | rfl
    · rw [readReg_setStatus, hsame]
    · rw [readReg_emit, hsame]
    · exact hsame

/-- Of a running machine, `exit` and no other instruction makes a halted one (R29, R231). -/
theorem status_exec_eq_halted_iff {i : Instr} {s t : State} (hrun : s.status = .running) (h : exec i s = .next t) :
    t.status = .halted ↔ ∃ n, i = .exit n := by
  constructor
  · intro hhalt
    rcases exec_cases h with ⟨r, rfl⟩ | ⟨u, hu, hend⟩
    · cases hhalt
    · obtain ⟨-, hstatus, -⟩ := sameSystem_of_updates hu
      rcases hend with ⟨n, rfl, -⟩ | ⟨n, o, v, -, rfl⟩ | rfl
      · exact ⟨n, rfl⟩
      · simp [hstatus, hrun] at hhalt
      · simp [hstatus, hrun] at hhalt
  · rintro ⟨n, rfl⟩
    rw [exec_exit] at h
    cases h
    rfl

/-- The output stays as it is, or `print` appends one value to it (R32). -/
theorem output_exec {i : Instr} {s t : State} (h : exec i s = .next t) :
    t.output = s.output ∨ (∃ n o, i = .print n o) ∧ ∃ v, t.output = s.output ++ [v] := by
  rcases exec_cases h with ⟨r, rfl⟩ | ⟨u, hu, hend⟩
  · exact .inl rfl
  · obtain ⟨-, -, -, -, hout⟩ := sameSystem_of_updates hu
    rcases hend with ⟨n, -, rfl⟩ | ⟨n, o, v, rfl, rfl⟩ | rfl
    · exact .inl hout
    · exact .inr ⟨⟨n, o, rfl⟩, v, by rw [output_emit, hout]⟩
    · exact .inl hout

/-- Settles O42: the size, the status and the output are three frames of one instruction. -/
theorem onlyExitHaltsAndOnlyPrintEmits : Obligations.OnlyExitHaltsAndOnlyPrintEmits := by
  intro i s t hrun h
  exact ⟨arenaSize_exec h, status_exec_eq_halted_iff hrun h, output_exec h⟩

/-! ### The canonical form of the arena's content (log entry 3) -/

theorem readByte_cons_self (a : Nat) (v : Byte) (m : Memory) : Memory.readByte ((a, v) :: m) a = v := by
  simp [Memory.readByte]

/-- No offset up to `a` is listed, so `a` reads as an unlisted offset. -/
theorem readByte_of_above {m : Memory} {a : Nat} (h : Memory.above a m) : m.readByte a = Memory.unlisted := by
  induction m with
  | nil => rfl
  | cons c m ih =>
    obtain ⟨b, w⟩ := c
    have hb : a < b := h (b, w) List.mem_cons_self
    rw [Memory.readByte, if_neg (by omega)]
    exact ih fun c hc => h c (List.mem_cons_of_mem _ hc)

theorem above_cons {a b : Nat} {v : Byte} {m : Memory} (hab : a < b) (hm : Memory.above b m) :
    Memory.above a ((b, v) :: m) := by
  intro c hc
  rcases List.mem_cons.1 hc with rfl | hc
  · exact hab
  · exact hab.trans (hm c hc)

/-- An offset that does not read as unlisted is not below the first offset listed. -/
theorem first_le_of_readByte_ne {a b : Nat} {v : Byte} {m : Memory} (hm : Memory.wf ((b, v) :: m) = true)
    (h : Memory.readByte ((b, v) :: m) a ≠ Memory.unlisted) : b ≤ a := by
  by_contra hlt
  obtain ⟨-, habove, -⟩ := (wf_cons b v m).1 hm
  exact h (readByte_of_above (above_cons (by omega) habove))

/-- Contents that list the same first cell and read the same have tails that read the same. -/
theorem readByte_tail_eq {a : Nat} {v : Byte} {m m' : Memory} (hm : Memory.above a m) (hm' : Memory.above a m')
    (h : ∀ b, Memory.readByte ((a, v) :: m) b = Memory.readByte ((a, v) :: m') b) (b : Nat) :
    m.readByte b = m'.readByte b := by
  by_cases hb : b = a
  · rw [hb, readByte_of_above hm, readByte_of_above hm']
  · simpa [Memory.readByte, hb] using h b

/-- Settles O12, by induction on the list. The byte at the first offset of either list is not the unlisted one, so neither first
offset is below the other; the first cells are equal, and the tails read the same. -/
theorem canonicalMemoryIsUnique : Obligations.CanonicalMemoryIsUnique := by
  intro m
  induction m with
  | nil =>
    rintro (_ | ⟨⟨b, w⟩, m'⟩) - hm' h
    · rfl
    · have hw := h b
      rw [readByte_cons_self] at hw
      exact absurd hw.symm ((wf_cons b w m').1 hm').1
  | cons c m ih =>
    obtain ⟨a, v⟩ := c
    rintro (_ | ⟨⟨b, w⟩, m'⟩) hm hm' h
    · have hv := h a
      rw [readByte_cons_self] at hv
      exact absurd hv ((wf_cons a v m).1 hm).1
    · obtain ⟨hv, habove, hwf⟩ := (wf_cons a v m).1 hm
      obtain ⟨hw, habove', hwf'⟩ := (wf_cons b w m').1 hm'
      have hba : b ≤ a := first_le_of_readByte_ne hm' (by rwa [← h a, readByte_cons_self])
      have hab : a ≤ b := first_le_of_readByte_ne hm (by rwa [h b, readByte_cons_self])
      obtain rfl : a = b := Nat.le_antisymm hab hba
      obtain rfl : v = w := by simpa only [readByte_cons_self] using h a
      rw [ih m' hwf hwf' (readByte_tail_eq habove habove' h)]

/-! ### Reset (R270, R273) -/

/-- `IMAGE_HEADER_LEN` is 16 (R6). -/
@[simp] theorem imageHeaderLen_eq : config.imageHeaderLen = 16 := rfl

/-- `code_len` is the number of the image's first 8 bytes (R105). -/
theorem codeLength_eq (image : List Byte) : codeLength image = leNat (image.take 8) := rfl

/-- `entry` is the number of the image's next 8 bytes (R105). -/
theorem entryPoint_eq (image : List Byte) : entryPoint image = leNat ((image.drop 8).take 8) := rfl

/-- The machine that the load of an image leaves when nothing refuses it (R33, R273). -/
def loaded (size : Nat) (any : Unspecified) (image : List Byte) : State where
  regs :=
    { r0 := 0, r1 := 0, r2 := 0, r3 := 0, r4 := 0, r5 := 0
      rip := 16 + BitVec.ofNat 64 (entryPoint image)
      rsp := BitVec.ofNat 64 size
      rflag := 0
      rmem := BitVec.ofNat 64 (ceil8 (16 + codeLength image)) }
  arena := any.arena.writeBytes 16 (codeSection image)
  arenaSize := size
  status := .running
  faultCause := any.faultCause
  faultInfo := any.faultInfo
  output := []

/-- A load leaves `loaded` exactly when its image is whole and fits in the arena (R271). -/
theorem resetWith_eq_ok (size : Nat) (any : Unspecified) (image : List Byte) (s : State) :
    resetWith size any image = .ok s ↔
      16 + codeLength image ≤ image.length ∧ 16 + codeLength image ≤ size ∧ loaded size any image = s := by
  unfold resetWith
  rw [imageHeaderLen_eq]
  split_ifs with hheader hcode harena
  · simp only [false_iff]; omega
  · simp only [false_iff]; omega
  · simp only [false_iff]; omega
  · rw [Except.ok.injEq]
    exact ⟨fun h => ⟨by omega, by omega, h⟩, fun ⟨_, _, h⟩ => h⟩

/-- The code section of a whole image has `code_len` bytes (R105). -/
theorem length_codeSection {image : List Byte} (h : 16 + codeLength image ≤ image.length) :
    (codeSection image).length = codeLength image := by
  simp only [codeSection, imageHeaderLen_eq, List.length_take, List.length_drop]
  omega

/-- Code byte `k` is image byte `16 + k` (R105). -/
theorem getD_codeSection (image : List Byte) {k : Nat} (h : k < codeLength image) :
    (codeSection image).getD k 0 = image.getD (16 + k) 0 := by
  simp [codeSection, List.getD_eq_getElem?_getD, h]

/-- A byte of the arena after the load of a whole image: inside the code section the image's, elsewhere the one before. -/
theorem readByte_loaded (size : Nat) (any : Unspecified) {image : List Byte}
    (h : 16 + codeLength image ≤ image.length) (a : Nat) :
    (loaded size any image).readByte a =
      if 16 ≤ a ∧ a < 16 + codeLength image then image.getD a 0 else any.arena.readByte a := by
  simp only [State.readByte, loaded, readByte_writeBytes, length_codeSection h]
  split
  · next hin =>
    rw [getD_codeSection image (by omega)]
    congr 1
    omega
  · rfl

/-- `ceil8` answers the first multiple of 8 that is not below its argument (R273). -/
theorem ceil8_spec (v : Nat) : ceil8 v % 8 = 0 ∧ v ≤ ceil8 v ∧ ceil8 v < v + 8 := by
  unfold ceil8
  omega

theorem readReg_loaded_zero (size : Nat) (any : Unspecified) (image : List Byte) (r : Reg)
    (hr : r ∈ [Reg.r0, .r1, .r2, .r3, .r4, .r5, .rflag]) : (loaded size any image).readReg r = 0 := by
  cases r with
  | r0 | r1 | r2 | r3 | r4 | r5 | rflag => rfl
  | rip | rsp | rmem => simp at hr

/-- Settles O47: the registers are those of `loaded`, and a byte is the image's or the one before as `readByte_loaded` says. -/
theorem resetLoadsTheImage : Obligations.ResetLoadsTheImage := by
  intro size any image s h
  obtain ⟨himage, -, rfl⟩ := (resetWith_eq_ok size any image s).1 h
  rw [← entryPoint_eq, ← codeLength_eq image]
  obtain ⟨hmult, hle, hlt⟩ := ceil8_spec (16 + codeLength image)
  refine ⟨readReg_loaded_zero size any image, rfl, rfl, ⟨_, rfl, hmult, hle, hlt⟩, ?_, ?_, rfl, rfl, rfl⟩
  · intro k hk
    rw [readByte_loaded size any himage, if_pos (by omega)]
  · intro a ha
    rw [readByte_loaded size any himage, if_neg (by omega)]

/-- A load that is not refused keeps the arena's content canonical and inside the arena. -/
theorem inv_loaded {size : Nat} {any : Unspecified} {image : List Byte} (hsize : legalArenaSize size = true)
    (hwf : any.arena.wf = true) (hinside : ∀ c ∈ any.arena, c.1 < size) (himage : 16 + codeLength image ≤ image.length)
    (hfits : 16 + codeLength image ≤ size) : (loaded size any image).Inv where
  size := hsize
  canonical := wf_writeBytes any.arena 16 _ hwf
  inside := inside_writeBytes hinside (by rw [length_codeSection himage]; exact hfits)

theorem inv_reset : State.reset.Inv where
  size := by decide
  canonical := wf_reset
  inside := by simp [State.reset]

/-- Settles O46: a load writes bytes inside the arena only, and writing keeps the canonical form. -/
theorem resetEstablishesTheInvariant : Obligations.ResetEstablishesTheInvariant := by
  refine ⟨inv_reset, ?_⟩
  intro size any image s hsize hwf hinside h
  obtain ⟨himage, hfits, rfl⟩ := (resetWith_eq_ok size any image s).1 h
  exact inv_loaded hsize hwf hinside himage hfits

end Sys2Proof.Machine
end

section
/-! SUPPORT. Proofs of the statements of 20_memory.md. What an access to the arena answers and leaves (R52, R57, R58) follows from
the bytes of a span. A step executes the record that lies at `RIP` (R64), because the decoder gives a representable instruction
back from its record, whatever follows it (`decode_encode`, 30_encoding.md R101). Each handler stores at the destination that
slot 0 resolves to, in the stack slot, or nowhere, and keeps every other byte (R55). -/

namespace Sys2Proof.Machine

/-! ### Spans of bytes as lists and as numbers (R50) -/

/-- A span that holds the bytes of a list, one by one, reads as that list. -/
theorem readBytes_eq_of_getD {m : Memory} {a : Nat} {bs : List Byte}
    (h : ∀ j, j < bs.length → m.readByte (a + j) = bs.getD j 0) : m.readBytes a bs.length = bs := by
  apply List.ext_getElem?
  intro j
  rw [getElem?_readBytes]
  split
  next hj => rw [h j hj, List.getD_eq_getElem _ _ hj, List.getElem?_eq_getElem hj]
  next hj => rw [List.getElem?_eq_none (by omega)]

/-- The number that a span spells is the sum of its bytes, each weighted by its place (R50). -/
theorem leNat_readBytes (m : Memory) (a k : Nat) :
    leNat (m.readBytes a k) = ∑ j ∈ Finset.range k, (m.readByte (a + j)).toNat * 256 ^ j := by
  induction k generalizing a with
  | zero => rfl
  | succ k ih =>
    have htail : ∀ j, (m.readByte (a + (j + 1))).toNat * 256 ^ (j + 1)
        = 256 * ((m.readByte (a + 1 + j)).toNat * 256 ^ j) := by
      intro j
      rw [show a + (j + 1) = a + 1 + j by omega]
      ring
    rw [Finset.sum_range_succ', Finset.sum_congr rfl fun j _ => htail j, ← Finset.mul_sum, ← ih]
    simp [Memory.readBytes, leNat, Nat.add_comm]

/-! ### Arena access (R52, R57, R58) -/

/-- The bounds check in the form of R59, for every width of R57 and every arena size of R31. -/
theorem inBounds_iff_le_sub {s : State} (hs : legalArenaSize s.arenaSize = true) {k : Nat} (hk : k ∈ [1, 2, 4, 8])
    (a : Word) : s.inBounds a k = true ↔ a.toNat ≤ s.arenaSize - k := by
  apply inBounds_iff_sub
  simp only [legalArenaSize, Bool.and_eq_true, decide_eq_true_eq] at hs
  simp only [List.mem_cons, List.not_mem_nil, or_false] at hk
  omega

/-- Settles O9: `memRead` answers the number of the span, which is the sum of R50, or raises. -/
theorem memReadChecksBoundsAndIsLittleEndian : Obligations.MemReadChecksBoundsAndIsLittleEndian := by
  intro s addr k hs hk
  rw [← inBounds_iff_le_sub hs hk]
  constructor
  · intro hb
    exact (memRead_eq_ok _ _ _ _).2 ⟨hb, leNat_readBytes _ _ _⟩
  · intro hb
    exact (memRead_eq_error _ _ _ _).2 ⟨by simpa using hb, rfl⟩

/-- A store leaves every register and everything outside the registers and the arena's bytes. -/
theorem sameSystem_store (s : State) (a : Word) (k v : Nat) : SameSystem s (s.store a k v) := ⟨rfl, rfl, rfl, rfl, rfl⟩

/-- Settles O10: `memWrite` leaves the store, whose bytes are known inside the span and outside it, or raises. -/
theorem memWriteSetsItsBytesOnly : Obligations.MemWriteSetsItsBytesOnly := by
  intro s addr k v hs hk
  rw [← inBounds_iff_le_sub hs hk]
  constructor
  · intro hb
    refine ⟨_, (memWrite_eq_ok _ _ _ _ _).2 ⟨hb, rfl⟩, ?_, ?_, ?_, sameSystem_store _ _ _ _⟩
    · exact fun j hj => readByte_store_inside s addr k _ j hj
    · exact fun a ha => readByte_store_outside s addr k _ a ha
    · exact fun r _ => readReg_store s addr k _ r
  · intro hb
    exact (memWrite_eq_error _ _ _ _ _).2 ⟨by simpa using hb, rfl⟩

/-- A load of `k` bytes that begins at byte `j` of a stored span and ends inside it sees the bytes `j` to `j + k - 1` of the value
stored (R52). -/
theorem load_store_within (s : State) {a b : Word} {n j k : Nat} (v : Nat) (hb : b.toNat = a.toNat + j) (hjk : j + k ≤ n) :
    (s.store a n v).load b k = v / 256 ^ j % 256 ^ k := by
  have hbytes : (s.store a n v).arena.readBytes b.toNat (leBytes k (v / 256 ^ j)).length = leBytes k (v / 256 ^ j) := by
    apply readBytes_eq_of_getD
    intro i hi
    rw [length_leBytes] at hi
    rw [getD_leBytes _ _ _ hi, hb, Nat.add_assoc, Nat.div_div_eq_div_mul, ← Nat.pow_add]
    exact readByte_store_inside s a n v (j + i) (by omega)
  rw [length_leBytes] at hbytes
  rw [State.load, hbytes, natOfBytes_eq, leNat_leBytes]

/-- Settles O11: the 8 bytes written end below `2 ^ 64`, so the narrower address does not wrap and its span lies inside. -/
theorem mixedWidthAccessesAgree : Obligations.MixedWidthAccessesAgree := by
  intro s t addr v j k hjk _ hsize h
  obtain ⟨hb, rfl⟩ := (memWrite_eq_ok _ _ _ _ _).1 h
  rw [inBounds_iff] at hb
  have haddr : (addr + BitVec.ofNat 64 j).toNat = addr.toNat + j := by
    rw [BitVec.toNat_add, BitVec.toNat_ofNat]
    omega
  refine (memRead_eq_ok _ _ _ _).2 ⟨?_, load_store_within s v.toNat haddr hjk⟩
  rw [inBounds_store, inBounds_iff, haddr]
  omega

/-! ### The fields of a record (R83, R87, R91) -/

theorem decodeSize_byteOfSize (n : Size) : decodeSize (byteOfSize n) = .ok n := by
  rw [decodeSize, sizeOfByte_byteOfSize]

/-- A second register is read back from its two bytes when its sign is legal (R91). -/
theorem secondOf_signByte {x : Second} (h : x.wf = true) : secondOf (signByte x) (reg2Byte x) = x := by
  cases x with
  | none | add reg | sub reg => rfl
  | illegal sign reg => simp [Second.wf] at h

/-- The payload of a sub-record does not exceed a word, so it is the sum of its fields (R91). -/
theorem toNat_payloadOfIndexed (x : Indexed) :
    (payloadOfIndexed x).toNat = x.base.toNat + 256 * x.mult.toNat + 256 ^ 2 * (reg2Byte x.second).toNat
      + 256 ^ 3 * (signByte x.second).toNat + 256 ^ 4 * x.offset.toNat := by
  rw [payloadOfIndexed_eq, BitVec.toNat_ofNat]
  omega

theorem wordByte_eq {w : Word} {k : Nat} {b : Byte} (h : w.toNat / 256 ^ k % 256 = b.toNat) : wordByte w k = b := by
  apply BitVec.eq_of_toNat_eq
  rw [wordByte, BitVec.toNat_ofNat]
  exact h

/-- The four bytes and the offset of a sub-record are read back from its payload (R91). -/
theorem indexedOf_payloadOfIndexed {x : Indexed} (h : x.wf = true) : indexedOf (payloadOfIndexed x) = x := by
  have hsum := toNat_payloadOfIndexed x
  have hbase : wordByte (payloadOfIndexed x) 0 = x.base := wordByte_eq (by omega)
  have hmult : wordByte (payloadOfIndexed x) 1 = x.mult := wordByte_eq (by omega)
  have hreg2 : wordByte (payloadOfIndexed x) 2 = reg2Byte x.second := wordByte_eq (by omega)
  have hsign2 : wordByte (payloadOfIndexed x) 3 = signByte x.second := wordByte_eq (by omega)
  have hoffset : BitVec.ofNat 32 ((payloadOfIndexed x).toNat / 256 ^ 4) = x.offset := by
    apply BitVec.eq_of_toNat_eq
    rw [BitVec.toNat_ofNat]
    omega
  have hsecond : x.second.wf = true := (Bool.and_eq_true_iff.1 h).2
  rw [indexedOf_eq, hbase, hmult, hreg2, hsign2, hoffset, secondOf_signByte hsecond]

/-- An operand is read back from its tag and its payload when it is well formed (R87, R88, R89, R91). -/
theorem decodeOperand_tagOf {o : Operand} (h : o.wf = true) : decodeOperand (tagOf o) (payloadOf o) = .ok o := by
  rw [decodeOperand, operandOf_tagOf]
  cases o with
  | imm v | abs a | reg id | regInd id => rfl
  | indexed x | indexedBare x => simp only [payloadOf, indexedOf_payloadOfIndexed h]

/-- A payload is read back from its eight bytes, with the bytes after it (R51). -/
theorem takePayload_leBytes (p : Word) (rest : List Byte) : takePayload (leBytes 8 p.toNat ++ rest) = some (p, rest) := by
  have hp : BitVec.ofNat 64 (natOfBytes (leBytes 8 p.toNat)) = p := by
    apply BitVec.eq_of_toNat_eq
    rw [natOfBytes_eq, leNat_leBytes, BitVec.toNat_ofNat]
    omega
  calc takePayload (leBytes 8 p.toNat ++ rest)
      = some (BitVec.ofNat 64 (natOfBytes (leBytes 8 p.toNat)), rest) := rfl
    _ = some (p, rest) := by rw [hp]

/-! ### The record (R81, R93) -/

/-- The opcode byte of every instruction selects the row that rebuilds the instruction (R94, R95). -/
theorem opcodeSelectsShape (i : Instr) : Laws.OpcodeSelectsShape.Statement i := by
  cases i with
  | push n o => exact Laws.OpcodeSelectsShape.push n o
  | pop n o => exact Laws.OpcodeSelectsShape.pop n o
  | jmp n o => exact Laws.OpcodeSelectsShape.jmp n o
  | exit n => exact Laws.OpcodeSelectsShape.exit n
  | mov n a b => exact Laws.OpcodeSelectsShape.mov n a b
  | call n o => exact Laws.OpcodeSelectsShape.call n o
  | ret n => exact Laws.OpcodeSelectsShape.ret n
  | add n a b => exact Laws.OpcodeSelectsShape.add n a b
  | sub n a b => exact Laws.OpcodeSelectsShape.sub n a b
  | mul n a b => exact Laws.OpcodeSelectsShape.mul n a b
  | div n a b => exact Laws.OpcodeSelectsShape.div n a b
  | mod n a b => exact Laws.OpcodeSelectsShape.mod n a b
  | inc n o => exact Laws.OpcodeSelectsShape.inc n o
  | dec n o => exact Laws.OpcodeSelectsShape.dec n o
  | cmp n a b => exact Laws.OpcodeSelectsShape.cmp n a b
  | je n o => exact Laws.OpcodeSelectsShape.je n o
  | jne n o => exact Laws.OpcodeSelectsShape.jne n o
  | jl n o => exact Laws.OpcodeSelectsShape.jl n o
  | jg n o => exact Laws.OpcodeSelectsShape.jg n o
  | jle n o => exact Laws.OpcodeSelectsShape.jle n o
  | jge n o => exact Laws.OpcodeSelectsShape.jge n o
  | print n o => exact Laws.OpcodeSelectsShape.print n o

section
variable {opcode size tag0 tag1 pad0 pad1 pad2 pad3 : Byte} {n : Size}

/-- The decoder on the header of an instruction without operands. -/
theorem decode_zero {mk : Size → Instr} (hop : shapeOf opcode.toNat = some (.zero mk)) (hn : decodeSize size = .ok n)
    (rest : List Byte) :
    decode (opcode :: size :: tag0 :: tag1 :: pad0 :: pad1 :: pad2 :: pad3 :: rest) = .ok (mk n, rest) := by
  simp only [decode, hop, hn]
  rfl

/-- The decoder on a header and one payload. -/
theorem decode_one {mk : Size → Operand → Instr} (hop : shapeOf opcode.toNat = some (.one mk))
    (hn : decodeSize size = .ok n) {o : Operand} (ho : decodeOperand tag0 (payloadOf o) = .ok o) (rest : List Byte) :
    decode (opcode :: size :: tag0 :: tag1 :: pad0 :: pad1 :: pad2 :: pad3 :: (leBytes 8 (payloadOf o).toNat ++ rest))
      = .ok (mk n o, rest) := by
  simp only [decode, hop, takePayload_leBytes, hn, ho]
  rfl

/-- The decoder on a header and two payloads. -/
theorem decode_two {mk : Size → Operand → Operand → Instr} (hop : shapeOf opcode.toNat = some (.two mk))
    (hn : decodeSize size = .ok n) {o p : Operand} (ho : decodeOperand tag0 (payloadOf o) = .ok o)
    (hp : decodeOperand tag1 (payloadOf p) = .ok p) (rest : List Byte) :
    decode (opcode :: size :: tag0 :: tag1 :: pad0 :: pad1 :: pad2 :: pad3 ::
        (leBytes 8 (payloadOf o).toNat ++ (leBytes 8 (payloadOf p).toNat ++ rest)))
      = .ok (mk n o p, rest) := by
  simp only [decode, hop, takePayload_leBytes, hn, ho, hp]
  rfl

end

/-! ### The bytes of a record (R80, R81) -/

theorem encodePayloads_cons (o : Operand) (os : List Operand) :
    encodePayloads (o :: os) = leBytes 8 (payloadOf o).toNat ++ encodePayloads os := rfl

section
variable {i : Instr} (rest : List Byte)

theorem encode_append_zero (h : i.operands = []) :
    encode i ++ rest = opcodeByte i :: byteOfSize i.size :: 0 :: 0 :: 0 :: 0 :: 0 :: 0 :: rest := by
  rw [encode, encodeHeader, h]
  rfl

theorem encode_append_one {o : Operand} (h : i.operands = [o]) :
    encode i ++ rest = opcodeByte i :: byteOfSize i.size :: tagOf o :: 0 :: 0 :: 0 :: 0 :: 0 ::
      (leBytes 8 (payloadOf o).toNat ++ rest) := by
  rw [encode, encodeHeader, h]
  rfl

theorem encode_append_two {o p : Operand} (h : i.operands = [o, p]) :
    encode i ++ rest = opcodeByte i :: byteOfSize i.size :: tagOf o :: tagOf p :: 0 :: 0 :: 0 :: 0 ::
      (leBytes 8 (payloadOf o).toNat ++ (leBytes 8 (payloadOf p).toNat ++ rest)) := by
  rw [encode, encodeHeader, h]
  rfl

end

theorem length_encodePayloads (os : List Operand) : (encodePayloads os).length = 8 * os.length := by
  induction os with
  | nil => rfl
  | cons o os ih =>
    rw [encodePayloads_cons, List.length_append, length_leBytes, ih, List.length_cons]
    omega

/-- A record has its 8 header bytes and 8 more for each operand (R80). -/
theorem length_encode (i : Instr) : (encode i).length = 8 + 8 * i.arity := by
  rw [encode, List.length_append, length_encodePayloads]
  rfl

/-- No instruction has more than two operands (R94). -/
theorem arity_le_two (i : Instr) : i.arity ≤ 2 := by
  cases i <;> simp [Instr.arity, Instr.operands]

theorem length_encode_le (i : Instr) : (encode i).length ≤ maxRecordLength := by
  have harity := arity_le_two i
  have hmax : maxRecordLength = 24 := rfl
  rw [length_encode, hmax]
  omega

/-- The record of a representable instruction decodes to it, with the bytes after it (R101). The cases are the shapes that its
opcode byte can select. -/
theorem decode_encode {i : Instr} (h : WellFormed i) (rest : List Byte) : decode (encode i ++ rest) = .ok (i, rest) := by
  have hsize := decodeSize_byteOfSize i.size
  have hoperand : ∀ o ∈ i.operands, decodeOperand (tagOf o) (payloadOf o) = .ok o :=
    fun o ho => decodeOperand_tagOf (List.all_eq_true.1 h o ho)
  have hshape := opcodeSelectsShape i
  unfold Laws.OpcodeSelectsShape.Statement at hshape
  split at hshape
  next mk hop =>
    obtain ⟨hops, hi⟩ := hshape
    rw [encode_append_zero rest hops, decode_zero hop hsize, ← hi]
  next mk hop =>
    obtain ⟨o, hops, hi⟩ := hshape
    rw [encode_append_one rest hops, decode_one hop hsize (hoperand o (by simp [hops])), ← hi]
  next mk hop =>
    obtain ⟨o, p, hops, hi⟩ := hshape
    rw [encode_append_two rest hops,
      decode_two hop hsize (hoperand o (by simp [hops])) (hoperand p (by simp [hops])), ← hi]
  next => exact hshape.elim

/-! ### The record at `RIP` (R64, R141, R142) -/

/-- The window that the decoder sees begins with a record that lies at `RIP` and inside the arena. -/
theorem fetchWindow_eq_append {s : State} {bs : List Byte} (hmax : bs.length ≤ maxRecordLength)
    (hbounds : (s.readReg .rip).toNat + bs.length ≤ s.arenaSize)
    (hbytes : ∀ k, k < bs.length → s.readByte ((s.readReg .rip).toNat + k) = bs.getD k 0) :
    ∃ rest, fetchWindow s = bs ++ rest := by
  obtain ⟨k, hk⟩ : ∃ k, min maxRecordLength (s.arenaSize - (s.readReg .rip).toNat) = bs.length + k :=
    Nat.exists_eq_add_of_le (by omega)
  exact ⟨_, by rw [fetchWindow, hk, readBytes_append, readBytes_eq_of_getD hbytes]⟩

/-- A running machine executes what its window decodes to (R141, R142, R153). -/
theorem step_of_decode {s : State} {i : Instr} {rest : List Byte} (hrun : s.status = .running)
    (h : decode (fetchWindow s) = .ok (i, rest)) : step s = exec i s := by
  simp only [step, hrun, fetch, h]

/-- Settles O14: the window begins with the record, which decodes to the instruction whatever follows it. -/
theorem stepRunsTheRecordAtRip : Obligations.StepRunsTheRecordAtRip := by
  intro s i hrun hwf hbounds hbytes
  obtain ⟨rest, hwindow⟩ := fetchWindow_eq_append (length_encode_le i) hbounds hbytes
  exact step_of_decode hrun (hwindow ▸ decode_encode hwf rest)

/-! ### The span that an instruction stores to (R151, R181, R190) -/

theorem storedSpan_push (n : Size) (o : Operand) (s : State) :
    storedSpan (.push n o) s = some (s.readReg .rsp - BitVec.ofNat 64 n.bytes, n.bytes) := rfl

theorem storedSpan_call (n : Size) (o : Operand) (s : State) :
    storedSpan (.call n o) s = some (s.readReg .rsp - 8, 8) := rfl

/-- An instruction whose written slot resolves to memory stores there (R151). -/
theorem storedSpan_of_resolve {i : Instr} {d : Operand} {s : State} {addr : Word} (hd : writtenOperand i = some d)
    (hr : resolve d (advanced i s) = .ok (.mem addr)) : storedSpan i s = some (addr, i.size.bytes) := by
  cases i with
  | mov n d' o | add n d' o | sub n d' o | mul n d' o | div n d' o | mod n d' o | pop n d' | inc n d' | dec n d' =>
    cases hd
    simp only [storedSpan, writtenOperand, hr]
  | push n o | jmp n o | exit n | call n o | ret n | cmp n o p | je n o | jne n o | jl n o | jg n o | jle n o | jge n o
  | print n o => cases hd

/-- The byte at `a` is not one that instruction `i` stores to from state `s`. -/
def NotStored (i : Instr) (s : State) (a : Nat) : Prop := ∀ addr k, storedSpan i s = some (addr, k) → Outside a addr k

/-- The byte at `a` is not one of the `n` bytes of a location. -/
def OutsideLoc (a : Nat) (l : Loc) (n : Size) : Prop := ∀ addr, l = .mem addr → Outside a addr n.bytes

/-- A byte that the instruction does not store to lies outside the location that its written slot resolves to. -/
theorem outsideLoc_of_notStored {i : Instr} {d : Operand} {s : State} {a : Nat} {slot : Nat} {l : Loc}
    (ha : NotStored i s a) (hd : writtenOperand i = some d) (hl : resolveWritten slot d (advanced i s) = .ok l) :
    OutsideLoc a l i.size := by
  rintro addr rfl
  exact ha _ _ (storedSpan_of_resolve hd ((resolveWritten_eq_ok _ _ _ _).1 hl).1)

/-! ### The bytes that each handler keeps (R153) -/

section
variable {a : Nat} {n : Size} {l m : Loc} {s t : State}

theorem readByte_of_writeLoc {v : Nat} (ha : OutsideLoc a l n) (h : writeLoc l n v s = .ok t) :
    t.readByte a = s.readByte a := by
  obtain ⟨-, -, rfl⟩ := (writeLoc_eq_ok l n v s t).1 h
  exact readByte_putAt_outside s l n v a ha

theorem readByte_of_movHandler (ha : OutsideLoc a l n) (h : movHandler n l m s = .ok t) : t.readByte a = s.readByte a :=
  readByte_of_writeLoc ha ((movHandler_eq_ok n l m s t).1 h).2

theorem readByte_of_binaryHandler {f : Nat → Nat → Except Raise Nat} (ha : OutsideLoc a l n)
    (h : binaryHandler f n l m s = .ok t) : t.readByte a = s.readByte a := by
  obtain ⟨-, -, v, -, hw⟩ := (binaryHandler_eq_ok f n l m s t).1 h
  exact readByte_of_writeLoc ha hw

theorem readByte_of_unaryHandler {f : Nat → Nat} (ha : OutsideLoc a l n) (h : unaryHandler f n l s = .ok t) :
    t.readByte a = s.readByte a :=
  readByte_of_writeLoc ha ((unaryHandler_eq_ok f n l s t).1 h).2

theorem readByte_of_popHandler (ha : OutsideLoc a l n) (h : popHandler n l s = .ok t) : t.readByte a = s.readByte a := by
  obtain ⟨-, u, hw, rfl⟩ := (popHandler_eq_ok n l s t).1 h
  rw [readByte_writeReg]
  exact readByte_of_writeLoc ha hw

/-- `push` stores in the stack slot below `RSP` (R181). -/
theorem readByte_of_pushHandler (ha : Outside a (s.readReg .rsp - BitVec.ofNat 64 n.bytes) n.bytes)
    (h : pushHandler n l s = .ok t) : t.readByte a = s.readByte a := by
  obtain ⟨-, -, rfl⟩ := (pushHandler_eq_ok n l s t).1 h
  rw [readByte_store_outside _ _ _ _ _ ha, readByte_writeReg]

theorem readByte_of_jmpHandler (h : jmpHandler n l s = .ok t) : t.readByte a = s.readByte a := by
  obtain ⟨-, rfl⟩ := (jmpHandler_eq_ok n l s t).1 h
  exact readByte_writeReg ..

theorem readByte_of_jccHandler {cond : Word → Bool} (h : jccHandler cond n l s = .ok t) : t.readByte a = s.readByte a := by
  unfold jccHandler at h
  split at h
  · exact readByte_of_jmpHandler h
  · cases h
    rfl

/-- `call` stores the return address in the 8 bytes below `RSP` and then jumps (R190). -/
theorem readByte_of_callHandler (ha : Outside a (s.readReg .rsp - 8) 8) (h : callHandler n l s = .ok t) :
    t.readByte a = s.readByte a := by
  obtain ⟨-, hj⟩ := (callHandler_eq_ok n l s t).1 h
  rw [readByte_of_jmpHandler hj, readByte_store_outside _ _ _ _ _ ha, readByte_writeReg]

theorem readByte_of_retHandler (h : retHandler s = .ok t) : t.readByte a = s.readByte a := by
  obtain ⟨-, rfl⟩ := (retHandler_eq_ok s t).1 h
  rw [readByte_writeReg, readByte_writeReg]

theorem readByte_of_cmpHandler (h : cmpHandler n l m s = .ok t) : t.readByte a = s.readByte a := by
  obtain ⟨-, -, rfl⟩ := (cmpHandler_eq_ok n l m s t).1 h
  exact readByte_writeReg ..

theorem readByte_of_printHandler (h : printHandler n l s = .ok t) : t.readByte a = s.readByte a := by
  obtain ⟨-, rfl⟩ := (printHandler_eq_ok n l s t).1 h
  rfl

end

/-! ### The bytes that an instruction keeps (R55) -/

theorem readReg_advanced_rsp (i : Instr) (s : State) : (advanced i s).readReg .rsp = s.readReg .rsp :=
  readReg_advance_ne _ s .rsp (by decide)

/-- The body of an instruction that raises nothing keeps every byte outside the stored span, for all 22 instructions. -/
theorem readByte_of_body {i : Instr} {s t : State} {a : Nat} (ha : NotStored i s a)
    (h : body i (advanced i s) = .ok t) : t.readByte a = (advanced i s).readByte a := by
  cases i with
  | exit n =>
    cases h
    rfl
  | ret n => exact readByte_of_retHandler h
  | print n o =>
    obtain ⟨l, -, h⟩ := (bind_eq_ok _ _ _).1 h
    exact readByte_of_printHandler h
  | jmp n o =>
    obtain ⟨l, -, h⟩ := (bind_eq_ok _ _ _).1 h
    exact readByte_of_jmpHandler h
  | je n o | jne n o | jl n o | jg n o | jle n o | jge n o =>
    obtain ⟨l, -, h⟩ := (bind_eq_ok _ _ _).1 h
    exact readByte_of_jccHandler h
  | cmp n o p =>
    obtain ⟨l, -, h⟩ := (bind_eq_ok _ _ _).1 h
    obtain ⟨m, -, h⟩ := (bind_eq_ok _ _ _).1 h
    exact readByte_of_cmpHandler h
  | mov n d o =>
    obtain ⟨l, hl, h⟩ := (bind_eq_ok _ _ _).1 h
    obtain ⟨m, -, h⟩ := (bind_eq_ok _ _ _).1 h
    exact readByte_of_movHandler (outsideLoc_of_notStored ha rfl hl) h
  | add n d o | sub n d o | mul n d o | div n d o | mod n d o =>
    obtain ⟨l, hl, h⟩ := (bind_eq_ok _ _ _).1 h
    obtain ⟨m, -, h⟩ := (bind_eq_ok _ _ _).1 h
    exact readByte_of_binaryHandler (outsideLoc_of_notStored ha rfl hl) h
  | inc n d | dec n d =>
    obtain ⟨l, hl, h⟩ := (bind_eq_ok _ _ _).1 h
    exact readByte_of_unaryHandler (outsideLoc_of_notStored ha rfl hl) h
  | pop n d =>
    obtain ⟨l, hl, h⟩ := (bind_eq_ok _ _ _).1 h
    exact readByte_of_popHandler (outsideLoc_of_notStored ha rfl hl) h
  | push n o =>
    obtain ⟨l, -, h⟩ := (bind_eq_ok _ _ _).1 h
    refine readByte_of_pushHandler ?_ h
    rw [readReg_advanced_rsp]
    exact ha _ _ (storedSpan_push n o s)
  | call n o =>
    obtain ⟨l, -, h⟩ := (bind_eq_ok _ _ _).1 h
    refine readByte_of_callHandler ?_ h
    rw [readReg_advanced_rsp]
    exact ha _ _ (storedSpan_call n o s)

/-- Settles O40: an instruction takes a fault, which keeps every byte, or commits what its body leaves. -/
theorem bytesChangeOnlyInTheStoredSpan : Obligations.BytesChangeOnlyInTheStoredSpan := by
  intro i s t a h ha
  rcases (exec_eq_next i s t).1 h with hbody | ⟨r, -, rfl⟩
  · rw [readByte_of_body ha hbody, advanced, readByte_advance]
  · exact readByte_takeFault r s a

end Sys2Proof.Machine
end

section
/-! SUPPORT. Proofs of the statements of 30_encoding.md. The decoder answers an instruction only for a record of it, whose ignored
bits are free (`isRecord_of_decode`); the encoder writes the one record of an instruction whose ignored bits are 0 (R84, R85,
R91, R101). On a whole record the decoder makes the checks of R142 in order (`decode_checks`), and a record in bounds that it
rejects makes the step take that fault (R96, R97, R98). -/

namespace Sys2Proof.Machine

/-! ### Results in sequence -/

theorem except_bind_eq_ok {ε α β : Type} {x : Except ε α} {f : α → Except ε β} {b : β} :
    x >>= f = .ok b ↔ ∃ a, x = .ok a ∧ f a = .ok b := by
  cases x with
  | ok a => exact ⟨fun h => ⟨a, rfl, h⟩, fun ⟨_, ha, hb⟩ => by cases ha; exact hb⟩
  | error e => exact ⟨fun h => (nomatch h), fun ⟨_, ha, _⟩ => (nomatch ha)⟩

/-! ### Type tags (R86, R87) -/

/-- The six legal tags of R87. -/
theorem isSome_operandOf (tag : Byte) (p : Word) :
    (operandOf tag p).isSome = true ↔ tag ∈ [(0x05 : Byte), 0x09, 0x06, 0x0A, 0x1A, 0x16] := by
  rw [operandOf_eq]
  split_ifs <;> simp_all

/-- The bit condition of R87 picks the six tags out of the 256 bytes. -/
theorem mem_legalTags_iff_bits : ∀ tag : Byte,
    tag ∈ [(0x05 : Byte), 0x09, 0x06, 0x0A, 0x1A, 0x16] ↔
      (tag.toNat < 32 ∧ tag.getLsbD 0 ≠ tag.getLsbD 1 ∧ tag.getLsbD 2 ≠ tag.getLsbD 3 ∧
        (tag.getLsbD 4 = true → tag.getLsbD 1 = true)) := by
  decide

theorem tagOf_of_operandOf {tag : Byte} {p : Word} {o : Operand} (h : operandOf tag p = some o) : tagOf o = tag := by
  have hlegal := (isSome_operandOf tag p).1 (Option.isSome_of_eq_some h)
  simp only [List.mem_cons, List.not_mem_nil, or_false] at hlegal
  rcases hlegal with rfl | rfl | rfl | rfl | rfl | rfl <;> cases h <;> rfl

/-- Settles O4: the six tags and the bit condition each say which tags are legal. -/
theorem legalTagsAreTheSix : Obligations.LegalTagsAreTheSix := by
  intro tag p
  refine ⟨?_, isSome_operandOf tag p, fun o h => tagOf_of_operandOf h⟩
  rw [isSome_operandOf, mem_legalTags_iff_bits]

/-! ### What a record read by the decoder says (R81, R93, R100) -/

theorem byteOfSize_of_decodeSize {b : Byte} {n : Size} (h : decodeSize b = .ok n) : byteOfSize n = b := by
  unfold decodeSize at h
  split at h
  next m hm =>
    cases h
    exact eq_of_beq (List.find?_some hm :)
  next => cases h

theorem operandOf_of_decodeOperand {tag : Byte} {p : Word} {o : Operand} (h : decodeOperand tag p = .ok o) :
    operandOf tag p = some o := by
  unfold decodeOperand at h
  split at h
  next o' ho => cases h; exact ho
  next => cases h

/-- A payload is the number of the first eight bytes (R51). -/
theorem eq_append_of_takePayload {bytes rest : List Byte} {p : Word} (h : takePayload bytes = some (p, rest)) :
    bytes = leBytes 8 p.toNat ++ rest := by
  unfold takePayload at h
  split at h
  next b0 b1 b2 b3 b4 b5 b6 b7 after =>
    cases h
    have hlt : leNat [b0, b1, b2, b3, b4, b5, b6, b7] < 2 ^ 64 := by
      simpa using leNat_lt [b0, b1, b2, b3, b4, b5, b6, b7]
    have hbytes : leBytes 8 (leNat [b0, b1, b2, b3, b4, b5, b6, b7]) = _ :=
      leBytes_leNat [b0, b1, b2, b3, b4, b5, b6, b7]
    rw [natOfBytes_eq, BitVec.toNat_ofNat, Nat.mod_eq_of_lt hlt, hbytes]
    rfl
  next => cases h

section
variable {o : Opcode} (n : Size) (a b : Operand)

/-- An instruction made by the row of an opcode without operands (R94). -/
theorem made_zero {mk : Size → Instr} (h : shapeOfOpcode o = .zero mk) :
    opcodeByte (mk n) = config.opcodeByte o ∧ (mk n).size = n ∧ (mk n).operands = [] := by
  cases o <;> cases h <;> exact ⟨rfl, rfl, rfl⟩

/-- An instruction made by the row of an opcode with one operand (R94). -/
theorem made_one {mk : Size → Operand → Instr} (h : shapeOfOpcode o = .one mk) :
    opcodeByte (mk n a) = config.opcodeByte o ∧ (mk n a).size = n ∧ (mk n a).operands = [a] := by
  cases o <;> cases h <;> exact ⟨rfl, rfl, rfl⟩

/-- An instruction made by the row of an opcode with two operands (R94). -/
theorem made_two {mk : Size → Operand → Operand → Instr} (h : shapeOfOpcode o = .two mk) :
    opcodeByte (mk n a b) = config.opcodeByte o ∧ (mk n a b).size = n ∧ (mk n a b).operands = [a, b] := by
  cases o <;> cases h <;> exact ⟨rfl, rfl, rfl⟩

end

/-- `bytes` begin with a record of the instruction `i`, whatever its ignored bits are, and `rest` follows it (R81, R84, R85). -/
inductive IsRecord (i : Instr) (rest : List Byte) : List Byte → Prop where
  | zero {tag0 tag1 pad0 pad1 pad2 pad3 : Byte} (hi : i.operands = []) :
    IsRecord i rest (opcodeByte i :: byteOfSize i.size :: tag0 :: tag1 :: pad0 :: pad1 :: pad2 :: pad3 :: rest)
  | one {tag0 tag1 pad0 pad1 pad2 pad3 : Byte} {p : Word} {a : Operand} (hi : i.operands = [a])
    (ha : operandOf tag0 p = some a) :
    IsRecord i rest (opcodeByte i :: byteOfSize i.size :: tag0 :: tag1 :: pad0 :: pad1 :: pad2 :: pad3 ::
      (leBytes 8 p.toNat ++ rest))
  | two {tag0 tag1 pad0 pad1 pad2 pad3 : Byte} {p q : Word} {a b : Operand} (hi : i.operands = [a, b])
    (ha : operandOf tag0 p = some a) (hb : operandOf tag1 q = some b) :
    IsRecord i rest (opcodeByte i :: byteOfSize i.size :: tag0 :: tag1 :: pad0 :: pad1 :: pad2 :: pad3 ::
      (leBytes 8 p.toNat ++ (leBytes 8 q.toNat ++ rest)))

/-- The decoder answers an instruction only for a record of it. -/
theorem isRecord_of_decode {bytes rest : List Byte} {i : Instr} (h : decode bytes = .ok (i, rest)) :
    IsRecord i rest bytes := by
  unfold decode at h
  split at h
  next opcode size tag0 tag1 pad0 pad1 pad2 pad3 after =>
    split at h
    next => cases h
    next mk hop =>
      obtain ⟨o, rfl, ho⟩ := shapeOf_eq_some hop
      obtain ⟨n, hn, h⟩ := except_bind_eq_ok.1 h
      cases h
      obtain ⟨hopcode, hsize, hi⟩ := made_zero n ho
      rw [← hopcode, ← byteOfSize_of_decodeSize hn, ← congrArg byteOfSize hsize]
      exact .zero hi
    next mk hop =>
      obtain ⟨o, rfl, ho⟩ := shapeOf_eq_some hop
      split at h
      next => cases h
      next p after' hp =>
        obtain ⟨n, hn, h⟩ := except_bind_eq_ok.1 h
        obtain ⟨a, ha, h⟩ := except_bind_eq_ok.1 h
        cases h
        obtain ⟨hopcode, hsize, hi⟩ := made_one n a ho
        rw [← hopcode, ← byteOfSize_of_decodeSize hn, ← congrArg byteOfSize hsize, eq_append_of_takePayload hp]
        exact .one hi (operandOf_of_decodeOperand ha)
    next mk hop =>
      obtain ⟨o, rfl, ho⟩ := shapeOf_eq_some hop
      split at h
      next => cases h
      next p after' hp =>
        split at h
        next => cases h
        next q after'' hq =>
          obtain ⟨n, hn, h⟩ := except_bind_eq_ok.1 h
          obtain ⟨a, ha, h⟩ := except_bind_eq_ok.1 h
          obtain ⟨b, hb, h⟩ := except_bind_eq_ok.1 h
          cases h
          obtain ⟨hopcode, hsize, hi⟩ := made_two n a b ho
          rw [← hopcode, ← byteOfSize_of_decodeSize hn, ← congrArg byteOfSize hsize, eq_append_of_takePayload hp,
            eq_append_of_takePayload hq]
          exact .two hi (operandOf_of_decodeOperand ha) (operandOf_of_decodeOperand hb)
  next => cases h

/-! ### The ignored bits of a record (R84, R85, R91, R99) -/

/-- The `reg2` byte of a payload under an indexed tag is 0 when its `sign2` byte says that there is no second register (R99). -/
def ReservedByteZero (tag : Byte) (p : Word) : Prop :=
  tag = 0x1A ∨ tag = 0x16 → wordByte p 3 = 0 → wordByte p 2 = 0

theorem toNat_wordByte (p : Word) (k : Nat) : (wordByte p k).toNat = p.toNat / 256 ^ k % 256 := by
  rw [wordByte, BitVec.toNat_ofNat]

theorem signByte_secondOf (sign reg : Byte) : signByte (secondOf sign reg) = sign := by
  rw [secondOf_eq]
  split_ifs <;> simp_all [signByte_eq]

theorem reg2Byte_secondOf (sign reg : Byte) : reg2Byte (secondOf sign reg) = if sign = 0 then 0 else reg := by
  rw [secondOf_eq]
  split_ifs <;> rfl

/-- Reading a sub-record and writing it again keeps every byte but an ignored `reg2` (R91). -/
theorem payloadOfIndexed_indexedOf (p : Word) :
    payloadOfIndexed (indexedOf p) = p ↔ (wordByte p 3 = 0 → wordByte p 2 = 0) := by
  have hsum := toNat_payloadOfIndexed (indexedOf p)
  rw [indexedOf_eq] at hsum ⊢
  simp only [signByte_secondOf, reg2Byte_secondOf, toNat_wordByte, BitVec.toNat_ofNat] at hsum
  have hreg2 := toNat_wordByte p 2
  have hp := p.isLt
  rw [← BitVec.toNat_inj, hsum]
  split_ifs with hsign
  · rw [forall_prop_of_true hsign, ← BitVec.toNat_inj, hreg2, show (0 : Byte).toNat = 0 from rfl]
    omega
  · simp only [hsign, false_implies, iff_true, hreg2]
    omega

/-- Writing an operand again gives the payload it was read from exactly when the ignored byte is 0 (R88, R89, R91). -/
theorem payloadOf_eq_iff {tag : Byte} {p : Word} {o : Operand} (h : operandOf tag p = some o) :
    payloadOf o = p ↔ ReservedByteZero tag p := by
  obtain rfl := tagOf_of_operandOf h
  rw [operandOf_tagOf] at h
  cases o with
  | imm | abs | reg | regInd =>
    cases h
    simp [payloadOf, ReservedByteZero, tagOf_eq]
  | indexed x | indexedBare x =>
    cases h
    simpa [payloadOf, ReservedByteZero, tagOf_eq] using payloadOfIndexed_indexedOf p

/-- The payload at the front of a list of bytes and the bytes after it are determined by the list. -/
theorem payload_append_inj {p q : Word} {xs ys : List Byte} :
    leBytes 8 p.toNat ++ xs = leBytes 8 q.toNat ++ ys ↔ p = q ∧ xs = ys := by
  constructor
  · intro h
    have hp := takePayload_leBytes p xs
    rw [h, takePayload_leBytes] at hp
    cases hp
    exact ⟨rfl, rfl⟩
  · rintro ⟨rfl, rfl⟩
    rfl

/-- Byte `k` of the payload at the front of a list of bytes. -/
theorem getD_payload (p : Word) (rest : List Byte) {k : Nat} (hk : k < 8) :
    (leBytes 8 p.toNat ++ rest).getD k 0 = wordByte p k := by
  rw [List.getD_append _ _ _ _ (by rwa [length_leBytes]), getD_leBytes _ _ _ hk, wordByte]

/-- A byte after the payload at the front of a list of bytes. -/
theorem getD_after_payload (p : Word) (rest : List Byte) (k : Nat) :
    (leBytes 8 p.toNat ++ rest).getD (8 + k) 0 = rest.getD k 0 := by
  rw [List.getD_append_right _ _ _ _ (by rw [length_leBytes]; omega), length_leBytes, Nat.add_sub_cancel_left]

/-- The ignored bits, field by field of the header and slot by slot of what follows it. -/
theorem ignoredBitsZero_iff (i : Instr) (opcode size tag0 tag1 pad0 pad1 pad2 pad3 : Byte) (after : List Byte) :
    IgnoredBitsZero i (opcode :: size :: tag0 :: tag1 :: pad0 :: pad1 :: pad2 :: pad3 :: after) ↔
      (pad0 = 0 ∧ pad1 = 0 ∧ pad2 = 0 ∧ pad3 = 0) ∧
      ((i.arity = 0 → tag0 = 0) ∧ (i.arity ≤ 1 → tag1 = 0)) ∧
      (0 < i.arity → tag0 = 0x1A ∨ tag0 = 0x16 → after.getD 3 0 = 0 → after.getD 2 0 = 0) ∧
      (1 < i.arity → tag1 = 0x1A ∨ tag1 = 0x16 → after.getD 11 0 = 0 → after.getD 10 0 = 0) := by
  have harity := arity_le_two i
  constructor
  · rintro ⟨hpad, htag, hreg2⟩
    refine ⟨⟨hpad 4 ?_ ?_, hpad 5 ?_ ?_, hpad 6 ?_ ?_, hpad 7 ?_ ?_⟩, ⟨fun h => htag 0 ?_ ?_, fun h => htag 1 ?_ ?_⟩,
      hreg2 0, hreg2 1⟩ <;> omega
  · rintro ⟨⟨h4, h5, h6, h7⟩, ⟨htag0, htag1⟩, hslot0, hslot1⟩
    refine ⟨fun k hk4 hk8 => ?_, fun slot hslot hlt => ?_, fun slot hslot => ?_⟩
    · interval_cases k <;> assumption
    · interval_cases slot
      · exact htag0 (by omega)
      · exact htag1 hslot
    · have : slot < 2 := by omega
      interval_cases slot
      · exact hslot0 hslot
      · exact hslot1 hslot

/-- A record is the one that the encoder writes exactly when its ignored bits are 0 (R101). -/
theorem encode_eq_iff_ignoredBitsZero {i : Instr} {bytes : List Byte} (h : IsRecord i [] bytes) :
    encode i = bytes ↔ IgnoredBitsZero i bytes := by
  rw [← List.append_nil (encode i)]
  cases h with
  | zero hi =>
    have harity : i.arity = 0 := congrArg List.length hi
    rw [encode_append_zero [] hi, ignoredBitsZero_iff, harity]
    simp only [List.cons.injEq]
    grind
  | one hi ha =>
    have harity : i.arity = 1 := congrArg List.length hi
    rw [encode_append_one [] hi, ignoredBitsZero_iff, harity, getD_payload _ _ (by omega), getD_payload _ _ (by omega)]
    simp only [List.cons.injEq, payload_append_inj, payloadOf_eq_iff ha, tagOf_of_operandOf ha, ReservedByteZero]
    grind
  | two hi ha hb =>
    have harity : i.arity = 2 := congrArg List.length hi
    rw [encode_append_two [] hi, ignoredBitsZero_iff, harity, getD_payload _ _ (by omega), getD_payload _ _ (by omega),
      getD_after_payload _ _ 3, getD_after_payload _ _ 2, getD_payload _ _ (by omega), getD_payload _ _ (by omega)]
    simp only [List.cons.injEq, payload_append_inj, payloadOf_eq_iff ha, payloadOf_eq_iff hb, tagOf_of_operandOf ha,
      tagOf_of_operandOf hb, ReservedByteZero]
    grind

/-- Settles O2: bytes that decode are a record of the instruction, and `encode` writes the one whose ignored bits are 0. -/
theorem decodeEncodeRoundTrip : Obligations.DecodeEncodeRoundTrip := by
  refine ⟨fun i => ?_, fun i rest h => decode_encode h rest,
    fun bytes i h => encode_eq_iff_ignoredBitsZero (isRecord_of_decode h)⟩
  rw [length_encode, Nat.mul_comm]

/-! ### What the decoder checks and what it ignores (R84, R85, R96, R97, R98, R142) -/

theorem getElem?_encode_header (i : Instr) {k : Nat} (hk : k < 8) : (encode i)[k]? = (encodeHeader i)[k]? :=
  List.getElem?_append_left hk

/-- Settles O3: an absent slot has the tag byte 0 in the header, and the decoder looks at the tags of present slots only. -/
theorem absentTagsAndPaddingAreIgnored : Obligations.AbsentTagsAndPaddingAreIgnored := by
  constructor
  · rintro i k (⟨harity, rfl⟩ | ⟨harity, rfl⟩ | ⟨h4, h7⟩)
    · rw [getElem?_encode_header i (by omega), encodeHeader, List.getElem?_eq_none (l := i.operands) (i := 1) harity]
      rfl
    · rw [getElem?_encode_header i (by omega), encodeHeader,
        List.getElem?_eq_none (l := i.operands) (i := 0) (Nat.le_of_eq harity)]
      rfl
    · rw [getElem?_encode_header i (by omega)]
      interval_cases k <;> rfl
  · intro i sz t0 t1 p4 p5 p6 p7 t0' t1' q4 q5 q6 q7 rest h0 h1
    have hshape := opcodeSelectsShape i
    unfold Laws.OpcodeSelectsShape.Statement at hshape
    split at hshape
    next mk hop => simp only [decode, hop]
    next mk hop =>
      obtain ⟨o, hops, -⟩ := hshape
      simp only [decode, hop, h0 (by simp [Instr.arity, hops])]
    next mk hop =>
      obtain ⟨o, p, hops, -⟩ := hshape
      simp only [decode, hop, h0 (by simp [Instr.arity, hops]), h1 (by simp [Instr.arity, hops])]
    next => exact hshape.elim

/-- The size check, for every byte (R97). -/
theorem decodeSize_eq_error {b : Byte} (h : b.toNat ∉ [1, 2, 4, 8]) : decodeSize b = .error (.illegalSize b) := by
  have hnone : ∀ c : Byte, c.toNat ∉ [1, 2, 4, 8] → sizeOfByte c = none := by decide
  rw [decodeSize, hnone b h]

theorem exists_decodeSize {b : Byte} (h : b.toNat ∈ [1, 2, 4, 8]) : ∃ n, decodeSize b = .ok n := by
  have hsome : ∀ c : Byte, c.toNat ∈ [1, 2, 4, 8] → ∃ n, sizeOfByte c = some n := by
    simp only [← Option.isSome_iff_exists]
    decide
  obtain ⟨n, hn⟩ := hsome b h
  exact ⟨n, by rw [decodeSize, hn]⟩

/-- The tag check, for every byte and payload (R98). -/
theorem decodeOperand_eq_error {tag : Byte} (h : tag ∉ [(0x05 : Byte), 0x09, 0x06, 0x0A, 0x1A, 0x16]) (p : Word) :
    decodeOperand tag p = .error (.illegalTag tag) := by
  rw [← isSome_operandOf tag p, Bool.not_eq_true, Option.isSome_eq_false_iff, Option.isNone_iff_eq_none] at h
  rw [decodeOperand, h]

theorem exists_decodeOperand {tag : Byte} (h : tag ∈ [(0x05 : Byte), 0x09, 0x06, 0x0A, 0x1A, 0x16]) (p : Word) :
    ∃ o, decodeOperand tag p = .ok o := by
  obtain ⟨o, ho⟩ := Option.isSome_iff_exists.1 ((isSome_operandOf tag p).2 h)
  exact ⟨o, by rw [decodeOperand, ho]⟩

theorem exists_takePayload {bytes : List Byte} (h : 8 ≤ bytes.length) :
    ∃ p rest, takePayload bytes = some (p, rest) ∧ rest.length = bytes.length - 8 := by
  match bytes, h with
  | b0 :: b1 :: b2 :: b3 :: b4 :: b5 :: b6 :: b7 :: rest, _ => exact ⟨_, rest, rfl, rfl⟩

/-- When the whole record is there, the decoder checks the size and then the tags of the present slots, in order, and nothing
else can fail (R142). -/
theorem decode_checks (i : Instr) {size tag0 tag1 pad0 pad1 pad2 pad3 : Byte} {after : List Byte}
    (hlen : 8 * i.arity ≤ after.length) :
    ∃ (payloads : List Word) (result : Size → List Operand → Instr × List Byte), payloads.length = i.arity ∧
      decode (opcodeByte i :: size :: tag0 :: tag1 :: pad0 :: pad1 :: pad2 :: pad3 :: after) = (do
        let n ← decodeSize size
        let operands ← (List.zip [tag0, tag1] payloads).mapM fun slot => decodeOperand slot.1 slot.2
        return result n operands) := by
  have hshape := opcodeSelectsShape i
  unfold Laws.OpcodeSelectsShape.Statement at hshape
  split at hshape
  next mk hop =>
    obtain ⟨hops, -⟩ := hshape
    refine ⟨[], fun n _ => (mk n, after), by simp [Instr.arity, hops], ?_⟩
    simp only [decode, hop]
    rfl
  next mk hop =>
    obtain ⟨o, hops, -⟩ := hshape
    rw [Instr.arity, hops] at hlen ⊢
    obtain ⟨p, rest, hp, -⟩ := exists_takePayload hlen
    refine ⟨[p], fun n os => (mk n (os.getD 0 o), rest), rfl, ?_⟩
    simp only [decode, hop, hp]
    simp
  next mk hop =>
    obtain ⟨o, o', hops, -⟩ := hshape
    rw [Instr.arity, hops] at hlen ⊢
    obtain ⟨p, rest, hp, hrest⟩ := exists_takePayload (bytes := after) (le_trans (by simp) hlen)
    obtain ⟨q, rest', hq, -⟩ := exists_takePayload (bytes := rest) (by simp at hlen; omega)
    refine ⟨[p, q], fun n os => (mk n (os.getD 0 o) (os.getD 1 o'), rest'), rfl, ?_⟩
    simp only [decode, hop, hp, hq]
    simp
  next => exact hshape.elim

/-! ### Records at `RIP` that the decoder rejects (R96, R97, R98) -/

theorem faultedFrom_takeFault (r : Raise) (s : State) : FaultedFrom s (takeFault r s) r.cause r.info :=
  ⟨rfl, rfl, rfl, fun x _ => readReg_takeFault r s x, fun a => readByte_takeFault r s a, rfl, rfl⟩

/-- A running machine takes the fault that stands for the reason its window is rejected for (R141, R142, R247). -/
theorem takesFault_of_decode {s : State} {e : Reject} (hrun : s.status = .running)
    (h : decode (fetchWindow s) = .error e) :
    TakesFault (step s) s (raiseOfReject (s.readReg .rip) e).cause (raiseOfReject (s.readReg .rip) e).info := by
  refine ⟨_, ?_, faultedFrom_takeFault _ s⟩
  simp only [step, hrun, fetch, h]

/-- The window is the eight header bytes at `RIP`, then at least the `k` bytes after them that are in bounds (R160). -/
theorem fetchWindow_eq_header {s : State} {a k : Nat} (ha : (s.readReg .rip).toNat = a) (hk : k ≤ 16)
    (hb : a + (8 + k) ≤ s.arenaSize) :
    ∃ after, k ≤ after.length ∧ fetchWindow s =
      s.readByte a :: s.readByte (a + 1) :: s.readByte (a + 2) :: s.readByte (a + 3) :: s.readByte (a + 4) ::
        s.readByte (a + 5) :: s.readByte (a + 6) :: s.readByte (a + 7) :: after := by
  have hmax : maxRecordLength = 24 := rfl
  obtain ⟨m, hm⟩ : ∃ m, min maxRecordLength (s.arenaSize - a) = 8 + m := Nat.exists_eq_add_of_le (by omega)
  refine ⟨s.arena.readBytes (a + 8) m, by rw [length_readBytes]; omega, ?_⟩
  rw [fetchWindow, ha, hm, readBytes_append]
  rfl

/-- Settles O15: the opcode is the first check after the header's bounds, and no shape has this byte. -/
theorem illegalOpcodeRaisesDecodeError : Obligations.IllegalOpcodeRaisesDecodeError := by
  intro s hrun hb hop
  obtain ⟨after, -, hwindow⟩ := fetchWindow_eq_header (k := 0) rfl (by omega) hb
  apply takesFault_of_decode hrun (e := .unknownOpcode _)
  simp only [hwindow, decode, (shapeOf_eq_none _).2 hop]

/-- A record in bounds is decoded from its own header by the checks of `decode_checks`. -/
theorem decode_fetchWindow {s : State} {i : Instr} {a : Nat} (ha : (s.readReg .rip).toNat = a)
    (hb : a + recordLength i.arity ≤ s.arenaSize) (hop : s.readByte a = opcodeByte i) :
    ∃ (payloads : List Word) (result : Size → List Operand → Instr × List Byte), payloads.length = i.arity ∧
      decode (fetchWindow s) = (do
        let n ← decodeSize (s.readByte (a + 1))
        let operands ← (List.zip [s.readByte (a + 2), s.readByte (a + 3)] payloads).mapM
          fun slot => decodeOperand slot.1 slot.2
        return result n operands) := by
  have harity := arity_le_two i
  obtain ⟨after, hlen, hwindow⟩ := fetchWindow_eq_header (k := 8 * i.arity) ha (by omega) hb
  rw [hwindow, hop]
  exact decode_checks i hlen

/-- Settles O16: the size is the first check on a record in bounds. -/
theorem illegalSizeRaisesInvalidSize : Obligations.IllegalSizeRaisesInvalidSize := by
  intro s i hrun hb hop hsize
  obtain ⟨payloads, result, -, hdecode⟩ := decode_fetchWindow rfl hb hop
  apply takesFault_of_decode hrun (e := .illegalSize _)
  rw [hdecode, decodeSize_eq_error hsize]
  rfl

/-- Settles O17: behind a legal size the tags are checked in the order of their slots. -/
theorem illegalTagRaisesInvalidOperandType : Obligations.IllegalTagRaisesInvalidOperandType := by
  intro s i t0 t1 hrun hb hop hsize ht0 ht1
  obtain ⟨payloads, result, hlen, hdecode⟩ := decode_fetchWindow rfl hb hop
  obtain ⟨n, hn⟩ := exists_decodeSize hsize
  rw [hn, ht0, ht1] at hdecode
  constructor
  · intro harity hillegal
    obtain ⟨p, ps, rfl⟩ : ∃ p ps, payloads = p :: ps := List.exists_cons_of_length_pos (by omega)
    apply takesFault_of_decode hrun (e := .illegalTag _)
    rw [hdecode, List.zip_cons_cons, List.mapM_cons, decodeOperand_eq_error hillegal]
    rfl
  · intro harity hlegal hillegal
    obtain ⟨p, q, rfl⟩ := List.length_eq_two.1 (hlen.trans harity)
    obtain ⟨o, ho⟩ := exists_decodeOperand hlegal p
    apply takesFault_of_decode hrun (e := .illegalTag _)
    rw [hdecode, List.zip_cons_cons, List.zip_cons_cons, List.mapM_cons, List.mapM_cons, ho, decodeOperand_eq_error hillegal]
    rfl

/-! ### Records written out byte by byte -/

/-- Settles O1: the decoder evaluates each record. -/
theorem writtenOutRecordsDecode : Obligations.WrittenOutRecordsDecode := by
  refine ⟨?_, ?_, ?_, ?_, ?_, ?_, ?_, ?_⟩ <;> rfl

end Sys2Proof.Machine
end

section
/-! SUPPORT. Proof of the statement about the assembler of 30_encoding.md (R106, R124). Every item that the assembler accepts is a
representable instruction of size 8 or a jump that waits for its target (`ItemAssembled`). A label is declared at a boundary
between items (`items_of_passLines`), which resolving the items turns into a boundary between records, so the image has the
form that R106 lists (`wellFormedImage_makeImage`). -/

namespace Sys2Proof.Machine

/-! ### Operands that the assembler writes (R117, R118, R119) -/

theorem toNat_ofNat_numberOfReg (w : Nat) (r : Reg) : (BitVec.ofNat w (numberOfReg r)).toNat < 10 :=
  lt_of_le_of_lt (Nat.mod_le _ _) (numberOfReg_lt r)

/-- The assembler writes a sub-record with numbers of registers and with the sign of an addition or a subtraction. -/
theorem wf_indexedOfParts (base : Reg) (parts : IndexedParts) : (indexedOfParts base parts).wf = true := by
  rw [indexedOfParts, Indexed.wf, Bool.and_eq_true]
  refine ⟨decide_eq_true (toNat_ofNat_numberOfReg 8 base), ?_⟩
  split
  next => rfl
  next sign r _ => split <;> exact decide_eq_true (toNat_ofNat_numberOfReg 8 r)

theorem wf_of_parseRegisterOperand {bracketed : Bool} {t : Token} {o : Operand}
    (h : parseRegisterOperand bracketed t = .ok o) : o.wf = true := by
  unfold parseRegisterOperand at h
  split at h
  next r _ =>
    cases h
    cases bracketed <;> exact decide_eq_true (toNat_ofNat_numberOfReg 64 r)
  next =>
    dsimp only at h
    split at h
    next => cases h
    next b _ =>
      split at h
      next parts _ =>
        cases h
        cases bracketed <;> exact wf_indexedOfParts b parts
      next => cases h

theorem wf_of_parseImmediateOperand {bracketed : Bool} {t : Token} {o : Operand}
    (h : parseImmediateOperand bracketed t = .ok o) : o.wf = true := by
  unfold parseImmediateOperand at h
  split at h
  next => cases h; cases bracketed <;> rfl
  next => cases h

theorem wf_of_parseInner {bracketed : Bool} {t : Token} {o : Operand} (h : parseInner bracketed t = .ok o) :
    o.wf = true := by
  unfold parseInner at h
  split at h
  next => exact wf_of_parseRegisterOperand h
  next => exact wf_of_parseImmediateOperand h

/-- Every operand that the assembler accepts is well formed (R101). -/
theorem wf_of_parseOperand {t : Token} {o : Operand} (h : parseOperand t = .ok o) : o.wf = true := by
  unfold parseOperand at h
  split at h
  next => exact wf_of_parseInner h
  next => exact wf_of_parseInner h

/-! ### Items that the assembler accepts (R114, R115, R120, R121) -/

section
variable {o : Opcode} (n : Size) (a b : Operand)

theorem jumpOperand_zero {mk : Size → Instr} (h : shapeOfOpcode o = .zero mk) : jumpOperand (mk n) = none := by
  cases o <;> cases h <;> rfl

/-- The one operand of an opcode is a jump target exactly when the assembler reads it as a label name (R115). -/
theorem jumpOperand_one {mk : Size → Operand → Instr} (h : shapeOfOpcode o = .one mk) :
    jumpOperand (mk n a) = if takesLabel o then some a else none := by
  cases o <;> cases h <;> rfl

theorem jumpOperand_two {mk : Size → Operand → Operand → Instr} (h : shapeOfOpcode o = .two mk) :
    jumpOperand (mk n a b) = none := by
  cases o <;> cases h <;> rfl

end

/-- An instruction of a well-formed image, but for where its jump operand points (R106). -/
structure Assembled (i : Instr) : Prop where
  wf : WellFormed i
  size : i.size = config.defaultSize

/-- What the assembler guarantees for an item: an instruction that is no jump, or a jump waiting for its target (R115). -/
def ItemAssembled : Item → Prop
  | .label _ => True
  | .instr i => Assembled i ∧ jumpOperand i = none
  | .fixup mk _ => ∀ v, Assembled (mk config.defaultSize (.imm v)) ∧
      jumpOperand (mk config.defaultSize (.imm v)) = some (.imm v) ∧ (mk config.defaultSize (.imm v)).arity = 1

theorem itemAssembled_of_parseOperands {o : Opcode} {mnemonic : Token} {operands : List Token} {item : Item}
    (h : parseOperands o mnemonic operands = .ok item) : ItemAssembled item := by
  unfold parseOperands at h
  split at h
  next mk ho =>
    cases h
    obtain ⟨-, hsize, hi⟩ := made_zero config.defaultSize ho
    exact ⟨⟨by simp [WellFormed, Instr.wf, hi], hsize⟩, jumpOperand_zero _ ho⟩
  next mk t ho =>
    split at h
    next hlabel =>
      cases h
      intro v
      obtain ⟨-, hsize, hi⟩ := made_one config.defaultSize (.imm v) ho
      refine ⟨⟨by simp [WellFormed, Instr.wf, hi, Operand.wf], hsize⟩, ?_, by rw [Instr.arity, hi]; rfl⟩
      rw [jumpOperand_one _ _ ho, if_pos hlabel]
    next hlabel =>
      obtain ⟨a, ha, h⟩ := except_bind_eq_ok.1 h
      cases h
      obtain ⟨-, hsize, hi⟩ := made_one config.defaultSize a ho
      refine ⟨⟨by simp [WellFormed, Instr.wf, hi, wf_of_parseOperand ha], hsize⟩, ?_⟩
      rw [jumpOperand_one _ _ ho, if_neg hlabel]
  next mk t u ho =>
    obtain ⟨a, ha, h⟩ := except_bind_eq_ok.1 h
    obtain ⟨b, hb, h⟩ := except_bind_eq_ok.1 h
    cases h
    obtain ⟨-, hsize, hi⟩ := made_two config.defaultSize a b ho
    exact ⟨⟨by simp [WellFormed, Instr.wf, hi, wf_of_parseOperand ha, wf_of_parseOperand hb], hsize⟩,
      jumpOperand_two _ _ _ ho⟩
  next => cases h

theorem itemAssembled_of_parseInstruction {mnemonic : Token} {operands : List Token} {item : Item}
    (h : parseInstruction mnemonic operands = .ok item) : ItemAssembled item := by
  unfold parseInstruction at h
  split at h
  next => cases h
  next =>
    split at h
    next => cases h
    next => exact itemAssembled_of_parseOperands h

theorem itemAssembled_of_parseLine {line : List Char} {items : List Item} (h : parseLine line = .ok items) :
    ∀ item ∈ items, ItemAssembled item := by
  unfold parseLine at h
  split at h
  next => cases h; simp
  next =>
    split at h
    next =>
      split at h
      next => cases h
      next => cases h; simp [ItemAssembled]
    next =>
      obtain ⟨item, hitem, h⟩ := except_bind_eq_ok.1 h
      cases h
      simpa using itemAssembled_of_parseInstruction hitem

/-! ### Labels and fix-ups (R112, R115, R122, R123) -/

/-- The code offset `a` is where an item begins or where the items end, when the first of them is at `offset`. -/
def ItemBoundary (offset : Nat) (items : List Item) (a : Nat) : Prop :=
  ∃ before after, items = before ++ after ∧ a = offset + itemsLength before

theorem itemsLength_append (xs ys : List Item) : itemsLength (xs ++ ys) = itemsLength xs + itemsLength ys := by
  simp [itemsLength]

theorem itemBoundary_start (offset : Nat) (items : List Item) : ItemBoundary offset items offset :=
  ⟨[], items, rfl, rfl⟩

theorem itemBoundary_append_right {offset a : Nat} {xs : List Item} (ys : List Item) (h : ItemBoundary offset xs a) :
    ItemBoundary offset (xs ++ ys) a := by
  obtain ⟨before, after, rfl, rfl⟩ := h
  exact ⟨before, after ++ ys, List.append_assoc _ _ _, rfl⟩

theorem itemBoundary_append_left {offset a : Nat} {xs ys : List Item}
    (h : ItemBoundary (offset + itemsLength xs) ys a) : ItemBoundary offset (xs ++ ys) a := by
  obtain ⟨before, after, rfl, rfl⟩ := h
  exact ⟨xs ++ before, after, (List.append_assoc _ _ _).symm, by rw [itemsLength_append, Nat.add_assoc]⟩

theorem itemBoundary_cons {offset a : Nat} {x : Item} {items : List Item}
    (h : ItemBoundary (offset + itemLength x) items a) : ItemBoundary offset (x :: items) a :=
  itemBoundary_append_left (xs := [x]) h

/-- The items of a line declare labels at their boundaries only (R112). -/
theorem itemBoundary_of_collectLabels {items : List Item} {offset : Nat} {known labels : Labels}
    (h : collectLabels offset known items = .ok labels) :
    ∀ l ∈ labels, l ∈ known ∨ ItemBoundary offset items l.2 := by
  induction items generalizing offset known with
  | nil =>
    cases h
    exact fun l hl => .inl hl
  | cons item items ih =>
    intro l hl
    cases item with
    | label name =>
      rw [collectLabels] at h
      split at h
      next => cases h
      next =>
        rcases ih h l hl with hknown | hb
        · rcases List.mem_cons.1 hknown with rfl | hold
          · exact .inr (itemBoundary_start _ _)
          · exact .inl hold
        · exact .inr (itemBoundary_cons hb)
    | instr i => exact (ih h l hl).imp_right itemBoundary_cons
    | fixup mk name => exact (ih h l hl).imp_right itemBoundary_cons

/-- The pass accepts items of a well-formed image, and every label it declares is at a boundary of them (R122, R123). -/
theorem items_of_passLines {lines : List (List Char)} {offset : Nat} {known labels : Labels} {items : List Item}
    (h : passLines offset known lines = .ok (items, labels)) :
    (∀ item ∈ items, ItemAssembled item) ∧ ∀ l ∈ labels, l ∈ known ∨ ItemBoundary offset items l.2 := by
  induction lines generalizing offset known items with
  | nil =>
    cases h
    exact ⟨by simp, fun l hl => .inl hl⟩
  | cons line lines ih =>
    obtain ⟨first, hfirst, h⟩ := except_bind_eq_ok.1 h
    obtain ⟨known', hknown', h⟩ := except_bind_eq_ok.1 h
    obtain ⟨⟨rest, all⟩, hrest, h⟩ := except_bind_eq_ok.1 h
    cases h
    obtain ⟨hitems, hlabels⟩ := ih hrest
    refine ⟨fun item hitem => ?_, fun l hl => ?_⟩
    · exact (List.mem_append.1 hitem).elim (itemAssembled_of_parseLine hfirst item) (hitems item)
    · rcases hlabels l hl with hl' | hb
      · exact (itemBoundary_of_collectLabels hknown' l hl').imp_right (itemBoundary_append_right rest)
      · exact .inr (itemBoundary_append_left hb)

/-- What a resolved item is: a record as long as the item, whose jump operand, if it has one, is the offset of a label (R115,
R122). -/
structure Resolved (labels : Labels) (i : Instr) : Prop extends Assembled i where
  target : jumpOperand i = none ∨ ∃ l ∈ labels, jumpOperand i = some (.imm (BitVec.ofNat 64 l.2))

theorem encodeAll_append (xs ys : List Instr) : encodeAll (xs ++ ys) = encodeAll xs ++ encodeAll ys :=
  List.flatMap_append

theorem length_encodeAll_cons (i : Instr) (is : List Instr) :
    (encodeAll (i :: is)).length = recordLength i.arity + (encodeAll is).length := by
  rw [encodeAll, List.flatMap_cons, List.length_append, length_encode]
  rfl

theorem resolved_of_resolveItems {labels : Labels} {items : List Item} {is : List Instr}
    (hitems : ∀ item ∈ items, ItemAssembled item) (h : resolveItems labels items = .ok is) :
    (∀ i ∈ is, Resolved labels i) ∧ (encodeAll is).length = itemsLength items := by
  induction items generalizing is with
  | nil =>
    cases h
    exact ⟨by simp, rfl⟩
  | cons item items ih =>
    obtain ⟨hitem, hrest⟩ := List.forall_mem_cons.1 hitems
    have hlen : itemsLength (item :: items) = itemLength item + itemsLength items := by simp [itemsLength]
    rw [hlen]
    cases item with
    | label name =>
      rw [itemLength, Nat.zero_add]
      exact ih hrest h
    | instr i =>
      obtain ⟨rest, hrest', h⟩ := except_bind_eq_ok.1 h
      cases h
      obtain ⟨hres, hlength⟩ := ih hrest hrest'
      refine ⟨List.forall_mem_cons.2 ⟨⟨hitem.1, .inl hitem.2⟩, hres⟩, ?_⟩
      rw [length_encodeAll_cons, hlength, itemLength]
    | fixup mk name =>
      rw [resolveItems] at h
      split at h
      next => cases h
      next offset hlookup =>
        obtain ⟨rest, hrest', h⟩ := except_bind_eq_ok.1 h
        cases h
        obtain ⟨hres, hlength⟩ := ih hrest hrest'
        obtain ⟨hasm, hjump, harity⟩ := hitem (BitVec.ofNat 64 offset)
        obtain ⟨before, after, rfl, -⟩ := List.lookup_eq_some_iff.1 hlookup
        refine ⟨List.forall_mem_cons.2 ⟨⟨hasm, .inr ⟨(name, offset), by simp, hjump⟩⟩, hres⟩, ?_⟩
        rw [length_encodeAll_cons, hlength, itemLength, harity]

theorem resolveItems_append {labels : Labels} {xs ys : List Item} {is : List Instr}
    (h : resolveItems labels (xs ++ ys) = .ok is) :
    ∃ is₁ is₂, is = is₁ ++ is₂ ∧ resolveItems labels xs = .ok is₁ := by
  induction xs generalizing is with
  | nil => exact ⟨[], is, rfl, rfl⟩
  | cons item xs ih =>
    cases item with
    | label name => exact ih h
    | instr i =>
      obtain ⟨rest, hrest, h⟩ := except_bind_eq_ok.1 h
      cases h
      obtain ⟨is₁, is₂, rfl, h₁⟩ := ih hrest
      exact ⟨i :: is₁, is₂, rfl, by rw [resolveItems, h₁]; rfl⟩
    | fixup mk name =>
      rw [List.cons_append, resolveItems] at h
      split at h
      next => cases h
      next offset hlookup =>
        obtain ⟨rest, hrest, h⟩ := except_bind_eq_ok.1 h
        cases h
        obtain ⟨is₁, is₂, rfl, h₁⟩ := ih hrest
        exact ⟨_ :: is₁, is₂, rfl, by rw [resolveItems, hlookup, h₁]; rfl⟩

/-- The code offset `a` is where a record of the code begins or where the code ends. -/
def CodeBoundary (is : List Instr) (a : Nat) : Prop := ∃ before after, is = before ++ after ∧ a = (encodeAll before).length

/-- A boundary of the items is a boundary of the records they resolve to. -/
theorem codeBoundary_of_itemBoundary {labels : Labels} {items : List Item} {is : List Instr} {a : Nat}
    (hitems : ∀ item ∈ items, ItemAssembled item) (h : resolveItems labels items = .ok is)
    (hb : ItemBoundary 0 items a) : CodeBoundary is a := by
  obtain ⟨before, after, rfl, rfl⟩ := hb
  obtain ⟨is₁, is₂, rfl, h₁⟩ := resolveItems_append h
  refine ⟨is₁, is₂, rfl, ?_⟩
  obtain ⟨-, hlength⟩ := resolved_of_resolveItems (fun item hitem => hitems item (List.mem_append_left _ hitem)) h₁
  rw [hlength, Nat.zero_add]

/-! ### The records of a code section (R106) -/

/-- Instructions with the code offsets of their records, the first at `offset`. -/
def recordsAt : Nat → List Instr → List (Nat × Instr)
  | _, [] => []
  | offset, i :: is => (offset, i) :: recordsAt (offset + recordLength i.arity) is

theorem map_snd_recordsAt (offset : Nat) (is : List Instr) : (recordsAt offset is).map Prod.snd = is := by
  induction is generalizing offset with
  | nil => rfl
  | cons i is ih => rw [recordsAt, List.map_cons, ih]

/-- The records read from the code section of representable instructions are those instructions (R101, R106). -/
theorem recordsFrom_encodeAll {is : List Instr} (hwf : ∀ i ∈ is, WellFormed i) {fuel : Nat} (offset : Nat)
    (hfuel : (encodeAll is).length ≤ fuel) : recordsFrom fuel offset (encodeAll is) = some (recordsAt offset is) := by
  induction is generalizing fuel offset with
  | nil => cases fuel <;> rfl
  | cons i is ih =>
    obtain ⟨hi, his⟩ := List.forall_mem_cons.1 hwf
    rw [length_encodeAll_cons] at hfuel
    have hpos : 8 ≤ recordLength i.arity := Nat.le_add_right _ _
    obtain ⟨fuel, rfl⟩ : ∃ m, fuel = m + 1 := Nat.exists_eq_add_one.2 (by omega)
    have hdecode : decode (encodeAll (i :: is)) = .ok (i, encodeAll is) := decode_encode hi (encodeAll is)
    obtain ⟨b, bs, hbytes⟩ : ∃ b bs, encodeAll (i :: is) = b :: bs := ⟨_, _, rfl⟩
    rw [hbytes] at hdecode ⊢
    simp only [recordsFrom, hdecode, ih his _ (show (encodeAll is).length ≤ fuel by omega), recordsAt, Option.map_some]

/-- A boundary of the code passes the check of R106. -/
theorem isBoundary_of_codeBoundary {is : List Instr} {a : Nat} (h : CodeBoundary is a) :
    isBoundary (encodeAll is).length (recordsAt 0 is) a = true := by
  obtain ⟨before, after, rfl, rfl⟩ := h
  cases after with
  | nil => simp [isBoundary]
  | cons i after =>
    have hmem : ∀ offset, (offset + (encodeAll before).length, i) ∈ recordsAt offset (before ++ i :: after) := by
      induction before with
      | nil => exact fun _ => List.mem_cons_self
      | cons j before ih =>
        intro offset
        rw [length_encodeAll_cons, ← Nat.add_assoc]
        exact List.mem_cons_of_mem _ (ih _)
    have hat := hmem 0
    rw [Nat.zero_add] at hat
    simp only [isBoundary, Bool.or_eq_true, List.any_eq_true]
    exact .inr ⟨_, hat, beq_self_eq_true _⟩

/-! ### The image that the assembler writes (R105, R124) -/

section
variable {code : List Byte} {entry : Nat}

theorem length_makeImage : (makeImage code entry).length = 16 + code.length := by
  simp [makeImage]
  omega

theorem codeLength_makeImage (h : code.length < 2 ^ 64) : codeLength (makeImage code entry) = code.length := by
  have htake : (makeImage code entry).take 8 = leBytes 8 code.length := rfl
  rw [codeLength_eq, htake, leNat_leBytes, Nat.mod_eq_of_lt (by simpa using h)]

theorem entryPoint_makeImage (h : entry < 2 ^ 64) : entryPoint (makeImage code entry) = entry := by
  have htake : ((makeImage code entry).drop 8).take 8 = leBytes 8 entry := rfl
  rw [entryPoint_eq, htake, leNat_leBytes, Nat.mod_eq_of_lt (by simpa using h)]

theorem codeSection_makeImage (h : code.length < 2 ^ 64) : codeSection (makeImage code entry) = code := by
  have hdrop : (makeImage code entry).drop config.imageHeaderLen = code := rfl
  rw [codeSection, codeLength_makeImage h, hdrop, List.take_length]

end

theorem length_le_of_codeBoundary {is : List Instr} {a : Nat} (h : CodeBoundary is a) : a ≤ (encodeAll is).length := by
  obtain ⟨before, after, rfl, rfl⟩ := h
  rw [encodeAll_append, List.length_append]
  exact Nat.le_add_right _ _

/-- A resolved instruction is one that R106 allows in a code section whose boundaries hold every label. -/
theorem wellFormedRecord_of_resolved {labels : Labels} {is : List Instr} (hlt : (encodeAll is).length < 2 ^ 64)
    (hlabels : ∀ l ∈ labels, CodeBoundary is l.2) {i : Instr} (h : Resolved labels i) :
    wellFormedRecord (encodeAll is).length (recordsAt 0 is) i = true := by
  have hwf : i.wf = true := h.wf
  simp only [wellFormedRecord, hwf, h.size, beq_self_eq_true, Bool.true_and]
  rcases h.target with hnone | ⟨l, hl, hsome⟩
  · simp only [hnone]
  · have hb := hlabels l hl
    have hle := length_le_of_codeBoundary hb
    simp only [hsome, BitVec.toNat_ofNat, Nat.mod_eq_of_lt (lt_of_le_of_lt hle hlt)]
    exact isBoundary_of_codeBoundary hb

/-- The image of resolved records whose labels and entry point are boundaries has the form of R106. -/
theorem wellFormedImage_makeImage {labels : Labels} {is : List Instr} {entry : Nat}
    (hlt : (encodeAll is).length < 2 ^ 64) (his : ∀ i ∈ is, Resolved labels i)
    (hlabels : ∀ l ∈ labels, CodeBoundary is l.2) (hentry : CodeBoundary is entry) :
    wellFormedImage (makeImage (encodeAll is) entry) = true := by
  have hwf : ∀ i ∈ is, WellFormed i := fun i hi => (his i hi).wf
  have hencode : (recordsAt 0 is).flatMap (fun r => encode r.2) = encodeAll is := by
    rw [encodeAll, ← List.flatMap_map Prod.snd encode, map_snd_recordsAt]
  have hrecords : ∀ r ∈ recordsAt 0 is, wellFormedRecord (encodeAll is).length (recordsAt 0 is) r.2 = true := by
    intro r hr
    have hmem : r.2 ∈ is := map_snd_recordsAt 0 is ▸ List.mem_map_of_mem hr
    exact wellFormedRecord_of_resolved hlt hlabels (his _ hmem)
  rw [wellFormedImage, codeLength_makeImage hlt, codeSection_makeImage hlt, length_makeImage, imageHeaderLen_eq,
    entryPoint_makeImage (lt_of_le_of_lt (length_le_of_codeBoundary hentry) hlt)]
  simp only [recordsFrom_encodeAll hwf 0 le_rfl, hencode, beq_self_eq_true, isBoundary_of_codeBoundary hentry,
    List.all_eq_true.2 hrecords, Bool.and_self]

/-- Settles O52: every label is at a boundary of the records, and so is code offset 0, the entry point without `start`. -/
theorem assembledImagesAreWellFormed : Obligations.AssembledImagesAreWellFormed := by
  rintro image ⟨text, h⟩ hlt
  obtain ⟨⟨items, labels⟩, hpass, h⟩ := except_bind_eq_ok.1 h
  obtain ⟨is, hresolve, h⟩ := except_bind_eq_ok.1 h
  cases h
  obtain ⟨hitems, hdeclared⟩ := items_of_passLines hpass
  obtain ⟨hresolved, -⟩ := resolved_of_resolveItems hitems hresolve
  have hlabels : ∀ l ∈ labels, CodeBoundary is l.2 := fun l hl =>
    codeBoundary_of_itemBoundary hitems hresolve ((hdeclared l hl).resolve_left List.not_mem_nil)
  have hentry : CodeBoundary is ((labels.lookup "start".toList).getD 0) := by
    cases hstart : labels.lookup "start".toList with
    | none => exact ⟨[], is, rfl, rfl⟩
    | some a =>
      obtain ⟨before, after, rfl, -⟩ := List.lookup_eq_some_iff.1 hstart
      exact hlabels ("start".toList, a) (by simp)
  rw [length_makeImage] at hlt
  exact wellFormedImage_makeImage (by omega) hresolved hlabels hentry

end Sys2Proof.Machine
end

section
/-! SUPPORT. Proofs of the statements of 40_execution_cycle.md. Which number names a register decides whether an operand resolves
(R145); the effective address of an indexed operand is an integer reduced to a word once (`effectiveAddress_eq_ofInt`, R149). What
a write leaves at a location is said once (`written_putAt`, R151). A record cut by the arena's end is rejected at the first word
that is cut (`decode_truncated_payload`, R142). A fault of a slot is the fault of the whole body (R144), and a handler that
transfers no control keeps `RIP` as the advance left it (R143). -/

namespace Sys2Proof.Machine

/-! ### Register numbers (R145) -/

theorem checkRegister_of_ge {i : Word} (h : 10 ≤ i.toNat) : checkRegister i = .error ⟨.invalidRegister, i⟩ :=
  (checkRegister_eq_error _ _).2 ⟨(regOfNumber_eq_none _).2 h, rfl⟩

theorem exists_regOfNumber {i : Nat} (h : i < 10) : ∃ r, regOfNumber i = some r := by
  rw [← Option.ne_none_iff_exists', ne_eq, regOfNumber_eq_none]
  omega

/-- A register byte of a sub-record is zero-extended to the width of a payload. -/
theorem toNat_setWidth_byte (b : Byte) : (b.setWidth 64).toNat = b.toNat :=
  BitVec.toNat_setWidth_of_le (by decide)

theorem checkRegister_byte_of_ge {b : Byte} (h : 10 ≤ b.toNat) :
    checkRegister (b.setWidth 64) = .error ⟨.invalidRegister, b.setWidth 64⟩ :=
  checkRegister_of_ge (by rwa [toNat_setWidth_byte])

theorem checkRegister_byte_eq_ok {b : Byte} {r : Reg} (h : regOfNumber b.toNat = some r) :
    checkRegister (b.setWidth 64) = .ok r :=
  (checkRegister_eq_ok _ _).2 (by rwa [toNat_setWidth_byte])

/-! ### Operands that name registers (R146 to R149) -/

theorem resolve_reg (id : Word) (s : State) : resolve (.reg id) s = checkRegister id >>= fun r => .ok (.reg r) := rfl

theorem resolve_regInd (id : Word) (s : State) :
    resolve (.regInd id) s = checkRegister id >>= fun r => .ok (.mem (s.readReg r)) := rfl

/-- Both indexed forms resolve alike; the tag is only what an illegal sign reports (R149). -/
theorem resolve_indexed (x : Indexed) (s : State) : resolve (.indexed x) s = resolveIndexed 0x1A x s := rfl

theorem resolve_indexedBare (x : Indexed) (s : State) : resolve (.indexedBare x) s = resolveIndexed 0x16 x s := rfl

theorem resolveIndexed_eq_error_of_base {x : Indexed} (h : 10 ≤ x.base.toNat) (tag : Byte) (s : State) :
    resolveIndexed tag x s = .error ⟨.invalidRegister, x.base.setWidth 64⟩ := by
  rw [resolveIndexed, checkRegister_byte_of_ge h, error_bind]

/-- Behind a legal base a fault of the second term is the fault of the operand (R149). -/
theorem resolveIndexed_eq_error_of_second {tag : Byte} {x : Indexed} {s : State} {e : Raise} (hbase : x.base.toNat < 10)
    (h : secondTerm tag x.second s = .error e) : resolveIndexed tag x s = .error e := by
  obtain ⟨r, hr⟩ := exists_regOfNumber hbase
  rw [resolveIndexed, checkRegister_byte_eq_ok hr, ok_bind, h, error_bind]

theorem secondTerm_of_ge {x : Second} {reg : Byte} (hreg : 10 ≤ reg.toNat) (hx : x = .add reg ∨ x = .sub reg) (tag : Byte)
    (s : State) : secondTerm tag x s = .error ⟨.invalidRegister, reg.setWidth 64⟩ := by
  rcases hx with rfl | rfl <;> rw [secondTerm, checkRegister_byte_of_ge hreg, error_bind]

theorem resolve_indexed_eq_error_of_base {x : Indexed} (s : State) (h : 10 ≤ x.base.toNat) :
    resolve (.indexed x) s = .error ⟨.invalidRegister, x.base.setWidth 64⟩ ∧
      resolve (.indexedBare x) s = .error ⟨.invalidRegister, x.base.setWidth 64⟩ :=
  ⟨resolveIndexed_eq_error_of_base h _ s, resolveIndexed_eq_error_of_base h _ s⟩

theorem resolve_indexed_eq_error_of_reg2 {x : Indexed} {reg : Byte} (s : State) (hbase : x.base.toNat < 10)
    (hreg : 10 ≤ reg.toNat) (hx : x.second = .add reg ∨ x.second = .sub reg) :
    resolve (.indexed x) s = .error ⟨.invalidRegister, reg.setWidth 64⟩ ∧
      resolve (.indexedBare x) s = .error ⟨.invalidRegister, reg.setWidth 64⟩ :=
  ⟨resolveIndexed_eq_error_of_second hbase (secondTerm_of_ge hreg hx _ s),
    resolveIndexed_eq_error_of_second hbase (secondTerm_of_ge hreg hx _ s)⟩

/-- Settles O5: a number below 10 names a register, and any other one faults where it is checked. -/
theorem registerNumbersAreChecked : Obligations.RegisterNumbersAreChecked := by
  refine ⟨fun i s hi => ?_, fun x s hbase => resolve_indexed_eq_error_of_base s hbase,
    fun x r s hbase hr hx => resolve_indexed_eq_error_of_reg2 s hbase hr hx, fun i s hi => ?_⟩
  · rw [resolve_reg, resolve_regInd, checkRegister_of_ge hi]
    exact ⟨rfl, rfl⟩
  · obtain ⟨r, hr⟩ := exists_regOfNumber hi
    rw [resolve_reg, resolve_regInd, (checkRegister_eq_ok i r).2 hr]
    exact ⟨r, (regOfNumber_eq_some _ _).1 hr, rfl, rfl⟩

/-! ### The effective address (R92, R149) -/

/-- The second term of a legal sub-record is its signed value, reduced to a word. -/
theorem secondTerm_of_wf {x : Second} (h : x.wf = true) (tag : Byte) (s : State) :
    secondTerm tag x s = .ok (BitVec.ofInt 64 (secondValue s x)) := by
  cases x with
  | none => rfl
  | illegal sign reg => cases h
  | add reg | sub reg =>
    obtain ⟨r, hr⟩ := exists_regOfNumber (of_decide_eq_true h)
    simp only [secondTerm, secondValue, checkRegister_byte_eq_ok hr, hr, ok_bind, pure_eq_ok, BitVec.ofInt_neg,
      BitVec.ofInt_natCast, BitVec.ofNat_toNat, BitVec.setWidth_eq]

/-- The sum of an effective address is exact before its one reduction to a word (R92). -/
theorem effectiveAddress_eq_ofInt (base : Word) (mult : Byte) (second : Int) (offset : BitVec 32) :
    effectiveAddress base mult (BitVec.ofInt 64 second) offset =
      BitVec.ofInt 64 ((base.toNat : Int) * mult.toNat + second + offset.toInt) := by
  rw [effectiveAddress, BitVec.ofInt_add, BitVec.ofInt_add, BitVec.ofInt_mul, BitVec.ofInt_natCast, BitVec.ofInt_natCast,
    BitVec.ofNat_toNat, BitVec.ofNat_toNat, BitVec.setWidth_eq, BitVec.signExtend]

/-- A well-formed indexed operand is a memory location at its effective address, whatever its tag is (R149). -/
theorem resolveIndexed_of_wf {x : Indexed} {r : Reg} (hbase : regOfNumber x.base.toNat = some r) (h : x.second.wf = true)
    (tag : Byte) (s : State) :
    resolveIndexed tag x s =
      .ok (.mem (BitVec.ofInt 64 (((s.readReg r).toNat : Int) * x.mult.toNat + secondValue s x.second + x.offset.toInt))) := by
  rw [resolveIndexed, checkRegister_byte_eq_ok hbase, ok_bind, secondTerm_of_wf h, ok_bind, effectiveAddress_eq_ofInt,
    pure_eq_ok]

/-- Settles O6: the address is one reduced integer; the base, the sign and the second register are checked in this order. -/
theorem indexedOperandsResolveToExactAddress : Obligations.IndexedOperandsResolveToExactAddress := by
  refine ⟨fun x s hwf => ?_, fun x s hbase => resolve_indexed_eq_error_of_base s hbase,
    fun x sign reg s hbase hx => ⟨?_, ?_⟩, fun x reg s hbase hreg hx => resolve_indexed_eq_error_of_reg2 s hbase hreg hx⟩
  · obtain ⟨hbase, hsecond⟩ := Bool.and_eq_true_iff.1 hwf
    obtain ⟨r, hr⟩ := exists_regOfNumber (of_decide_eq_true hbase)
    refine ⟨r, _, (regOfNumber_eq_some _ _).1 hr, resolveIndexed_of_wf hr hsecond _ s, resolveIndexed_of_wf hr hsecond _ s, ?_⟩
    rw [BitVec.toNat_ofInt]
    exact Int.toNat_of_nonneg (Int.emod_nonneg _ (by decide))
  · exact resolveIndexed_eq_error_of_second hbase (by rw [hx]; rfl)
  · exact resolveIndexed_eq_error_of_second hbase (by rw [hx]; rfl)

/-! ### Reading a location (R150) -/

/-- The bytes of an operand size spell the numbers below `2 ^ (8n)`. -/
theorem pow_bytes (k : Nat) : 256 ^ k = 2 ^ (8 * k) := (Nat.pow_mul 2 8 k).symm

theorem trunc_lt (n : Size) (v : Nat) : trunc n v < 2 ^ (8 * n.bytes) := Nat.mod_lt _ (Nat.two_pow_pos _)

theorem valueAt_lt (s : State) (l : Loc) (n : Size) : s.valueAt l n < 2 ^ (8 * n.bytes) := by
  cases l with
  | reg r => exact trunc_lt n _
  | mem a => exact pow_bytes n.bytes ▸ load_lt s a n.bytes
  | imm v => exact trunc_lt n _

/-- Settles O7: a register and an immediate are truncated, and memory is read as the sum of its bytes or faults. -/
theorem readLocReadsLowBytes : Obligations.ReadLocReadsLowBytes := by
  refine ⟨fun l n s => valueAt_lt s l n, fun r n s => rfl, fun v n s => rfl, fun a n s => ?_⟩
  rw [← inBounds_iff]
  constructor
  · exact fun hb => (memRead_eq_ok _ _ _ _).2 ⟨hb, leNat_readBytes _ _ _⟩
  · exact fun hb => (memRead_eq_error _ _ _ _).2 ⟨by simpa using hb, rfl⟩

/-! ### Writing a location (R151) -/

/-- The upper bytes of a register after a write of its low bytes are those before, and the low bytes are those written. -/
theorem toNat_mergeLow (n : Size) (old : Word) (v : Nat) :
    (mergeLow n old v).toNat = 2 ^ (8 * n.bytes) * (old.toNat / 2 ^ (8 * n.bytes)) + v % 2 ^ (8 * n.bytes) := by
  rw [mergeLow, BitVec.toNat_ofNat, trunc, trunc]
  cases n <;> simp only [Size.bytes] <;> omega

theorem toNat_mergeLow_mod (n : Size) (old : Word) (v : Nat) :
    (mergeLow n old v).toNat % 2 ^ (8 * n.bytes) = v % 2 ^ (8 * n.bytes) := by
  rw [toNat_mergeLow, Nat.mul_add_mod, Nat.mod_mod]

theorem toNat_mergeLow_div (n : Size) (old : Word) (v : Nat) :
    (mergeLow n old v).toNat / 2 ^ (8 * n.bytes) = old.toNat / 2 ^ (8 * n.bytes) := by
  rw [toNat_mergeLow, Nat.mul_add_div (Nat.two_pow_pos _), Nat.div_eq_of_lt (Nat.mod_lt _ (Nat.two_pow_pos _)), Nat.add_zero]

/-- A write at a register or memory location leaves there the low bytes of the value, and changes nothing else. -/
theorem written_putAt (s : State) {l : Loc} (n : Size) (v : Nat) (himm : ∀ x, l ≠ .imm x) :
    Written s (s.putAt l n v) l n (v % 2 ^ (8 * n.bytes)) where
  value := by
    cases l with
    | reg r => rw [State.putAt, State.valueAt, readReg_writeReg_same, trunc, toNat_mergeLow_mod]
    | mem a => rw [State.putAt, State.valueAt, load_store_same, pow_bytes]
    | imm x => exact absurd rfl (himm x)
  upper := by
    rintro r rfl
    rw [State.putAt, readReg_writeReg_same, toNat_mergeLow_div]
  registers := fun r hr => readReg_putAt_ne s l n v r hr
  bytes := fun a ha => readByte_putAt_outside s l n v a ha
  system := ⟨arenaSize_putAt .., status_putAt .., faultCause_putAt .., faultInfo_putAt .., output_putAt ..⟩

/-- Settles O8: `writeLoc` leaves `putAt`, or raises at a memory location out of bounds. -/
theorem writeLocReplacesLowBytes : Obligations.WriteLocReplacesLowBytes := by
  intro l n v s himm
  constructor
  · exact fun hacc => ⟨_, (writeLoc_eq_ok l n v s _).2 ⟨hacc, himm, rfl⟩, written_putAt s n v himm⟩
  · rintro a rfl hb
    rw [← inBounds_iff, Bool.not_eq_true] at hb
    exact (writeLoc_eq_error _ n v s _ himm).2 ⟨a, rfl, hb, rfl⟩

/-! ### The step (R140, R153, R158) -/

/-- Settles O13: the fetch answers what the window decodes to. -/
theorem stepRunsTheDecodedInstruction : Obligations.StepRunsTheDecodedInstruction :=
  fun _ _ _ hrun hdecode => step_of_decode hrun hdecode

/-- Every instruction answers a next state: the one its body leaves, or the one with the fault taken (R140, R247). -/
theorem exists_exec_eq_next (i : Instr) (s : State) : ∃ t, exec i s = .next t := by
  cases hbody : body i (advanced i s) with
  | ok t => exact ⟨t, (exec_eq_next i s t).2 (.inl hbody)⟩
  | error r => exact ⟨takeFault r s, (exec_eq_next i s _).2 (.inr ⟨r, hbody, rfl⟩)⟩

/-- Settles O44: a running machine executes what it fetches or takes the fault of the fetch. -/
theorem exactlyRunningMachinesStep : Obligations.ExactlyRunningMachinesStep := by
  intro s
  constructor
  · rintro ⟨t, h⟩
    exact ((step_eq_next s t).1 h).1
  · intro hrun
    cases hfetch : fetch s with
    | ok i =>
      obtain ⟨t, ht⟩ := exists_exec_eq_next i s
      exact ⟨t, (step_eq_next s t).2 ⟨hrun, .inl ⟨i, hfetch, ht⟩⟩⟩
    | error r => exact ⟨takeFault r s, (step_eq_next s _).2 ⟨hrun, .inr ⟨r, hfetch, rfl⟩⟩⟩

/-! ### Records cut by the arena's end (R141, R142) -/

theorem length_fetchWindow (s : State) :
    (fetchWindow s).length = min maxRecordLength (s.arenaSize - (s.readReg .rip).toNat) :=
  length_readBytes ..

theorem decode_truncated_header {bytes : List Byte} (h : bytes.length < 8) : decode bytes = .error (.truncated 0) := by
  unfold decode
  split
  next => simp only [List.length_cons] at h; omega
  next => rfl

theorem takePayload_eq_none {bytes : List Byte} (h : bytes.length < 8) : takePayload bytes = none := by
  unfold takePayload
  split
  next => simp only [List.length_cons] at h; omega
  next => rfl

/-- When the payloads before slot `k` are there and the one of slot `k` is cut, the decoder rejects the record at that payload,
before it looks at the size and the tags (R142). -/
theorem decode_truncated_payload {i : Instr} {k : Nat} {size tag0 tag1 pad0 pad1 pad2 pad3 : Byte} {after : List Byte}
    (hk : k < i.arity) (hfit : 8 * k ≤ after.length) (hcut : after.length < 8 * (k + 1)) :
    decode (opcodeByte i :: size :: tag0 :: tag1 :: pad0 :: pad1 :: pad2 :: pad3 :: after)
      = .error (.truncated (8 * (k + 1))) := by
  have hshape := opcodeSelectsShape i
  unfold Laws.OpcodeSelectsShape.Statement at hshape
  split at hshape
  next mk hop =>
    obtain ⟨hops, -⟩ := hshape
    simp [Instr.arity, hops] at hk
  next mk hop =>
    obtain ⟨o, hops, -⟩ := hshape
    obtain rfl : k = 0 := by simpa [Instr.arity, hops] using hk
    simp only [decode, hop, takePayload_eq_none hcut]
  next mk hop =>
    obtain ⟨o, o', hops, -⟩ := hshape
    have hslot : k = 0 ∨ k = 1 := by
      simp only [Instr.arity, hops, List.length_cons, List.length_nil] at hk
      omega
    rcases hslot with rfl | rfl
    · simp only [decode, hop, takePayload_eq_none hcut]
    · obtain ⟨p, rest, hp, hrest⟩ := exists_takePayload hfit
      simp only [decode, hop, hp, takePayload_eq_none (bytes := rest) (by omega)]
  next => exact hshape.elim

/-- A running machine takes `MemoryFault` at the payload of slot `k` when the arena ends inside that payload. -/
theorem takesFault_truncated_payload {s : State} {i : Instr} {a : Word} {k : Nat} (hrun : s.status = .running)
    (ha : s.readReg .rip = a) (hop : s.readByte a.toNat = opcodeByte i) (hk : k < i.arity)
    (hfit : a.toNat + (8 + 8 * k) ≤ s.arenaSize) (hcut : s.arenaSize < a.toNat + (8 + 8 * (k + 1))) :
    TakesFault (step s) s .memoryFault (a + BitVec.ofNat 64 (8 * (k + 1))) := by
  have harity := arity_le_two i
  have hmax : maxRecordLength = 24 := rfl
  obtain ⟨after, hlen, hwindow⟩ := fetchWindow_eq_header (congrArg BitVec.toNat ha) (by omega) hfit
  have hlength := length_fetchWindow s
  rw [hwindow, ha] at hlength
  simp only [List.length_cons] at hlength
  rw [hop] at hwindow
  rw [← ha]
  exact takesFault_of_decode hrun (hwindow ▸ decode_truncated_payload hk hlen (by omega))

/-- Settles O18: the window ends with the arena, so the decoder runs out of bytes in the header or in a payload. -/
theorem truncatedRecordRaisesMemoryFault : Obligations.TruncatedRecordRaisesMemoryFault := by
  intro s a hrun ha
  refine ⟨fun hheader => ?_, fun i hop hfit => ⟨fun harity hcut => ?_, fun harity hfit' hcut => ?_⟩⟩
  · have hlength := length_fetchWindow s
    rw [ha] at hlength
    have h := takesFault_of_decode hrun (decode_truncated_header (bytes := fetchWindow s) (by omega))
    simpa [raiseOfReject, ha] using h
  · exact takesFault_truncated_payload hrun ha hop (k := 0) (by omega) (by omega) (by omega)
  · exact takesFault_truncated_payload hrun ha hop (k := 1) (by omega) (by omega) (by omega)

/-! ### Faults of the slots (R144, R155, R246) -/

/-- A fault that the body raises is the fault that the instruction takes, on the state before it (R140, R247). -/
theorem takesFault_of_body {i : Instr} {s : State} {r : Raise} (h : body i (advanced i s) = .error r) :
    TakesFault (exec i s) s r.cause r.info :=
  ⟨_, (exec_eq_next i s _).2 (.inr ⟨r, h, rfl⟩), faultedFrom_takeFault r s⟩

/-- Every body resolves slot 0 first, whether it writes it or only reads it (R144). -/
theorem body_eq_error_of_slot0 {i : Instr} {o : Operand} {s : State} {r : Raise} (ho : i.operands.head? = some o)
    (hr : resolve o s = .error r) : body i s = .error r := by
  have hwritten : resolveWritten 0 o s = .error r := (resolveWritten_eq_error 0 o s r).2 (.inl hr)
  cases i with
  | exit n | ret n => cases ho
  | push n o' | jmp n o' | call n o' | cmp n o' p | je n o' | jne n o' | jl n o' | jg n o' | jle n o' | jge n o'
  | print n o' =>
    cases ho
    exact (bind_eq_error _ _ _).2 (.inl hr)
  | mov n d p | add n d p | sub n d p | mul n d p | div n d p | mod n d p | pop n d | inc n d | dec n d =>
    cases ho
    exact (bind_eq_error _ _ _).2 (.inl hwritten)

/-- Every body resolves slot 1 when slot 0 has resolved and is no immediate that the opcode writes (R144, R152). -/
theorem body_eq_error_of_slot1 {i : Instr} {o0 o1 : Operand} {s : State} {l : Loc} {r : Raise}
    (ho : i.operands = [o0, o1]) (hl : resolve o0 s = .ok l) (himm : ∀ v, writtenOperand i = some o0 → l ≠ .imm v)
    (hr : resolve o1 s = .error r) : body i s = .error r := by
  cases i with
  | exit n | ret n | push n o | pop n o | jmp n o | call n o | inc n o | dec n o | je n o | jne n o | jl n o | jg n o
  | jle n o | jge n o | print n o => cases ho
  | cmp n a b =>
    cases ho
    exact (bind_eq_error _ _ _).2 (.inr ⟨l, hl, (bind_eq_error _ _ _).2 (.inl hr)⟩)
  | mov n d p | add n d p | sub n d p | mul n d p | div n d p | mod n d p =>
    cases ho
    have hwritten : resolveWritten 0 o0 s = .ok l := (resolveWritten_eq_ok 0 o0 s l).2 ⟨hl, fun v => himm v rfl⟩
    exact (bind_eq_error _ _ _).2 (.inr ⟨l, hwritten, (bind_eq_error _ _ _).2 (.inl hr)⟩)

/-- Settles O19: the body faults at slot 0, or behind it at slot 1, in the advanced state. -/
theorem slotFaultsAreTakenInOrder : Obligations.SlotFaultsAreTakenInOrder := by
  intro i s o0 o1 l r
  constructor
  · exact fun ho hr => takesFault_of_body (body_eq_error_of_slot0 ho hr)
  · exact fun ho hl himm hr => takesFault_of_body (body_eq_error_of_slot1 ho hl himm hr)

/-! ### The registers that each handler keeps (R143, R153) -/

section
variable {r : Reg} {n : Size} {l m : Loc} {s t : State}

theorem readReg_of_writeLoc {v : Nat} (hl : l ≠ .reg r) (h : writeLoc l n v s = .ok t) : t.readReg r = s.readReg r := by
  obtain ⟨-, -, rfl⟩ := (writeLoc_eq_ok l n v s t).1 h
  exact readReg_putAt_ne s l n v r hl

theorem readReg_of_movHandler (hl : l ≠ .reg r) (h : movHandler n l m s = .ok t) : t.readReg r = s.readReg r :=
  readReg_of_writeLoc hl ((movHandler_eq_ok n l m s t).1 h).2

theorem readReg_of_binaryHandler {f : Nat → Nat → Except Raise Nat} (hl : l ≠ .reg r)
    (h : binaryHandler f n l m s = .ok t) : t.readReg r = s.readReg r := by
  obtain ⟨-, -, v, -, hw⟩ := (binaryHandler_eq_ok f n l m s t).1 h
  exact readReg_of_writeLoc hl hw

theorem readReg_of_unaryHandler {f : Nat → Nat} (hl : l ≠ .reg r) (h : unaryHandler f n l s = .ok t) :
    t.readReg r = s.readReg r :=
  readReg_of_writeLoc hl ((unaryHandler_eq_ok f n l s t).1 h).2

theorem readReg_of_popHandler (hr : r ≠ .rsp) (hl : l ≠ .reg r) (h : popHandler n l s = .ok t) :
    t.readReg r = s.readReg r := by
  obtain ⟨-, u, hw, rfl⟩ := (popHandler_eq_ok n l s t).1 h
  rw [readReg_writeReg_ne _ _ _ _ hr]
  exact readReg_of_writeLoc hl hw

theorem readReg_of_pushHandler (hr : r ≠ .rsp) (h : pushHandler n l s = .ok t) : t.readReg r = s.readReg r := by
  obtain ⟨-, -, rfl⟩ := (pushHandler_eq_ok n l s t).1 h
  rw [readReg_store, readReg_writeReg_ne _ _ _ _ hr]

theorem readReg_of_cmpHandler (hr : r ≠ .rflag) (h : cmpHandler n l m s = .ok t) : t.readReg r = s.readReg r := by
  obtain ⟨-, -, rfl⟩ := (cmpHandler_eq_ok n l m s t).1 h
  exact readReg_writeReg_ne _ _ _ _ hr

theorem readReg_of_printHandler (h : printHandler n l s = .ok t) : t.readReg r = s.readReg r := by
  obtain ⟨-, rfl⟩ := (printHandler_eq_ok n l s t).1 h
  exact readReg_emit s _ r

end

/-- A written slot resolves to the storage of a register only if the instruction names it (R27, R146). -/
theorem ne_reg_of_resolveWritten {i : Instr} {d : Operand} {r : Reg} {k : Nat} {s : State} {l : Loc}
    (hr : ¬ namesDestination i r) (hd : writtenOperand i = some d) (hl : resolveWritten k d s = .ok l) : l ≠ .reg r := by
  rintro rfl
  obtain ⟨id, rfl, hid⟩ := resolve_eq_reg ((resolveWritten_eq_ok k d s _).1 hl).1
  exact hr ⟨id, hd, hid⟩

/-- The body of an instruction that transfers no control and does not name `RIP` leaves `RIP` where the advance put it (R143). -/
theorem readReg_rip_of_body {i : Instr} {s t : State} (hjump : transfersControl i = false)
    (hnamed : ¬ namesDestination i .rip) (h : body i s = .ok t) : t.readReg .rip = s.readReg .rip := by
  cases i with
  | jmp n o | call n o | ret n | je n o | jne n o | jl n o | jg n o | jle n o | jge n o => cases hjump
  | exit n =>
    cases h
    exact readReg_setStatus s _ _
  | print n o =>
    obtain ⟨l, -, h⟩ := (bind_eq_ok _ _ _).1 h
    exact readReg_of_printHandler h
  | push n o =>
    obtain ⟨l, -, h⟩ := (bind_eq_ok _ _ _).1 h
    exact readReg_of_pushHandler (by decide) h
  | cmp n a b =>
    obtain ⟨l, -, h⟩ := (bind_eq_ok _ _ _).1 h
    obtain ⟨m, -, h⟩ := (bind_eq_ok _ _ _).1 h
    exact readReg_of_cmpHandler (by decide) h
  | pop n d =>
    obtain ⟨l, hl, h⟩ := (bind_eq_ok _ _ _).1 h
    exact readReg_of_popHandler (by decide) (ne_reg_of_resolveWritten hnamed rfl hl) h
  | mov n d o =>
    obtain ⟨l, hl, h⟩ := (bind_eq_ok _ _ _).1 h
    obtain ⟨m, -, h⟩ := (bind_eq_ok _ _ _).1 h
    exact readReg_of_movHandler (ne_reg_of_resolveWritten hnamed rfl hl) h
  | add n d o | sub n d o | mul n d o | div n d o | mod n d o =>
    obtain ⟨l, hl, h⟩ := (bind_eq_ok _ _ _).1 h
    obtain ⟨m, -, h⟩ := (bind_eq_ok _ _ _).1 h
    exact readReg_of_binaryHandler (ne_reg_of_resolveWritten hnamed rfl hl) h
  | inc n d | dec n d =>
    obtain ⟨l, hl, h⟩ := (bind_eq_ok _ _ _).1 h
    exact readReg_of_unaryHandler (ne_reg_of_resolveWritten hnamed rfl hl) h

/-- Settles O41: an instruction that takes no fault commits its body, which keeps the advanced `RIP`. -/
theorem ripAdvancesByTheRecordLength : Obligations.RipAdvancesByTheRecordLength := by
  intro i s t _ h hfault hjump hnamed
  rcases (exec_eq_next i s t).1 h with hbody | ⟨r, -, rfl⟩
  · rw [readReg_rip_of_body hjump hnamed hbody, readReg_advance_rip]
    rfl
  · exact absurd rfl hfault

end Sys2Proof.Machine
end

section
/-! SUPPORT. Proofs of the statements of 41_data_movement.md. With its slots resolved, the body of an instruction is its handler,
whose faults are listed in the order of its lines (R181, R182, R190, R191) and which otherwise writes one location (R180, R181,
R182). A state is known by its registers, its bytes and the rest of the machine, so a claim about a write carries over to every
state that agrees with the one written (`Written.congr_left`). A `push` and a `pop` of general registers are the two writes one
after the other. -/

namespace Sys2Proof.Machine

/-! ### Bodies with their slots resolved (R144, R152) -/

section
variable {n : Size} {o d src : Operand} {l m : Loc} {s : State}

theorem body_push (hl : resolve o s = .ok l) : body (.push n o) s = pushHandler n l s := by
  simp only [body, hl, ok_bind]

theorem body_pop (hl : resolve o s = .ok l) (himm : ∀ v, l ≠ .imm v) : body (.pop n o) s = popHandler n l s := by
  simp only [body, (resolveWritten_eq_ok 0 o s l).2 ⟨hl, himm⟩, ok_bind]

theorem body_call (hl : resolve o s = .ok l) : body (.call n o) s = callHandler n l s := by
  simp only [body, hl, ok_bind]

theorem body_mov (hl : resolve d s = .ok l) (himm : ∀ v, l ≠ .imm v) (hm : resolve src s = .ok m) :
    body (.mov n d src) s = movHandler n l m s := by
  simp only [body, (resolveWritten_eq_ok 0 d s l).2 ⟨hl, himm⟩, hm, ok_bind]

end

/-- A body that raises nothing is committed (R140). -/
theorem exec_of_body {i : Instr} {s t : State} (h : body i (advanced i s) = .ok t) : exec i s = .next t :=
  (exec_eq_next i s t).2 (.inl h)

/-- An instruction that leaves a machine that has not faulted commits what its body leaves (R247). -/
theorem body_of_exec {i : Instr} {s t : State} (h : exec i s = .next t) (ht : t.status ≠ .faulted) :
    body i (advanced i s) = .ok t := by
  rcases (exec_eq_next i s t).1 h with hbody | ⟨r, -, rfl⟩
  · exact hbody
  · exact absurd (status_takeFault r s) ht

/-! ### The faults of the stack handlers, in the order of their lines (R181, R182, R190, R191, R245) -/

section
variable (n : Size) (l : Loc) (s : State) (r : Raise)

theorem pushHandler_eq_error :
    pushHandler n l s = .error r ↔
      (∃ a, l = .mem a ∧ s.inBounds a n.bytes = false ∧ r = ⟨.memoryFault, a⟩) ∨
        (l.accessible n s = true ∧ s.inBounds (s.readReg .rsp - BitVec.ofNat 64 n.bytes) n.bytes = false ∧
          r = ⟨.memoryFault, s.readReg .rsp - BitVec.ofNat 64 n.bytes⟩) := by
  simp [pushHandler, bind_eq_error, readLoc_eq_error, readLoc_eq_ok, memWrite_eq_error]

theorem popHandler_eq_error (himm : ∀ v, l ≠ .imm v) :
    popHandler n l s = .error r ↔
      (s.inBounds (s.readReg .rsp) n.bytes = false ∧ r = ⟨.memoryFault, s.readReg .rsp⟩) ∨
        (s.inBounds (s.readReg .rsp) n.bytes = true ∧
          ∃ a, l = .mem a ∧ s.inBounds a n.bytes = false ∧ r = ⟨.memoryFault, a⟩) := by
  simp [popHandler, bind_eq_error, memRead_eq_error, memRead_eq_ok, writeLoc_eq_error _ _ _ _ _ himm]

theorem jmpHandler_eq_error :
    jmpHandler n l s = .error r ↔ ∃ a, l = .mem a ∧ s.inBounds a n.bytes = false ∧ r = ⟨.memoryFault, a⟩ := by
  simp [jmpHandler, bind_eq_error, readLoc_eq_error]

theorem callHandler_eq_error :
    callHandler n l s = .error r ↔
      (s.inBounds (s.readReg .rsp - 8) 8 = false ∧ r = ⟨.memoryFault, s.readReg .rsp - 8⟩) ∨
        (s.inBounds (s.readReg .rsp - 8) 8 = true ∧
          ∃ a, l = .mem a ∧ s.inBounds a n.bytes = false ∧ r = ⟨.memoryFault, a⟩) := by
  simp [callHandler, bind_eq_error, memWrite_eq_error, memWrite_eq_ok, jmpHandler_eq_error]

theorem retHandler_eq_error :
    retHandler s = .error r ↔ s.inBounds (s.readReg .rsp) 8 = false ∧ r = ⟨.memoryFault, s.readReg .rsp⟩ := by
  simp [retHandler, bind_eq_error, memRead_eq_error]

end

section
variable {n : Size} {o : Operand} {s : State} {l : Loc} {a : Word}

theorem takesFault_push (hl : resolve o (advance 16 s) = .ok l)
    (h : pushHandler n l (advance 16 s) = .error ⟨.memoryFault, a⟩) :
    TakesFault (exec (.push n o) s) s .memoryFault a :=
  takesFault_of_body ((body_push hl).trans h)

theorem takesFault_pop (hl : resolve o (advance 16 s) = .ok l) (himm : ∀ v, l ≠ .imm v)
    (h : popHandler n l (advance 16 s) = .error ⟨.memoryFault, a⟩) : TakesFault (exec (.pop n o) s) s .memoryFault a :=
  takesFault_of_body ((body_pop hl himm).trans h)

theorem takesFault_call (hl : resolve o (advance 16 s) = .ok l)
    (h : callHandler n l (advance 16 s) = .error ⟨.memoryFault, a⟩) :
    TakesFault (exec (.call n o) s) s .memoryFault a :=
  takesFault_of_body ((body_call hl).trans h)

theorem takesFault_ret (h : retHandler (advance 8 s) = .error ⟨.memoryFault, a⟩) :
    TakesFault (exec (.ret n) s) s .memoryFault a :=
  takesFault_of_body (i := .ret n) h

end

/-- Settles O23: each clause is one fault of a handler on the advanced state, which has the bounds and the `RSP` of the state
before the step. -/
theorem stackInstructionsFaultInOrder : Obligations.StackInstructionsFaultInOrder := by
  intro n o s l a hl
  refine ⟨?pushSource, ?pushStore, ?popLoad, ?popWrite, ?callStore, ?callTarget, ?ret⟩
  case pushSource =>
    rintro rfl hb
    exact takesFault_push hl ((pushHandler_eq_error _ _ _ _).2 (.inl ⟨a, rfl, by simpa using hb, rfl⟩))
  case pushStore =>
    rintro hacc rfl hb
    exact takesFault_push hl ((pushHandler_eq_error _ _ _ _).2 (.inr (by simpa using ⟨hacc, hb⟩)))
  case popLoad =>
    rintro himm rfl hb
    exact takesFault_pop hl himm ((popHandler_eq_error _ _ _ _ himm).2 (.inl (by simpa using hb)))
  case popWrite =>
    rintro rfl hsp hb
    exact takesFault_pop hl (by simp) ((popHandler_eq_error _ _ _ _ (by simp)).2 (.inr (by simpa using ⟨hsp, hb⟩)))
  case callStore =>
    rintro rfl hb
    exact takesFault_call hl ((callHandler_eq_error _ _ _ _).2 (.inl (by simpa using hb)))
  case callTarget =>
    rintro rfl hsp hb
    exact takesFault_call hl ((callHandler_eq_error _ _ _ _).2 (.inr (by simpa using ⟨hsp, hb⟩)))
  case ret =>
    rintro rfl hb
    exact takesFault_ret ((retHandler_eq_error _ _).2 (by simpa using hb))

/-! ### States that agree on everything an instruction can see -/

theorem onlyReg_writeReg (s : State) (r : Reg) (v : Word) : OnlyReg s (s.writeReg r v) r v :=
  ⟨readReg_writeReg_same s r v, fun r' hr => readReg_writeReg_ne s r r' v (by simpa using hr),
    fun a => readByte_writeReg s r v a,
    arenaSize_writeReg .., status_writeReg .., faultCause_writeReg .., faultInfo_writeReg .., output_writeReg ..⟩

/-- A state that differs from `s` in one register alone agrees with the write of that register. -/
theorem onlyRegs_nil_of_onlyReg {s u : State} {r : Reg} {v : Word} (h : OnlyReg s u r v) :
    OnlyRegs (s.writeReg r v) u [] := by
  obtain ⟨hv, hregs, hbytes, hsystem⟩ := h
  refine ⟨fun r' _ => ?_, fun a => ?_, ?_⟩
  · rw [readReg_writeReg]
    split
    next heq => rw [heq, hv]
    next hne => exact hregs r' (by simpa using hne)
  · rw [readByte_writeReg, hbytes]
  · simpa [SameSystem] using hsystem

section
variable {s t u : State}

theorem readReg_congr (h : OnlyRegs s t []) (r : Reg) : t.readReg r = s.readReg r :=
  h.1 r List.not_mem_nil

/-- What a location holds depends on the registers and the bytes alone (R150). -/
theorem valueAt_congr (h : OnlyRegs s t []) (l : Loc) (n : Size) : t.valueAt l n = s.valueAt l n := by
  cases l with
  | reg r => rw [State.valueAt, State.valueAt, readReg_congr h]
  | mem a => exact load_congr s t a n.bytes fun j _ => h.2.1 _
  | imm v => rfl

theorem SameSystem.congr_left (h : SameSystem s u) (ht : SameSystem s t) : SameSystem u t := by
  simp_all [SameSystem]

/-- A write to `s` is one to every state that agrees with `s`. -/
theorem Written.congr_left {l : Loc} {n : Size} {v : Nat} (h : OnlyRegs s u []) (hw : Written s t l n v) :
    Written u t l n v where
  value := hw.value
  upper := fun r hr => by rw [readReg_congr h, hw.upper r hr]
  registers := fun r hr => by rw [readReg_congr h, hw.registers r hr]
  bytes := fun a ha => by rw [h.2.1, hw.bytes a ha]
  system := h.2.2.congr_left hw.system

end

/-! ### The location that each handler writes (R180, R181, R182) -/

/-- A value of `n` bytes is written whole (R151). -/
theorem written_putAt_of_lt (s : State) {l : Loc} {n : Size} {v : Nat} (himm : ∀ x, l ≠ .imm x)
    (hv : v < 2 ^ (8 * n.bytes)) : Written s (s.putAt l n v) l n v := by
  simpa only [Nat.mod_eq_of_lt hv] using written_putAt s n v himm

section
variable {n : Size} {l m : Loc} {s t : State}

theorem written_of_movHandler (h : movHandler n l m s = .ok t) : Written s t l n (s.valueAt m n) := by
  obtain ⟨-, hw⟩ := (movHandler_eq_ok n l m s t).1 h
  obtain ⟨-, himm, rfl⟩ := (writeLoc_eq_ok _ _ _ _ _).1 hw
  exact written_putAt_of_lt s himm (valueAt_lt s m n)

/-- `push` moves `RSP` first, and then stores at the new `RSP` what its source holds (R181). -/
theorem written_of_pushHandler (h : pushHandler n l s = .ok t) :
    Written (s.writeReg .rsp (s.readReg .rsp - BitVec.ofNat 64 n.bytes)) t
      (.mem (s.readReg .rsp - BitVec.ofNat 64 n.bytes)) n
      ((s.writeReg .rsp (s.readReg .rsp - BitVec.ofNat 64 n.bytes)).valueAt l n) := by
  obtain ⟨-, -, rfl⟩ := (pushHandler_eq_ok n l s t).1 h
  exact written_putAt_of_lt (l := .mem _) _ (by simp) (valueAt_lt _ l n)

/-- `pop` writes what it loads, and then moves `RSP` from where that write left it (R182). -/
theorem written_of_popHandler (h : popHandler n l s = .ok t) :
    ∃ u, Written s u l n (s.load (s.readReg .rsp) n.bytes) ∧
      OnlyReg u t .rsp (u.readReg .rsp + BitVec.ofNat 64 n.bytes) := by
  obtain ⟨-, u, hw, rfl⟩ := (popHandler_eq_ok n l s t).1 h
  obtain ⟨-, himm, rfl⟩ := (writeLoc_eq_ok _ _ _ _ _).1 hw
  exact ⟨_, written_putAt_of_lt s himm (valueAt_lt s (.mem _) n), onlyReg_writeReg _ _ _⟩

end

/-- Settles O24: the handler completes because both locations pass their bounds checks. -/
theorem movCopiesItsSource : Obligations.MovCopiesItsSource := by
  intro n d src s l m hl himm hm hlacc hmacc
  have h : movHandler n l m (advance 24 s) = .ok _ :=
    (movHandler_eq_ok _ _ _ _ _).2 ⟨by simpa using hmacc, (writeLoc_eq_ok _ _ _ _ _).2 ⟨by simpa using hlacc, himm, rfl⟩⟩
  exact ⟨_, exec_of_body ((body_mov hl himm hm).trans h), written_of_movHandler h⟩

/-- Settles O25: the state given agrees with the one in which the handler has moved `RSP`. -/
theorem pushStoresBelowTheStackPointer : Obligations.PushStoresBelowTheStackPointer := by
  rintro n o s u l sp hl hacc rfl hb hu
  have h : pushHandler n l (advance 16 s) = .ok _ :=
    (pushHandler_eq_ok _ _ _ _).2 ⟨by simpa using hacc, by simpa using hb, rfl⟩
  have hagree := onlyRegs_nil_of_onlyReg hu
  refine ⟨_, exec_of_body ((body_push hl).trans h), ?_⟩
  rw [valueAt_congr hagree]
  exact (written_of_pushHandler h).congr_left hagree

/-- Settles O26: the state between the two lines of the handler is the one that the write leaves. -/
theorem popLoadsThenMovesTheStackPointer : Obligations.PopLoadsThenMovesTheStackPointer := by
  intro n o s l hl himm hacc hb
  have h : popHandler n l (advance 16 s) = .ok _ :=
    (popHandler_eq_ok _ _ _ _).2
      ⟨by simpa using hb, _, (writeLoc_eq_ok _ _ _ _ _).2 ⟨by simpa using hacc, himm, rfl⟩, rfl⟩
  obtain ⟨u, hwritten, honly⟩ := written_of_popHandler h
  exact ⟨u, _, exec_of_body ((body_pop hl himm).trans h), by simpa using hwritten, honly⟩

/-! ### A `push` and a `pop` of general registers (R22, R181, R182) -/

/-- The registers numbered 0 to 5 are the general ones; the stack pointer and the program counter are none of them (R22). -/
theorem general_of_regOfNumber {i : Nat} {r : Reg} (hi : i < 6) (h : regOfNumber i = some r) : r ≠ .rip ∧ r ≠ .rsp := by
  obtain rfl := (regOfNumber_eq_some i r).1 h
  constructor <;> rintro rfl <;> exact absurd hi (by decide)

theorem resolve_reg_of_regOfNumber {i : Word} {r : Reg} (h : regOfNumber i.toNat = some r) (s : State) :
    resolve (.reg i) s = .ok (.reg r) := by
  rw [resolve_reg, (checkRegister_eq_ok i r).2 h, ok_bind]

section
variable {n : Size} {i : Word} {r : Reg} {s t : State}

/-- A `push` of a general register that completes moves `RSP` down by the size, changes no other register but `RIP`, and leaves at
the new `RSP` the low bytes of the register pushed (R181). -/
theorem push_of_general (hi : i.toNat < 6) (hr : regOfNumber i.toNat = some r) (h : exec (.push n (.reg i)) s = .next t)
    (ht : t.status = .running) :
    t.readReg .rsp = s.readReg .rsp - BitVec.ofNat 64 n.bytes ∧ SameRegsBut s t [.rsp, .rip] ∧
      t.load (t.readReg .rsp) n.bytes = s.valueAt (.reg r) n := by
  obtain ⟨hrip, hrsp⟩ := general_of_regOfNumber hi hr
  have hpush : pushHandler n (.reg r) (advance 16 s) = .ok t :=
    (body_push (resolve_reg_of_regOfNumber hr _)).symm.trans (body_of_exec h (by simp [ht]))
  have hw := written_of_pushHandler hpush
  have hsp : t.readReg .rsp = s.readReg .rsp - BitVec.ofNat 64 n.bytes := by simp [hw.registers .rsp]
  refine ⟨hsp, fun q hq => ?_, ?_⟩
  · obtain ⟨hqsp, hqip⟩ : q ≠ .rsp ∧ q ≠ .rip := by simpa using hq
    simp [hw.registers q, hqsp, hqip]
  · rw [hsp]
    simpa [State.valueAt, hrip, hrsp] using hw.value

/-- A `pop` into a general register that completes leaves in it the low bytes at `RSP`, moves `RSP` up by the size, and changes no
other register but `RIP` (R182). -/
theorem pop_of_general (hi : i.toNat < 6) (hr : regOfNumber i.toNat = some r) (h : exec (.pop n (.reg i)) s = .next t)
    (ht : t.status = .running) :
    t.valueAt (.reg r) n = s.load (s.readReg .rsp) n.bytes ∧ t.readReg .rsp = s.readReg .rsp + BitVec.ofNat 64 n.bytes ∧
      SameRegsBut s t [r, .rsp, .rip] := by
  obtain ⟨hrip, hrsp⟩ := general_of_regOfNumber hi hr
  have hpop : popHandler n (.reg r) (advance 16 s) = .ok t :=
    (body_pop (resolve_reg_of_regOfNumber hr _) (by simp)).symm.trans (body_of_exec h (by simp [ht]))
  obtain ⟨u, hw, hsp, hregs, -⟩ := written_of_popHandler hpop
  refine ⟨?_, ?_, fun q hq => ?_⟩
  · have hvalue := hw.value
    rw [State.valueAt] at hvalue ⊢
    rw [hregs r (by simpa using hrsp), hvalue]
    simp
  · rw [hsp, hw.registers .rsp (by simpa using hrsp)]
    simp
  · obtain ⟨hqr, hqsp, hqip⟩ : q ≠ r ∧ q ≠ .rsp ∧ q ≠ .rip := by simpa using hq
    rw [hregs q (by simpa using hqsp), hw.registers q (by simpa using hqr.symm)]
    exact readReg_advance_ne _ s q hqip

end

/-- Settles O49: the `pop` loads what the `push` has left at the new `RSP`, and both move `RSP` by the same size. -/
theorem pushThenPopRestores : Obligations.PushThenPopRestores := by
  intro n i j r q s t u hi hj hr hq _ hpush ht hpop hu
  obtain ⟨hdown, hsame, hstored⟩ := push_of_general hi hr hpush ht
  obtain ⟨hloaded, hup, hsame'⟩ := pop_of_general hj hq hpop hu
  refine ⟨hloaded.trans hstored, fun x hx => ?_⟩
  obtain ⟨hxq, hxip⟩ : x ≠ q ∧ x ≠ .rip := by simpa using hx
  by_cases hxsp : x = .rsp
  · rw [hxsp, hup, hdown, BitVec.sub_add_cancel]
  · rw [hsame' x (by simp [hxq, hxsp, hxip]), hsame x (by simp [hxsp, hxip])]

end Sys2Proof.Machine
end

section
/-! SUPPORT. Proofs of the statements of 42_control_transfer.md. A jump writes `RIP` alone (R192); a `call` is the store of the
return address followed by that jump (`written_of_callHandler`, R190), and a `ret` after it loads what was stored (R191). The six
conditional jumps are one argument over the bit test of each and the signed condition it stands for (`jumpsWhen_of_condition`,
R193 to R199). The result of `cmp` is the difference of two sign-extended numbers, which cannot overflow below 8 bytes
(`toInt_compareResult`, R217). -/

namespace Sys2Proof.Machine

/-! ### Jumps (R192) -/

/-- A target is a code offset, which the image header moves by 16 bytes. -/
theorem jumpTarget_eq (t : Nat) : jumpTarget t = BitVec.ofNat 64 t + 16 := rfl

section
variable {n : Size} {o a b : Operand} {l m : Loc} {s t : State}

theorem body_jmp (hl : resolve o s = .ok l) : body (.jmp n o) s = jmpHandler n l s := by
  simp only [body, hl, ok_bind]

theorem body_cmp (hl : resolve a s = .ok l) (hm : resolve b s = .ok m) : body (.cmp n a b) s = cmpHandler n l m s := by
  simp only [body, hl, hm, ok_bind]

theorem onlyReg_of_jmpHandler (h : jmpHandler n l s = .ok t) :
    OnlyReg s t .rip (BitVec.ofNat 64 (s.valueAt l n) + 16) := by
  obtain ⟨-, rfl⟩ := (jmpHandler_eq_ok n l s t).1 h
  exact onlyReg_writeReg s .rip _

end

/-- Settles O29: the handler completes because the target passes its bounds check. -/
theorem jmpGoesToTargetPlusHeader : Obligations.JmpGoesToTargetPlusHeader := by
  intro n o s l hl hacc
  have h : jmpHandler n l (advance 16 s) = .ok _ := (jmpHandler_eq_ok _ _ _ _).2 ⟨by simpa using hacc, rfl⟩
  exact ⟨_, exec_of_body ((body_jmp hl).trans h), onlyReg_of_jmpHandler h⟩

/-! ### Conditional jumps (R193 to R199) -/

theorem toInt_eq_zero_iff (f : Word) : f.toInt = 0 ↔ f = 0 := by
  rw [← BitVec.toInt_inj, BitVec.ofNat_eq_ofNat, BitVec.toInt_zero]

section
variable (f : Word)

theorem condEqual_iff : condEqual f = true ↔ f.toInt = 0 := by
  simp [condEqual, toInt_eq_zero_iff]

theorem condNotEqual_iff : condNotEqual f = true ↔ f.toInt ≠ 0 := by
  simp [condNotEqual, toInt_eq_zero_iff]

theorem condLess_iff : condLess f = true ↔ f.toInt < 0 := by
  simp [condLess, BitVec.msb_eq_toInt]

theorem condLessEqual_iff : condLessEqual f = true ↔ f.toInt ≤ 0 := by
  rw [Int.le_iff_lt_or_eq, toInt_eq_zero_iff]
  simp [condLessEqual, BitVec.msb_eq_toInt]

theorem condGreaterEqual_iff : condGreaterEqual f = true ↔ f.toInt ≥ 0 := by
  simp [condGreaterEqual, BitVec.msb_eq_toInt]

theorem condGreater_iff : condGreater f = true ↔ f.toInt > 0 := by
  rw [gt_iff_lt, Int.lt_iff_le_and_ne, ne_comm, ne_eq, toInt_eq_zero_iff]
  simp [condGreater, BitVec.msb_eq_toInt]

end

section
variable {cond : Word → Bool} {s : State}

theorem jccHandler_taken (h : cond (s.readReg .rflag) = true) (n : Size) (l : Loc) :
    jccHandler cond n l s = jmpHandler n l s := if_pos h

theorem jccHandler_untaken (h : cond (s.readReg .rflag) = false) (n : Size) (l : Loc) : jccHandler cond n l s = .ok s :=
  if_neg (by simp [h])

end

/-- An instruction whose body is the conditional jump on a test of `RFLAG` jumps exactly when the signed condition holds for
which the test stands: a taken one is a `jmp`, and an untaken one leaves the advanced state, whatever its target is (R193,
D28). -/
theorem jumpsWhen_of_condition {mk : Size → Operand → Instr} {cond : Word → Bool} {P : Int → Prop}
    (harity : ∀ n o, (mk n o).arity = 1)
    (hbody : ∀ n o t, body (mk n o) t = resolve o t >>= fun l => jccHandler cond n l t)
    (hcond : ∀ f, cond f = true ↔ P f.toInt) : JumpsWhen mk P := by
  intro n o s l hl
  have hrun : body (mk n o) (advanced (mk n o) s) = jccHandler cond n l (advance 16 s) := by
    rw [advanced, harity]
    exact (hbody n o (advance 16 s)).trans (by rw [hl, ok_bind])
  have hflag : (advance 16 s).readReg .rflag = s.readReg .rflag := readReg_advance_ne 16 s .rflag (by decide)
  have htaken (hP : P (s.readReg .rflag).toInt) :
      body (mk n o) (advanced (mk n o) s) = jmpHandler n l (advance 16 s) :=
    hrun.trans (jccHandler_taken (by rwa [hflag, hcond]) n l)
  refine ⟨fun hP hacc => ?taken, fun a hP hl' hb => ?outOfBounds, fun hP => ?untaken⟩
  case taken =>
    have h : jmpHandler n l (advance 16 s) = .ok _ := (jmpHandler_eq_ok _ _ _ _).2 ⟨hacc, rfl⟩
    exact ⟨_, exec_of_body ((htaken hP).trans h), onlyReg_of_jmpHandler h⟩
  case outOfBounds =>
    have h : jmpHandler n l (advance 16 s) = .error ⟨.memoryFault, a⟩ :=
      (jmpHandler_eq_error _ _ _ _).2 ⟨a, hl', by simpa using hb, rfl⟩
    exact takesFault_of_body ((htaken hP).trans h)
  case untaken =>
    have hfalse : cond ((advance 16 s).readReg .rflag) = false := by
      rwa [hflag, ← Bool.not_eq_true, hcond]
    exact ⟨_, exec_of_body (hrun.trans (jccHandler_untaken hfalse n l)), onlyReg_writeReg s .rip _⟩

/-- Settles O30: each conditional jump tests the signed condition of its name. -/
theorem conditionalJumpsTestSignedRflag : Obligations.ConditionalJumpsTestSignedRflag :=
  ⟨jumpsWhen_of_condition (fun _ _ => rfl) (fun _ _ _ => rfl) condEqual_iff,
    jumpsWhen_of_condition (fun _ _ => rfl) (fun _ _ _ => rfl) condNotEqual_iff,
    jumpsWhen_of_condition (fun _ _ => rfl) (fun _ _ _ => rfl) condLess_iff,
    jumpsWhen_of_condition (fun _ _ => rfl) (fun _ _ _ => rfl) condLessEqual_iff,
    jumpsWhen_of_condition (fun _ _ => rfl) (fun _ _ _ => rfl) condGreater_iff,
    jumpsWhen_of_condition (fun _ _ => rfl) (fun _ _ _ => rfl) condGreaterEqual_iff⟩

/-! ### `call` and `ret` (R190, R191) -/

section
variable {n : Size} {l : Loc} {s t : State}

/-- `call` moves `RSP`, stores `RIP` at the new `RSP`, and then jumps to what its target holds after that store (R190). -/
theorem written_of_callHandler (h : callHandler n l s = .ok t) :
    ∃ w, Written (s.writeReg .rsp (s.readReg .rsp - 8)) w (.mem (s.readReg .rsp - 8)) .b8 (s.readReg .rip).toNat ∧
      OnlyReg w t .rip (BitVec.ofNat 64 (w.valueAt l n) + 16) := by
  obtain ⟨-, hjmp⟩ := (callHandler_eq_ok n l s t).1 h
  exact ⟨_, written_putAt_of_lt (l := .mem _) (n := .b8) _ (by simp) (s.readReg .rip).isLt, onlyReg_of_jmpHandler hjmp⟩

/-- A load depends on the arena's bytes alone (R57). -/
theorem load_of_sameBytes (h : SameBytes s t) (a : Word) (k : Nat) : t.load a k = s.load a k :=
  load_congr s t a k fun _ _ => h _

/-- A `call` that raises nothing leaves its return address in bounds at the new `RSP`, and changes no other register but `RIP`
(R190). -/
theorem stack_of_callHandler (h : callHandler n l s = .ok t) :
    t.readReg .rsp = s.readReg .rsp - 8 ∧ t.inBounds (t.readReg .rsp) 8 = true ∧
      t.load (t.readReg .rsp) 8 = (s.readReg .rip).toNat ∧ SameRegsBut s t [.rsp, .rip] := by
  obtain ⟨hbounds, -⟩ := (callHandler_eq_ok n l s t).1 h
  obtain ⟨w, hw, -, hregs, hbytes, hsize, -⟩ := written_of_callHandler h
  have hsp : t.readReg .rsp = s.readReg .rsp - 8 := by
    rw [hregs .rsp (by decide), hw.registers .rsp (by simp), readReg_writeReg_same]
  have hsize' : t.arenaSize = s.arenaSize := by rw [hsize, hw.system.1, arenaSize_writeReg]
  refine ⟨hsp, ?_, ?_, fun r hr => ?_⟩
  · rwa [hsp, inBounds_congr s t hsize']
  · rw [hsp, load_of_sameBytes hbytes]
    exact hw.value
  · obtain ⟨hrsp, hrip⟩ : r ≠ .rsp ∧ r ≠ .rip := by simpa using hr
    rw [hregs r (by simpa using hrip), hw.registers r (by simp), readReg_writeReg_ne _ _ _ _ hrsp]

/-- `ret` answers the word at `RSP` as it is, and moves `RSP` past it (R191). -/
theorem onlyRegs_of_retHandler (h : retHandler s = .ok t) :
    (t.readReg .rip).toNat = s.load (s.readReg .rsp) 8 ∧ t.readReg .rsp = s.readReg .rsp + 8 ∧
      OnlyRegs s t [.rip, .rsp] := by
  obtain ⟨-, rfl⟩ := (retHandler_eq_ok s t).1 h
  refine ⟨?_, readReg_writeReg_same _ _ _, fun r hr => ?_, fun a => by simp, by simp [SameSystem]⟩
  · rw [readReg_writeReg_ne _ _ _ _ (by decide), readReg_writeReg_same, BitVec.toNat_ofNat]
    exact Nat.mod_eq_of_lt (load_lt s _ 8)
  · obtain ⟨hrip, hrsp⟩ : r ≠ .rip ∧ r ≠ .rsp := by simpa using hr
    rw [readReg_writeReg_ne _ _ _ _ hrsp, readReg_writeReg_ne _ _ _ _ hrip]

end

/-- A `ret` with the word at `RSP` in bounds completes: it answers that word as it is, and moves `RSP` past it (R191). -/
theorem exec_ret (n : Size) {s : State} (h : s.inBounds (s.readReg .rsp) 8 = true) :
    ∃ t, exec (.ret n) s = .next t ∧ (t.readReg .rip).toNat = s.load (s.readReg .rsp) 8 ∧
      t.readReg .rsp = s.readReg .rsp + 8 ∧ OnlyRegs s t [.rip, .rsp] := by
  obtain ⟨t, hret⟩ : ∃ t, retHandler (advance 8 s) = .ok t := ⟨_, (retHandler_eq_ok _ _).2 ⟨by simpa using h, rfl⟩⟩
  obtain ⟨hrip, hrsp, hregs, hbytes, hsystem⟩ := onlyRegs_of_retHandler hret
  refine ⟨t, exec_of_body (i := .ret n) hret, by simpa using hrip, by simpa using hrsp, fun r hr => ?_, fun a => ?_, ?_⟩
  · obtain ⟨hne, -⟩ : r ≠ .rip ∧ r ≠ .rsp := by simpa using hr
    rw [hregs r hr, readReg_advance_ne _ _ _ hne]
  · rw [hbytes, readByte_advance]
  · simpa [SameSystem] using hsystem

/-- Settles O27: the state given agrees with the one in which the handler has moved `RSP`, and the state between the two is the one
that the store leaves. -/
theorem callPushesReturnAddressAndJumps : Obligations.CallPushesReturnAddressAndJumps := by
  rintro n o s u l sp hl hacc rfl hb hu
  have h : callHandler n l (advance 16 s) = .ok _ :=
    (callHandler_eq_ok _ _ _ _).2 ⟨by simpa using hb, (jmpHandler_eq_ok _ _ _ _).2 ⟨by simpa using hacc, rfl⟩⟩
  obtain ⟨w, hw, hjump⟩ := written_of_callHandler h
  refine ⟨w, _, exec_of_body ((body_call hl).trans h), ?_, hjump⟩
  simpa using hw.congr_left (onlyRegs_nil_of_onlyReg hu)

/-- Settles O28: the word that `ret` loads is the sum of its bytes, each weighted by its place. -/
theorem retPopsTheReturnAddress : Obligations.RetPopsTheReturnAddress := by
  intro n s hb
  obtain ⟨t, ht, hrip, hrsp, honly⟩ := exec_ret n hb
  exact ⟨t, ht, hrip.trans (leNat_readBytes _ _ _), hrsp, honly⟩

/-- Settles O50: the `ret` loads the return address that the `call` has left at `RSP`, and both move `RSP` by 8. -/
theorem callThenRetComesBack : Obligations.CallThenRetComesBack := by
  intro n m o s t _ hcall ht
  obtain ⟨l, -, h⟩ := (bind_eq_ok _ _ _).1 (body_of_exec hcall (by simp [ht]))
  obtain ⟨hdown, hbounds, hstored, hsame⟩ := stack_of_callHandler h
  obtain ⟨u, hret, hrip, hup, hsame', -⟩ := exec_ret m hbounds
  refine ⟨u, hret, BitVec.eq_of_toNat_eq ?_, fun r hr => ?_⟩
  · rw [hrip, hstored]
    exact congrArg BitVec.toNat (readReg_advance_rip 16 s)
  · have hne : r ≠ .rip := by simpa using hr
    by_cases hrsp : r = .rsp
    · rw [hrsp, hup, hdown, BitVec.sub_add_cancel]
      exact readReg_advance_ne _ s _ (by decide)
    · rw [hsame' r (by simp [hne, hrsp]), hsame r (by simp [hne, hrsp])]
      exact readReg_advance_ne _ s r hne

/-! ### The order that `cmp` leaves in `RFLAG` (R199, R217) -/

section
variable {n : Size} {a b : Nat}

theorem signedValue_bounds (ha : a < 2 ^ (8 * n.bytes)) :
    -2 ^ (8 * n.bytes - 1) ≤ signedValue n a ∧ signedValue n a < 2 ^ (8 * n.bytes - 1) := by
  unfold signedValue
  split
  all_goals cases n <;> simp only [Size.bytes] at * <;> omega

/-- Two's complement tells numbers of one size apart. -/
theorem signedValue_inj (ha : a < 2 ^ (8 * n.bytes)) (hb : b < 2 ^ (8 * n.bytes)) :
    signedValue n a = signedValue n b ↔ a = b := by
  unfold signedValue
  split <;> split
  all_goals cases n <;> simp only [Size.bytes] at * <;> omega

/-- Sign extension adds a multiple of `2 ^ 64` to the signed value, which a word does not see (R217). -/
theorem toInt_sext_eq_bmod (n : Size) (a : Nat) : (sext n a).toInt = (signedValue n a).bmod (2 ^ 64) := by
  unfold sext signedValue
  split
  next hneg =>
    have hpow : 2 ^ (8 * n.bytes) ≤ a + 2 ^ config.xlen :=
      Nat.le_add_left_of_le (Nat.pow_le_pow_right (by decide) (by cases n <;> decide))
    have hcast : ((a + 2 ^ config.xlen - 2 ^ (8 * n.bytes) : Nat) : Int) = a - 2 ^ (8 * n.bytes) + (2 ^ 64 : Nat) := by
      rw [Nat.cast_sub hpow, show config.xlen = 64 from rfl]
      push_cast
      ring
    rw [if_neg (Nat.not_lt.2 hneg), BitVec.toInt_ofNat', hcast, Int.add_bmod_right]
  next hpos => rw [if_pos (Nat.not_le.1 hpos), BitVec.toInt_ofNat']

/-- Sign extension keeps the signed value (R217). -/
theorem toInt_sext (ha : a < 2 ^ (8 * n.bytes)) : (sext n a).toInt = signedValue n a := by
  have hhalf : (2 : Int) ^ (8 * n.bytes - 1) ≤ 2 ^ 63 := pow_le_pow_right₀ (by decide) (by cases n <;> decide)
  obtain ⟨hlow, hhigh⟩ := signedValue_bounds ha
  rw [toInt_sext_eq_bmod]
  exact Int.bmod_eq_of_le (by omega) (by omega)

/-- The result is zero exactly for equal operands, whatever the size: the difference may wrap, but not to zero. -/
theorem toInt_compareResult_eq_zero_iff (ha : a < 2 ^ (8 * n.bytes)) (hb : b < 2 ^ (8 * n.bytes)) :
    (compareResult n a b).toInt = 0 ↔ a = b := by
  rw [toInt_eq_zero_iff, compareResult, sub_eq_zero, ← BitVec.toInt_inj, toInt_sext ha, toInt_sext hb, signedValue_inj ha hb]

/-- Below 8 bytes the difference of two sign-extended numbers fits a word, so the result is exact (R217). -/
theorem toInt_compareResult (ha : a < 2 ^ (8 * n.bytes)) (hb : b < 2 ^ (8 * n.bytes)) (hn : n ≠ .b8) :
    (compareResult n a b).toInt = signedValue n a - signedValue n b := by
  have hhalf : (2 : Int) ^ (8 * n.bytes - 1) ≤ 2 ^ 31 := by
    refine pow_le_pow_right₀ (by decide) ?_
    cases n with
    | b1 | b2 | b4 => decide
    | b8 => exact absurd rfl hn
  obtain ⟨halow, hahigh⟩ := signedValue_bounds ha
  obtain ⟨hblow, hbhigh⟩ := signedValue_bounds hb
  rw [compareResult, BitVec.toInt_sub, toInt_sext ha, toInt_sext hb]
  exact Int.bmod_eq_of_le (by omega) (by omega)

end

/-- A `cmp` whose operands pass their bounds checks leaves the result of the comparison in `RFLAG` (R217). -/
theorem readReg_rflag_of_cmp {n : Size} {a b : Operand} {l m : Loc} {s t : State} (hl : resolve a (advance 24 s) = .ok l)
    (hm : resolve b (advance 24 s) = .ok m) (hlacc : l.accessible n s = true) (hmacc : m.accessible n s = true)
    (h : exec (.cmp n a b) s = .next t) :
    t.readReg .rflag = compareResult n ((advance 24 s).valueAt l n) ((advance 24 s).valueAt m n) := by
  have hcmp : cmpHandler n l m (advance 24 s) = .ok _ :=
    (cmpHandler_eq_ok _ _ _ _ _).2 ⟨by simpa using hlacc, by simpa using hmacc, rfl⟩
  obtain rfl := Host.Outcome.next.inj ((exec_of_body ((body_cmp hl hm).trans hcmp)).symm.trans h)
  exact readReg_writeReg_same _ _ _

/-- Settles O51: the signed result is zero for equal operands only, and below 8 bytes it is the exact difference. -/
theorem cmpOrdersSignedOperands : Obligations.CmpOrdersSignedOperands := by
  intro n a b s t l m hl hm hlacc hmacc h
  rw [readReg_rflag_of_cmp hl hm hlacc hmacc h]
  have hllt := valueAt_lt (advance 24 s) l n
  have hmlt := valueAt_lt (advance 24 s) m n
  refine ⟨toInt_compareResult_eq_zero_iff hllt hmlt, fun hn => ?_⟩
  rw [toInt_compareResult hllt hmlt hn]
  exact ⟨sub_neg, sub_pos⟩

end Sys2Proof.Machine
end

section
/-! SUPPORT. Proofs of the statements of 43_arithmetic.md. The ALU's results are the spec's numbers: natural numbers reduced modulo
`2 ^ (8 * n)`, and for `sub`, `inc` and `dec` the same reduction of an integer (`aluSub_eq_emod`, `aluInc_eq_emod`,
`aluDec_eq_emod`, R211, R215, R216). Every instruction with two operands that writes the first, and likewise every one with one
operand, is one argument over its ALU function: a result of `n` bytes is written whole at the destination, and nothing else changes
(`written_of_binary`, `written_of_unary`, R210 to R216). `cmp` writes `RFLAG` alone (R217). -/

namespace Sys2Proof.Machine

/-! ### Results of the ALU (R210 to R217) -/

section
variable {n : Size} {a b : Nat}

/-- Adding `2 ^ (8 * n)` first keeps the subtraction of natural numbers exact, and the reduction removes it again (R211). -/
theorem aluSub_eq_emod (hb : b ≤ 2 ^ (8 * n.bytes)) : (aluSub n a b : Int) = ((a : Int) - b) % 2 ^ (8 * n.bytes) := by
  rw [aluSub, trunc, Int.natCast_mod, Nat.cast_sub (Nat.le_add_left_of_le hb)]
  push_cast
  rw [add_sub_right_comm, Int.add_emod_right]

theorem aluInc_eq_emod : (aluInc n a : Int) = ((a : Int) + 1) % 2 ^ (8 * n.bytes) := by
  simp [aluInc, trunc]

/-- `dec` subtracts as `sub` does (R216). -/
theorem aluDec_eq_emod : (aluDec n a : Int) = ((a : Int) - 1) % 2 ^ (8 * n.bytes) :=
  aluSub_eq_emod (b := 1) Nat.one_le_two_pow

theorem aluDiv_of_ne_zero (hb : b ≠ 0) : aluDiv a b = .ok (a / b) := if_neg hb

theorem aluMod_of_ne_zero (hb : b ≠ 0) : aluMod a b = .ok (a % b) :=
  (if_neg hb).trans (congrArg Except.ok Nat.mod_eq_sub_mul_div.symm)

/-- The result of `cmp` is the difference of the signed values as a word keeps it, whatever the size (R217). -/
theorem toInt_compareResult_eq_bmod (ha : a < 2 ^ (8 * n.bytes)) (hb : b < 2 ^ (8 * n.bytes)) :
    (compareResult n a b).toInt = (signedValue n a - signedValue n b).bmod (2 ^ 64) := by
  rw [compareResult, BitVec.toInt_sub, toInt_sext ha, toInt_sext hb]

end

/-! ### Instructions that write what the ALU computes (R210 to R216) -/

section
variable {n : Size} {d src : Operand} {s : State} {l m : Loc} {i : Instr} {v : Nat}

/-- An instruction whose body computes a value of `n` bytes from both operands completes, and writes that value at the first. -/
theorem written_of_binary {f : Nat → Nat → Except Raise Nat} (harity : i.arity = 2)
    (hbody : ∀ t, body i t = resolveWritten 0 d t >>= fun l => resolve src t >>= fun m => binaryHandler f n l m t)
    (hl : resolve d (advance 24 s) = .ok l) (himm : ∀ x, l ≠ .imm x) (hm : resolve src (advance 24 s) = .ok m)
    (hlacc : l.accessible n s = true) (hmacc : m.accessible n s = true)
    (hf : f ((advance 24 s).valueAt l n) ((advance 24 s).valueAt m n) = .ok v) (hv : v < 2 ^ (8 * n.bytes)) :
    ∃ t, exec i s = .next t ∧ Written (advance 24 s) t l n v := by
  have hacc : l.accessible n (advance 24 s) = true := by simpa using hlacc
  have hhandler : binaryHandler f n l m (advance 24 s) = .ok _ :=
    (binaryHandler_eq_ok _ _ _ _ _ _).2
      ⟨hacc, by simpa using hmacc, v, hf, (writeLoc_eq_ok _ _ _ _ _).2 ⟨hacc, himm, rfl⟩⟩
  have hrun : body i (advanced i s) = binaryHandler f n l m (advance 24 s) := by
    rw [advanced, harity]
    exact (hbody (advance 24 s)).trans (by rw [(resolveWritten_eq_ok 0 d _ l).2 ⟨hl, himm⟩, ok_bind, hm, ok_bind])
  exact ⟨_, exec_of_body (hrun.trans hhandler), written_putAt_of_lt _ himm hv⟩

/-- An instruction whose body computes a value of `n` bytes from its operand completes, and writes that value there. -/
theorem written_of_unary {f : Nat → Nat} (harity : i.arity = 1)
    (hbody : ∀ t, body i t = resolveWritten 0 d t >>= fun l => unaryHandler f n l t)
    (hl : resolve d (advance 16 s) = .ok l) (himm : ∀ x, l ≠ .imm x) (hlacc : l.accessible n s = true)
    (hv : f ((advance 16 s).valueAt l n) < 2 ^ (8 * n.bytes)) :
    ∃ t, exec i s = .next t ∧ Written (advance 16 s) t l n (f ((advance 16 s).valueAt l n)) := by
  have hacc : l.accessible n (advance 16 s) = true := by simpa using hlacc
  have hhandler : unaryHandler f n l (advance 16 s) = .ok _ :=
    (unaryHandler_eq_ok _ _ _ _ _).2 ⟨hacc, (writeLoc_eq_ok _ _ _ _ _).2 ⟨hacc, himm, rfl⟩⟩
  have hrun : body i (advanced i s) = unaryHandler f n l (advance 16 s) := by
    rw [advanced, harity]
    exact (hbody (advance 16 s)).trans (by rw [(resolveWritten_eq_ok 0 d _ l).2 ⟨hl, himm⟩, ok_bind])
  exact ⟨_, exec_of_body (hrun.trans hhandler), written_putAt_of_lt _ himm hv⟩

end

/-- Settles O31: the sum is reduced by the ALU and written whole. -/
theorem addWritesTheSum : Obligations.AddWritesTheSum := by
  intro n d src s l m hl himm hm hlacc hmacc
  exact written_of_binary rfl (fun _ => rfl) hl himm hm hlacc hmacc rfl (trunc_lt n _)

/-- Settles O32: the ALU's natural number is the integer difference reduced. -/
theorem subWritesTheDifference : Obligations.SubWritesTheDifference := by
  intro n d src s l m hl himm hm hlacc hmacc
  obtain ⟨t, ht, hwritten⟩ :=
    written_of_binary (i := .sub n d src) rfl (fun _ => rfl) hl himm hm hlacc hmacc rfl (trunc_lt n _)
  exact ⟨t, _, ht, hwritten, aluSub_eq_emod (valueAt_lt _ m n).le⟩

/-- Settles O33: the product is reduced by the ALU and written whole. -/
theorem mulWritesTheLowProduct : Obligations.MulWritesTheLowProduct := by
  intro n d src s l m hl himm hm hlacc hmacc
  exact written_of_binary rfl (fun _ => rfl) hl himm hm hlacc hmacc rfl (trunc_lt n _)

/-- Settles O34: the quotient and the remainder are at most the dividend, so both fit `n` bytes and are written whole. -/
theorem divAndModWriteQuotientAndRemainder : Obligations.DivAndModWriteQuotientAndRemainder := by
  intro n d src s l m hl himm hm hlacc hmacc hdivisor
  have hdividend := valueAt_lt (advance 24 s) l n
  obtain ⟨t, ht, hquotient⟩ := written_of_binary (i := .div n d src) rfl (fun _ => rfl) hl himm hm hlacc hmacc
    (aluDiv_of_ne_zero hdivisor) ((Nat.div_le_self _ _).trans_lt hdividend)
  obtain ⟨u, hu, hremainder⟩ := written_of_binary (i := .mod n d src) rfl (fun _ => rfl) hl himm hm hlacc hmacc
    (aluMod_of_ne_zero hdivisor) ((Nat.mod_le _ _).trans_lt hdividend)
  exact ⟨t, u, _, _, ht, hquotient, hu, hremainder, (Nat.div_add_mod _ _).symm,
    Nat.mod_lt _ (Nat.pos_of_ne_zero hdivisor)⟩

/-- Settles O35: both results are the integer ones reduced, and are written whole. -/
theorem incAndDecStepByOne : Obligations.IncAndDecStepByOne := by
  intro n o s l hl himm hacc
  obtain ⟨t, ht, hinc⟩ := written_of_unary (i := .inc n o) rfl (fun _ => rfl) hl himm hacc (trunc_lt n _)
  obtain ⟨u, hu, hdec⟩ := written_of_unary (i := .dec n o) rfl (fun _ => rfl) hl himm hacc (trunc_lt n _)
  exact ⟨t, u, _, _, ht, hinc, hu, hdec, aluInc_eq_emod, aluDec_eq_emod⟩

/-! ### `cmp` (R217) -/

/-- Settles O36: the handler completes because both operands pass their bounds checks, and its one write is to `RFLAG`. -/
theorem cmpWritesTheSignedDifference : Obligations.CmpWritesTheSignedDifference := by
  intro n a b s l m hl hm hlacc hmacc
  have h : cmpHandler n l m (advance 24 s) = .ok _ :=
    (cmpHandler_eq_ok _ _ _ _ _).2 ⟨by simpa using hlacc, by simpa using hmacc, rfl⟩
  exact ⟨_, _, exec_of_body ((body_cmp hl hm).trans h), onlyReg_writeReg _ .rflag _,
    toInt_compareResult_eq_bmod (valueAt_lt _ l n) (valueAt_lt _ m n)⟩

end Sys2Proof.Machine
end

section
/-! SUPPORT. Proofs of the statements of 44_system.md. Neither instruction writes a register or a byte of its own: `print` leaves the
advanced state with one value more in its output stream (`exec_print`, R230), and that value is the operand's number because a
number of at most 8 bytes fits a word (`toNat_ofNat_valueAt`, R150). `exit` leaves the advanced state halted (`exec_exit`, R231), and
a halted machine has no step (`step_ne_next_of_halted`, R158). -/

namespace Sys2Proof.Machine

/-! ### `print` (R230) -/

/-- Zero-extending an operand's number to a word loses nothing (R150, R230). -/
theorem toNat_ofNat_valueAt (s : State) (l : Loc) (n : Size) : (BitVec.ofNat 64 (s.valueAt l n)).toNat = s.valueAt l n := by
  have hbits : 8 * n.bytes ≤ 64 := by cases n <;> decide
  rw [BitVec.toNat_ofNat]
  exact Nat.mod_eq_of_lt ((valueAt_lt s l n).trans_le (Nat.pow_le_pow_right two_pos hbits))

section
variable {n : Size} {o : Operand} {s : State} {l : Loc}

theorem body_print (hl : resolve o s = .ok l) : body (.print n o) s = printHandler n l s := by
  simp only [body, hl, ok_bind]

/-- `print` of an operand in bounds completes, and all it does after the advance is to emit the operand's number. -/
theorem exec_print (hl : resolve o (advance 16 s) = .ok l) (hacc : l.accessible n s = true) :
    exec (.print n o) s = .next ((advance 16 s).emit (BitVec.ofNat 64 ((advance 16 s).valueAt l n))) := by
  have hprint : printHandler n l (advance 16 s) = .ok _ := (printHandler_eq_ok _ _ _ _).2 ⟨by simpa using hacc, rfl⟩
  exact exec_of_body ((body_print hl).trans hprint)

end

/-- Settles O37: the advance and the emission each keep every field but `RIP` and the output. -/
theorem printAppendsTheValue : Obligations.PrintAppendsTheValue := by
  intro n o s l hl hacc
  have hvalue := toNat_ofNat_valueAt (advance 16 s) l n
  refine ⟨_, _, exec_print hl hacc, ?output, hvalue, hvalue.trans_lt (valueAt_lt _ l n), ?registers, ?bytes, ?system⟩
  case output => rw [output_emit, output_advance]
  case registers => exact fun r _ => readReg_emit _ _ r
  case bytes => exact fun a => by rw [readByte_emit, readByte_advance]
  case system => simp

/-! ### `exit` (R231, R158) -/

/-- The record of `exit` is its header alone, and the header names no operand (R85, R231). -/
theorem encode_exit (n : Size) : encode (.exit n) = [0x03, BitVec.ofNat 8 n.bytes, 0, 0, 0, 0, 0, 0] :=
  (List.append_nil _).symm.trans (encode_append_zero (i := .exit n) [] rfl)

/-- A halted machine has no step (R158). -/
theorem step_ne_next_of_halted {s : State} (h : s.status = .halted) (t : State) : step s ≠ .next t := by
  intro hstep
  obtain ⟨hrunning, -⟩ := (step_eq_next s t).1 hstep
  cases h.symm.trans hrunning

/-- Settles O38: the state after `exit` is the advanced state with the status halted. -/
theorem exitHalts : Obligations.ExitHalts := by
  intro n s
  refine ⟨encode_exit n, _, exec_exit n s, status_setStatus _ _, ?rip, ?registers, ?bytes, ?size, ?cause, ?info, ?output,
    step_ne_next_of_halted (status_setStatus _ _)⟩
  case rip => exact (readReg_setStatus _ _ _).trans (readReg_advance_rip 8 s)
  case registers =>
    intro r hr
    rw [readReg_setStatus, readReg_advance_ne 8 s r (by simpa using hr)]
  case bytes => exact fun a => by rw [readByte_setStatus, readByte_advance]
  case size | cause | info | output => simp

end Sys2Proof.Machine
end

section
/-! SUPPORT. Proofs of the statements of 60_exceptions.md. An opcode that writes slot 0 raises on an immediate there before anything
else (`body_eq_error_of_written_imm`, R249). Of two memory operands the one accessed first faults first: that order is said once
(`AccessesFault`, R245), and each handler with two operands is tied to it, `mov` with its source first. Between the reads and the
write of an arithmetic instruction only its ALU function can raise, because the write goes where a read has been
(`binaryHandler_eq_error`, R248). An instruction that leaves a faulted machine has done nothing else (`eq_takeFault_of_exec`,
R247). -/

namespace Sys2Proof.Machine

/-! ### Immediates in a slot that is written (R249) -/

/-- Every body that writes slot 0 starts by resolving it for writing, so slot 1 is not looked at (R152, R249). -/
theorem body_eq_error_of_written_imm {i : Instr} {v : Word} (h : writtenOperand i = some (.imm v)) (s : State) :
    body i s = .error ⟨.writeToImmediate, 0⟩ := by
  have hraise : resolveWritten 0 (.imm v) s = .error ⟨.writeToImmediate, 0⟩ :=
    (resolveWritten_eq_error _ _ _ _).2 (.inr ⟨v, rfl, rfl⟩)
  cases i with
  | push n o | jmp n o | exit n | call n o | ret n | cmp n a b | je n o | jne n o | jl n o | jg n o | jle n o | jge n o
  | print n o => cases h
  | mov n d o | pop n d | add n d o | sub n d o | mul n d o | div n d o | mod n d o | inc n d | dec n d =>
    cases h
    exact (bind_eq_error _ _ _).2 (.inl hraise)

theorem takesFault_of_written_imm {i : Instr} {v : Word} (h : writtenOperand i = some (.imm v)) (s : State) :
    TakesFault (exec i s) s .writeToImmediate 0 :=
  takesFault_of_body (body_eq_error_of_written_imm h _)

/-- Settles O20: in each of the nine instructions the immediate is the written operand. -/
theorem writingAnImmediateFaults : Obligations.WritingAnImmediateFaults := by
  intro n v src s
  refine ⟨?mov, ?pop, ?add, ?sub, ?mul, ?div, ?mod, ?inc, ?dec⟩
  all_goals exact takesFault_of_written_imm rfl s

/-! ### Two accesses in sequence (R245) -/

/-- The fault of an access at `first` followed by one at `second`: that of `first`, or else that of `second`. -/
def AccessesFault (n : Size) (s : State) (first second : Loc) (r : Raise) : Prop :=
  readLoc first n s = .error r ∨ (first.accessible n s = true ∧ readLoc second n s = .error r)

section
variable {n : Size} {s : State} {l m : Loc} {a : Word}

/-- The advance moves no bound of the arena. -/
theorem readLoc_advance_eq_error (k : Nat) (hl : l = .mem a) (hb : s.inBounds a n.bytes = false) :
    readLoc l n (advance k s) = .error ⟨.memoryFault, a⟩ :=
  (readLoc_eq_error _ _ _ _).2 ⟨a, hl, by rwa [inBounds_advance], rfl⟩

theorem accessesFault_first (k : Nat) (hl : l = .mem a) (hb : s.inBounds a n.bytes = false) :
    AccessesFault n (advance k s) l m ⟨.memoryFault, a⟩ :=
  .inl (readLoc_advance_eq_error k hl hb)

theorem accessesFault_second (k : Nat) (hacc : l.accessible n s = true) (hm : m = .mem a)
    (hb : s.inBounds a n.bytes = false) : AccessesFault n (advance k s) l m ⟨.memoryFault, a⟩ :=
  .inr ⟨by rwa [accessible_advance], readLoc_advance_eq_error k hm hb⟩

/-- Only a memory location can be out of bounds (R150). -/
theorem exists_mem_of_not_accessible (h : ¬ l.accessible n s = true) : ∃ a, l = .mem a ∧ s.inBounds a n.bytes = false := by
  cases l with
  | mem a => exact ⟨a, rfl, Bool.eq_false_of_not_eq_true h⟩
  | reg r | imm v => exact absurd rfl h

/-- Of two locations that are not both in bounds one faults. -/
theorem exists_accessesFault (k : Nat) (h : ¬ (l.accessible n s = true ∧ m.accessible n s = true)) :
    ∃ a, AccessesFault n (advance k s) l m ⟨.memoryFault, a⟩ := by
  by_cases hl : l.accessible n s = true
  · obtain ⟨a, hm, hb⟩ := exists_mem_of_not_accessible fun hm => h ⟨hl, hm⟩
    exact ⟨a, accessesFault_second k hl hm hb⟩
  · obtain ⟨a, hl, hb⟩ := exists_mem_of_not_accessible hl
    exact ⟨a, accessesFault_first k hl hb⟩

end

/-! ### The faults of the handlers, in the order of their lines (R180, R210 to R217, R230, R245, R248) -/

section
variable {n : Size} {l m : Loc} {s : State} {r : Raise}

/-- A write at a location that is no immediate faults as a read does (R151). -/
theorem writeLoc_eq_error_iff_readLoc (himm : ∀ v, l ≠ .imm v) (v : Nat) :
    writeLoc l n v s = .error r ↔ readLoc l n s = .error r := by
  rw [writeLoc_eq_error _ _ _ _ _ himm, readLoc_eq_error]

/-- A location that is in bounds can be read (R150). -/
theorem readLoc_ne_error_of_accessible (h : l.accessible n s = true) : readLoc l n s ≠ .error r := by
  rw [(readLoc_eq_ok l n s _).2 ⟨h, rfl⟩]
  exact nofun

theorem movHandler_eq_error (himm : ∀ v, l ≠ .imm v) : movHandler n l m s = .error r ↔ AccessesFault n s m l r := by
  simp [movHandler, AccessesFault, bind_eq_error, readLoc_eq_ok, writeLoc_eq_error_iff_readLoc himm]

/-- The final write raises nothing, because it goes where the first read has been. -/
theorem binaryHandler_eq_error {f : Nat → Nat → Except Raise Nat} (himm : ∀ v, l ≠ .imm v) :
    binaryHandler f n l m s = .error r ↔
      AccessesFault n s l m r ∨
        (l.accessible n s = true ∧ m.accessible n s = true ∧ f (s.valueAt l n) (s.valueAt m n) = .error r) := by
  by_cases hl : l.accessible n s = true
  · simp [binaryHandler, AccessesFault, bind_eq_error, readLoc_eq_ok, writeLoc_eq_error_iff_readLoc himm,
      readLoc_ne_error_of_accessible hl, hl]
  · simp [binaryHandler, AccessesFault, bind_eq_error, readLoc_eq_ok, hl]

theorem cmpHandler_eq_error : cmpHandler n l m s = .error r ↔ AccessesFault n s l m r := by
  simp [cmpHandler, AccessesFault, bind_eq_error, readLoc_eq_ok]

/-- The final write raises nothing, because it goes where the read has been. -/
theorem unaryHandler_eq_error {f : Nat → Nat} (himm : ∀ v, l ≠ .imm v) :
    unaryHandler f n l s = .error r ↔ readLoc l n s = .error r := by
  by_cases hl : l.accessible n s = true
  · simp [unaryHandler, bind_eq_error, writeLoc_eq_error_iff_readLoc himm, readLoc_ne_error_of_accessible hl]
  · simp [unaryHandler, bind_eq_error, readLoc_eq_ok, hl]

theorem printHandler_eq_error : printHandler n l s = .error r ↔ readLoc l n s = .error r := by
  simp [printHandler, bind_eq_error]

end

/-! ### The faults of whole instructions (R245, R248) -/

section
variable {i : Instr} {n : Size} {d src : Operand} {s : State} {l m : Loc} {r : Raise}

theorem body_binary {f : Nat → Nat → Except Raise Nat}
    (hbody : ∀ t, body i t = resolveWritten 0 d t >>= fun l => resolve src t >>= fun m => binaryHandler f n l m t)
    (hl : resolve d s = .ok l) (himm : ∀ v, l ≠ .imm v) (hm : resolve src s = .ok m) :
    body i s = binaryHandler f n l m s :=
  (hbody s).trans (by rw [(resolveWritten_eq_ok 0 d s l).2 ⟨hl, himm⟩, ok_bind, hm, ok_bind])

theorem body_unary {f : Nat → Nat} (hbody : ∀ t, body i t = resolveWritten 0 d t >>= fun l => unaryHandler f n l t)
    (hl : resolve d s = .ok l) (himm : ∀ v, l ≠ .imm v) : body i s = unaryHandler f n l s :=
  (hbody s).trans (by rw [(resolveWritten_eq_ok 0 d s l).2 ⟨hl, himm⟩, ok_bind])

theorem takesFault_mov (hl : resolve d (advance 24 s) = .ok l) (himm : ∀ v, l ≠ .imm v)
    (hm : resolve src (advance 24 s) = .ok m) (h : AccessesFault n (advance 24 s) m l r) :
    TakesFault (exec (.mov n d src) s) s r.cause r.info :=
  takesFault_of_body ((body_mov hl himm hm).trans ((movHandler_eq_error himm).2 h))

/-- The instructions that read both operands read slot 0 first. -/
theorem takesFault_of_accessesFault {mk : Size → Operand → Operand → Instr}
    (hmk : mk ∈ [Instr.add, Instr.sub, Instr.mul, Instr.div, Instr.mod, Instr.cmp])
    (hl : resolve d (advance 24 s) = .ok l) (himm : mk ≠ Instr.cmp → ∀ v, l ≠ .imm v)
    (hm : resolve src (advance 24 s) = .ok m) (h : AccessesFault n (advance 24 s) l m r) :
    TakesFault (exec (mk n d src) s) s r.cause r.info := by
  by_cases hcmp : mk = Instr.cmp
  · subst hcmp
    exact takesFault_of_body ((body_cmp hl hm).trans (cmpHandler_eq_error.2 h))
  · have hbinary : mk = Instr.add ∨ mk = Instr.sub ∨ mk = Instr.mul ∨ mk = Instr.div ∨ mk = Instr.mod := by
      simpa [hcmp] using hmk
    rcases hbinary with rfl | rfl | rfl | rfl | rfl
    all_goals
      exact takesFault_of_body ((body_binary (fun _ => rfl) hl (himm hcmp) hm).trans
        ((binaryHandler_eq_error (himm hcmp)).2 (.inl h)))

/-- The instructions with one operand that read it before anything else. -/
theorem takesFault_of_readLoc {mk : Size → Operand → Instr} (hmk : mk ∈ [Instr.inc, Instr.dec, Instr.print, Instr.jmp])
    (hl : resolve d (advance 16 s) = .ok l) (himm : ∀ v, l ≠ .imm v) (h : readLoc l n (advance 16 s) = .error r) :
    TakesFault (exec (mk n d) s) s r.cause r.info := by
  simp only [List.mem_cons, List.not_mem_nil, or_false] at hmk
  rcases hmk with rfl | rfl | rfl | rfl
  case inl | inr.inl =>
    exact takesFault_of_body ((body_unary (fun _ => rfl) hl himm).trans ((unaryHandler_eq_error himm).2 h))
  case inr.inr.inl => exact takesFault_of_body ((body_print hl).trans (printHandler_eq_error.2 h))
  case inr.inr.inr =>
    exact takesFault_of_body ((body_jmp hl).trans ((jmpHandler_eq_error _ _ _ _).2 ((readLoc_eq_error _ _ _ _).1 h)))

end

/-- Settles O22: each clause is the first or the second of the accesses of its handler, on the advanced state. -/
theorem memoryOperandsOutOfBoundsFault : Obligations.MemoryOperandsOutOfBoundsFault := by
  refine ⟨?mov, ?twoReads, ?oneRead⟩
  case mov =>
    intro n d src s l m a hl himm hm
    exact ⟨fun ha hb => takesFault_mov hl himm hm (accessesFault_first 24 ha hb),
      fun hacc ha hb => takesFault_mov hl himm hm (accessesFault_second 24 hacc ha hb)⟩
  case twoReads =>
    intro mk n d src s l m a hmk hl himm hm
    exact ⟨fun ha hb => takesFault_of_accessesFault hmk hl himm hm (accessesFault_first 24 ha hb),
      fun hacc ha hb => takesFault_of_accessesFault hmk hl himm hm (accessesFault_second 24 hacc ha hb)⟩
  case oneRead =>
    intro mk n o s a hmk hl hb
    exact takesFault_of_readLoc hmk hl (by simp) (readLoc_advance_eq_error 16 rfl hb)

/-- Settles O21: with both operands read the zero divisor is the only fault left; otherwise the read that fails comes first. -/
theorem divisionByZeroFaults : Obligations.DivisionByZeroFaults := by
  intro n d src s l m hl himm hm
  refine ⟨fun hlacc hmacc hzero => ?zeroDivisor, fun hacc => ?unreadable⟩
  case zeroDivisor =>
    have hfault {f : Nat → Nat → Except Raise Nat} (hf : ∀ a, f a 0 = .error ⟨.arithmeticFault, 0⟩) :
        binaryHandler f n l m (advance 24 s) = .error ⟨.arithmeticFault, 0⟩ :=
      (binaryHandler_eq_error himm).2 (.inr ⟨by simpa using hlacc, by simpa using hmacc, hzero ▸ hf _⟩)
    exact ⟨takesFault_of_body ((body_binary (i := .div n d src) (fun _ => rfl) hl himm hm).trans (hfault fun _ => rfl)),
      takesFault_of_body ((body_binary (i := .mod n d src) (fun _ => rfl) hl himm hm).trans (hfault fun _ => rfl))⟩
  case unreadable =>
    obtain ⟨a, ha⟩ := exists_accessesFault 24 hacc
    exact ⟨a, takesFault_of_accessesFault (mk := .div) (by simp) hl (fun _ => himm) hm ha,
      takesFault_of_accessesFault (mk := .mod) (by simp) hl (fun _ => himm) hm ha⟩

/-! ### Precise faults (R247) -/

/-- Nothing but the taking of a fault makes a machine faulted. -/
theorem eq_takeFault_of_exec {i : Instr} {s t : State} (hs : s.status ≠ .faulted) (h : exec i s = .next t)
    (ht : t.status = .faulted) : ∃ r, t = takeFault r s := by
  rcases exec_cases h with hfault | ⟨u, hu, hend⟩
  · exact hfault
  · obtain ⟨-, hstatus, -⟩ := sameSystem_of_updates hu
    rcases hend with ⟨n, -, rfl⟩ | ⟨n, o, v, -, rfl⟩ | rfl
    · cases ht
    · exact absurd (hstatus.symm.trans ht) hs
    · exact absurd (hstatus.symm.trans ht) hs

/-- Settles O43: the fault is that of the fetch or that of the instruction, and both are taken on the state before the step. -/
theorem faultsArePrecise : Obligations.FaultsArePrecise := by
  intro s t hrun h ht
  have hfault : ∃ r, t = takeFault r s := by
    obtain ⟨-, ⟨i, -, hexec⟩ | ⟨r, -, htake⟩⟩ := (step_eq_next s t).1 h
    · exact eq_takeFault_of_exec (by simp [hrun]) hexec ht
    · exact ⟨r, htake⟩
  obtain ⟨r, rfl⟩ := hfault
  exact faultedFrom_takeFault r s

end Sys2Proof.Machine
end

section
/-! SUPPORT. Proof of the statement of 70_reset_and_hazards.md about refused loads (R271). Both directions of a refusal follow from
when a load is accepted (`resetWith_eq_ok`), and an accepted load reads nothing after the code section, so bytes appended
to a whole image leave the loaded machine as it is (`loaded_append`). -/

namespace Sys2Proof.Machine

/-- A load is refused exactly when its image is not whole or does not fit in the arena. -/
theorem resetWith_refused_iff (size : Nat) (any : Unspecified) (image : List Byte) :
    (∃ e, resetWith size any image = .error e) ↔
      image.length < 16 + codeLength image ∨ size < 16 + codeLength image := by
  have haccepted := resetWith_eq_ok size any image
  cases h : resetWith size any image with
  | error e =>
    refine ⟨fun _ => ?_, fun _ => ⟨e, rfl⟩⟩
    by_contra hfits
    have hok := (haccepted _).2 ⟨by omega, by omega, rfl⟩
    exact nomatch h.symm.trans hok
  | ok s =>
    obtain ⟨himage, hfits, -⟩ := (haccepted s).1 h
    exact ⟨fun ⟨_, he⟩ => (nomatch he), fun _ => by omega⟩

/-! ### Bytes after the code section (R105, R271) -/

/-- Both header fields lie in the first 16 bytes, so they do not see what is appended to an image that has its header. -/
theorem imageField_append {image : List Byte} {k : Nat} (h : 8 * k + 8 ≤ image.length) (extra : List Byte) :
    imageField (image ++ extra) k = imageField image k := by
  unfold imageField
  rw [List.drop_append_of_le_length (by omega), List.take_append_of_le_length (by simp; omega)]

theorem codeLength_append {image : List Byte} (h : 16 ≤ image.length) (extra : List Byte) :
    codeLength (image ++ extra) = codeLength image :=
  imageField_append (by omega) extra

theorem entryPoint_append {image : List Byte} (h : 16 ≤ image.length) (extra : List Byte) :
    entryPoint (image ++ extra) = entryPoint image :=
  imageField_append (by omega) extra

/-- The code section of a whole image ends inside the image. -/
theorem codeSection_append {image : List Byte} (h : 16 + codeLength image ≤ image.length) (extra : List Byte) :
    codeSection (image ++ extra) = codeSection image := by
  rw [codeSection, codeSection, imageHeaderLen_eq, codeLength_append (by omega),
    List.drop_append_of_le_length (by omega), List.take_append_of_le_length (by simp; omega)]

/-- The loaded machine depends on the header and the code section only. -/
theorem loaded_append (size : Nat) (any : Unspecified) {image : List Byte}
    (h : 16 + codeLength image ≤ image.length) (extra : List Byte) :
    loaded size any (image ++ extra) = loaded size any image := by
  rw [loaded, loaded, codeLength_append (by omega), entryPoint_append (by omega), codeSection_append h]

/-! ### Refusal and acceptance (R271) -/

/-- A legal arena has room for the 16 header bytes (R31). -/
theorem header_le_of_legalArenaSize {size : Nat} (h : legalArenaSize size = true) : 16 ≤ size := by
  simp only [legalArenaSize, Bool.and_eq_true, decide_eq_true_eq] at h
  omega

/-- Settles O48: an image without its header is shorter than `16 + code_len` too; what is appended to an accepted image changes
neither its acceptance nor the loaded machine; and the empty code needs the header's room alone. -/
theorem loadIsRefusedExactlyWhenItCannotFit : Obligations.LoadIsRefusedExactlyWhenItCannotFit := by
  refine ⟨?refused, ?trailing, ?emptyCode⟩
  case refused =>
    intro size any image
    rw [resetWith_refused_iff, ← codeLength_eq]
    omega
  case trailing =>
    intro size any image extra s h
    obtain ⟨himage, hfits, hloaded⟩ := (resetWith_eq_ok size any image s).1 h
    rw [resetWith_eq_ok, codeLength_append (by omega), loaded_append size any himage, List.length_append]
    exact ⟨by omega, hfits, hloaded⟩
  case emptyCode =>
    intro size any image hsize himage hcode
    rw [← codeLength_eq] at hcode
    have hroom := header_le_of_legalArenaSize hsize
    exact ⟨_, (resetWith_eq_ok size any image _).2 ⟨by omega, by omega, rfl⟩⟩

end Sys2Proof.Machine
end
